-- ==== Sys2Proof/Word.lean ====
section
/-! DEFINITION. The words of LSB-CODEC and the small fixed sets of names its commands and pixels use
(spec 00_scope.md R10, R12; 30_encoding.md R91). Every value of the block is unsigned (R10). -/

namespace Sys2Proof

/-- A byte: a symbol, a channel value (R10, R63). -/
abbrev Byte := BitVec 8

/-- A 32-bit word: a register, a pixel word, a command word (R10, R22, R90). -/
abbrev Word := BitVec 32

/-- The four channels of a pixel word (R12). -/
inductive Channel where
  | r
  | g
  | b
  | a
  deriving DecidableEq, Repr

/-- The TRAV field: 0 is sequential raster, 1 is scatter (R91, R94). -/
inductive Trav where
  | seq
  | scat
  deriving DecidableEq, Repr

/-- The EMBED field: 0 is LSB replacement, 1 is LSB matching (R91, R95). -/
inductive Embed where
  | repl
  | matching
  deriving DecidableEq, Repr

end Sys2Proof
end

