-- ==== Sys2Proof/Syntax.lean ====
section
/-! DEFINITION. The command set: one constructor per row of spec/opcode_table.json (30_encoding.md R92, R98). -/

namespace Sys2Proof

/-- A command. `chs` is the set CHMASK designates (R93), written as the list of its channels in visit order (R151);
`sym` and `code` are the operand byte OPND (R96). -/
inductive Instr where
  | nop
  | capacity (trav : Trav) (chs : List Channel)
  | encode (trav : Trav) (embed : Embed) (chs : List Channel)
  | decode (trav : Trav) (chs : List Channel)
  | encSym (sym : Byte)
  | decSym (code : Byte)
  deriving DecidableEq, Repr

end Sys2Proof
end

