-- ==== Sys2Proof/WellFormed.lean ====
section
/-! DEFINITION. Which commands have an encoding. Every field but the channel set is well-formed by its type; a channel
set is well-formed when each channel stands in it at most once and the channels stand in visit order R, G, B, A
(spec 30_encoding.md R102, 41_lsb_engine.md R151). -/

namespace Sys2Proof

/-- The visit order of a pixel's channels (R151). -/
def visitOrder : List Channel := [.r, .g, .b, .a]

/-- No channel stands in the set twice (R102: "each at most once"). -/
abbrev ChannelsOnce (chs : List Channel) : Prop := chs.Nodup

/-- The channels stand in visit order (R102: "The canonical spelling lists them in visit order R, G, B, A"). -/
abbrev ChannelsOrdered (chs : List Channel) : Prop :=
  chs.Pairwise fun x y => visitOrder.idxOf x ≤ visitOrder.idxOf y

/-- The channel set a CHMASK field can name. -/
abbrev ChannelsOk (chs : List Channel) : Prop := ChannelsOnce chs ∧ ChannelsOrdered chs

/-- The channel set of a command; a command without one has the empty set. -/
def Instr.channels : Instr → List Channel
  | .nop => []
  | .capacity _ chs => chs
  | .encode _ _ chs => chs
  | .decode _ chs => chs
  | .encSym _ => []
  | .decSym _ => []

/-- A command that some word encodes. -/
abbrev Instr.WellFormed (i : Instr) : Prop := ChannelsOk i.channels

end Sys2Proof
end

