-- ==== Sys2Proof/Decode.lean ====
section
/-! DEFINITION. The command word: its fields, its legality, the total decoder and the encoder (spec 30_encoding.md R91
to R101). The decoder answers every one of the 2^32 words with one command or with the name of what makes the word
illegal (R99). -/

namespace Sys2Proof

/-- Why a word is illegal: the three cases of R99. Their names and the order in which they are given are the model's
(log entry 14, DESIGN CHOICE, safe). -/
inductive Reject where
  /-- OP in 6..15. -/
  | reservedOp
  /-- A reserved bit of R91 (7:6, 15:12 or 31:24) is set. -/
  | reservedBit
  /-- A field that the word's OP does not use is set. -/
  | unusedField
  deriving DecidableEq, Repr

/-- OP, bits 3:0 (R91). -/
def opField (w : Word) : BitVec 4 := w.extractLsb' 0 4

/-- TRAV, bit 4 (R91, R94). -/
def travField (w : Word) : Trav := if w.getLsbD 4 then .scat else .seq

/-- EMBED, bit 5 (R91, R95). -/
def embedField (w : Word) : Embed := if w.getLsbD 5 then .matching else .repl

/-- CHMASK, bits 11:8 (R91, R93). -/
def chmaskField (w : Word) : BitVec 4 := w.extractLsb' 8 4

/-- OPND, bits 23:16 (R91, R96). -/
def opndField (w : Word) : Byte := w.extractLsb' 16 8

/-- The place of a channel in CHMASK, which is its byte in the pixel word (R93, R151). -/
def Channel.bitOf : Channel → Nat
  | .b => 0
  | .g => 1
  | .r => 2
  | .a => 3

/-- `chlist(mask)`: the designated channels in visit order (R151). -/
def chlist (mask : BitVec 4) : List Channel :=
  visitOrder.filter fun ch => mask.getLsbD ch.bitOf

/-- The CHMASK that designates the channels of a set (R93). -/
def chmaskOf (chs : List Channel) : BitVec 4 :=
  BitVec.ofBool (decide (Channel.a ∈ chs)) ++ BitVec.ofBool (decide (Channel.r ∈ chs)) ++
    BitVec.ofBool (decide (Channel.g ∈ chs)) ++ BitVec.ofBool (decide (Channel.b ∈ chs))

/-- The reserved bits of the format: 7:6, 15:12 and 31:24 (R91). -/
def reservedMask : Word := 0xFF00F0C0

/-- `AM(OP)`, the bits a legal word of this OP may set (R97); a reserved OP has none. -/
def allowedMask (op : BitVec 4) : Word :=
  match op.toNat with
  | 0 => 0x0000000F
  | 1 => 0x00000F1F
  | 2 => 0x00000F3F
  | 3 => 0x00000F1F
  | 4 => 0x00FF000F
  | 5 => 0x00FF000F
  | _ => 0

/-- `legal(w)` (R97). -/
def legal (w : Word) : Bool :=
  (opField w).toNat ≤ 5 && (w &&& ~~~ allowedMask (opField w)) == 0

/-- The name of what makes an illegal word illegal (R99). -/
def rejectName (w : Word) : Reject :=
  if 5 < (opField w).toNat then .reservedOp
  else if (w &&& reservedMask) ≠ 0 then .reservedBit
  else .unusedField

/-- `decode_cmd` (R98). -/
def decode (w : Word) : Except Reject Instr :=
  if legal w then
    match (opField w).toNat with
    | 0 => .ok .nop
    | 1 => .ok (.capacity (travField w) (chlist (chmaskField w)))
    | 2 => .ok (.encode (travField w) (embedField w) (chlist (chmaskField w)))
    | 3 => .ok (.decode (travField w) (chlist (chmaskField w)))
    | 4 => .ok (.encSym (opndField w))
    | 5 => .ok (.decSym (opndField w))
    | _ => .error .reservedOp
  else .error (rejectName w)

/-- TRAV as a bit (R94). -/
def Trav.bit : Trav → BitVec 1
  | .seq => 0
  | .scat => 1

/-- EMBED as a bit (R95). -/
def Embed.bit : Embed → BitVec 1
  | .repl => 0
  | .matching => 1

/-- A command word put together from its fields, reserved bits 0 (R91). -/
def packFields (op : BitVec 4) (trav embed : BitVec 1) (mask : BitVec 4) (opnd : Byte) : Word :=
  0#8 ++ opnd ++ 0#4 ++ mask ++ 0#2 ++ embed ++ trav ++ op

/-- The word of a command (R92, R101). -/
def encode : Instr → Word
  | .nop => packFields 0 0 0 0 0
  | .capacity trav chs => packFields 1 trav.bit 0 (chmaskOf chs) 0
  | .encode trav embed chs => packFields 2 trav.bit embed.bit (chmaskOf chs) 0
  | .decode trav chs => packFields 3 trav.bit 0 (chmaskOf chs) 0
  | .encSym sym => packFields 4 0 0 0 sym
  | .decSym code => packFields 5 0 0 0 code

/-- A row of the opcode map (R101). -/
structure OpcodeRow where
  mnemonic : String
  value    : Word
  mask     : Word
  deriving DecidableEq, Repr

/-- The opcode map (R101, spec/opcode_table.json): `w` encodes a row when `w &&& mask = value`. -/
def opcodeTable : List OpcodeRow :=
  [⟨"NOP", 0x00000000, 0xFFFFFFFF⟩, ⟨"CAPACITY", 0x00000001, 0xFFFFF0EF⟩,
   ⟨"ENCODE", 0x00000002, 0xFFFFF0CF⟩, ⟨"DECODE", 0x00000003, 0xFFFFF0EF⟩,
   ⟨"ENC_SYM", 0x00000004, 0xFF00FFFF⟩, ⟨"DEC_SYM", 0x00000005, 0xFF00FFFF⟩]

/-- The row of a command in the opcode map. -/
def Instr.mnemonic : Instr → String
  | .nop => "NOP"
  | .capacity _ _ => "CAPACITY"
  | .encode _ _ _ => "ENCODE"
  | .decode _ _ => "DECODE"
  | .encSym _ => "ENC_SYM"
  | .decSym _ => "DEC_SYM"

/-- `w` encodes the row (R101). -/
def OpcodeRow.encodes (r : OpcodeRow) (w : Word) : Bool := (w &&& r.mask) == r.value

/-- The command in a table row's word: a command is one 32-bit word (R90, R100), so the word is `w`'s low `nbits` bits,
the rest 0. -/
def decodeTableWord (nbits w : Nat) : Option Instr :=
  (decode (BitVec.ofNat 32 (w % 2 ^ nbits))).toOption

end Sys2Proof
end

