-- ==== Sys2Proof/Config.lean ====
section
/-! DEFINITION. The parameters of an instance of the block (spec 00_scope.md R5, R7, R8; 40_alphabet.md R121;
60_exceptions.md R243). They are plain data and stand in State (R20 part 5: the ALPHABET table is read-only state),
so that a claim over every state is a claim over every instance. -/

namespace Sys2Proof

/-- What an implementation fixes. `alphabet` is the ROM of R43: the graph of the partial function ALPHABET of R5 as a
list of (symbol, code) pairs. -/
structure Config where
  alphabet    : List (Byte × Nat)
  pixWordsMax : Nat
  msgBytesMax : Nat
  deriving DecidableEq, Repr

/-- The reference alphabet ALPHA95 (R121): bytes 0x20 to 0x7E to codes 1 to 95. -/
def Config.alpha95 : List (Byte × Nat) :=
  (List.range 95).map fun k => (BitVec.ofNat 8 (0x20 + k), k + 1)

/-- The reference instance (R5, R7, R8). -/
def Config.reference : Config where
  alphabet := Config.alpha95
  pixWordsMax := 2 ^ 20
  msgBytesMax := 2 ^ 20

/-- The well-formedness conditions of R5 (1) to (4) on an alphabet: a function, injective, no code 0, at least one
code, and no code above 255. -/
abbrev Config.AlphabetOk (t : List (Byte × Nat)) : Prop :=
  (t.map Prod.fst).Nodup ∧ (t.map Prod.snd).Nodup ∧ t ≠ [] ∧ ∀ p ∈ t, 1 ≤ p.2 ∧ p.2 ≤ 255

/-- The conditions R5, R7 and R8 put on an instance. -/
abbrev Config.Ok (c : Config) : Prop :=
  Config.AlphabetOk c.alphabet ∧ (1 ≤ c.pixWordsMax ∧ c.pixWordsMax ≤ 2 ^ 20) ∧
    (1 ≤ c.msgBytesMax ∧ c.msgBytesMax ≤ 2 ^ 20)

/-- BLOCK_BASE, the block's base address on the platform bus: the OPEN parameter of R243 and D11. It has no body: no
proof can rest on a value of it (log entry 8). -/
opaque Config.blockBase : Nat

end Sys2Proof
end

