-- ==== Sys2Proof/Machine/State.lean ====
section
/-! DEFINITION. The state of the block as plain data (spec 10_state.md R20 to R46), the inputs that the outside world
has still to give it (20_memory.md R70, 70_reset_and_hazards.md R270), and the state after reset (R46). -/

namespace Sys2Proof.Machine

/-- What a byte of PIXMEM or MSGMEM that the list does not hold reads as. DESIGN CHOICE (log entry 1, unsafe only for
claims about the one state `State.reset`): the spec leaves power-on contents unspecified (R64); `State.powerOn` takes
any contents. -/
def unlistedByte : Byte := 0

/-- A memory: (address, byte) pairs, addresses strictly rising, no pair equal to what an unlisted address reads as. -/
abbrev Memory := List Host.Cell

/-- `E.state` (R42). -/
inductive Phase where
  | idle
  | check
  | validate
  | capchk
  | travinit
  | embed
  | scan
  | decodeCode
  deriving DecidableEq, Repr

/-- The result codes STATUS.ERR can hold (R230); 8 to 15 are never produced, so they have no name (log entry 13,
DEDUCED). -/
inductive ErrCode where
  | ok
  | unsupportedCharacter
  | capacityExceeded
  | invalidCode
  | noPayloadFound
  | invalidBuffer
  | msgLength
  | illegalCommand
  deriving DecidableEq, Repr

/-- The host-visible registers that hold something (R22). ID and ALPHA_INFO are constants (R24, R25); STATUS.BUSY is
`E.state != IDLE` (R28); reserved bits read 0 and hold nothing (R44). -/
structure Regs where
  irqEn    : Bool
  done     : Bool
  overrun  : Bool
  err      : ErrCode
  cmd      : Word
  width    : BitVec 16
  height   : BitVec 16
  msgLen   : Word
  capacity : Word
  result   : Word
  errIndex : Word
  errValue : Word
  seed     : Word
  deriving DecidableEq, Repr

/-- Every host-visible register at its reset value (R22, R46). -/
def Regs.reset : Regs where
  irqEn := false
  done := false
  overrun := false
  err := .ok
  cmd := 0
  width := 0
  height := 0
  msgLen := 0
  capacity := 0
  result := 0
  errIndex := 0
  errValue := 0
  seed := 0

/-- The internal engine registers (R40). What the pseudocode shifts or takes bits of is a bit vector; a count or a
residue is a natural number, with the range of R40 as an invariant (Safety.lean; log entry 12, DEDUCED). -/
structure Engine where
  state : Phase
  cmd   : Word
  w     : BitVec 16
  h     : BitVec 16
  len   : Word
  k     : Nat
  chs   : List Channel
  nc    : Nat
  cap   : Nat
  need  : Nat
  i     : Nat
  t     : Nat
  acc   : Byte
  nb    : Nat
  seed  : Word
  M     : Nat
  m     : Nat
  a     : Nat
  c     : Nat
  x     : Nat
  g     : Nat
  deriving DecidableEq, Repr

/-- Every engine register at its reset value (R40, R46). -/
def Engine.reset : Engine where
  state := .idle
  cmd := 0
  w := 0
  h := 0
  len := 0
  k := 0
  chs := []
  nc := 0
  cap := 0
  need := 0
  i := 0
  t := 0
  acc := 0
  nb := 0
  seed := 0
  M := 0
  m := 0
  a := 0
  c := 0
  x := 0
  g := 0

/-- The size of a host access: 1 or 4 bytes (R70). -/
inductive Size where
  | byte
  | word
  deriving DecidableEq, Repr

/-- A host bus access with its 23-bit block-relative byte address (R4, R70). -/
inductive Access where
  | read (addr : BitVec 23) (n : Size)
  | write (addr : BitVec 23) (n : Size) (v : Word)
  deriving DecidableEq, Repr

/-- What the bus answers (R70, R72): to a read OK with its data, to a write OK alone (`ack`), or ERROR, which reads 0.
R70 gives the OK response to a write no data, so the model has none there (log entry 3). -/
inductive Response where
  | ok (data : Word)
  | ack
  | error
  deriving DecidableEq, Repr

/-- One statement of the host: a bus access, or the pseudo-instruction WAIT of R103. -/
inductive HostOp where
  | access (a : Access)
  | wait
  deriving DecidableEq, Repr

/-- Which agent moves, or what the reset pin does (R41, R270, R271). A list of turns fixes one interleaving; claims
range over every list (R41: "The two agents interleave in any order"). -/
inductive Turn where
  | engine
  | host
  | assertRst
  | releaseRst
  deriving DecidableEq, Repr

/-- The state. `cfg` to `msg` are the six parts of R20 (the output `irq` is computed, R45); `rst` is the level of the
reset input (R4). `host`, `sched` and `resp` are the model's own (log entries 2, 3): the statements the host has still to
make, the interleaving, and the bus response to the host's latest access. -/
structure State where
  cfg   : Config
  regs  : Regs
  eng   : Engine
  pix   : Memory
  msg   : Memory
  rst   : Bool
  host  : List HostOp
  sched : List Turn
  resp  : Option Response
  deriving DecidableEq, Repr

/-- The state after a power-on reset of an instance whose memories power up with the given contents (R46, R64). -/
def State.powerOn (cfg : Config) (pix msg : Memory) : State where
  cfg := cfg
  regs := Regs.reset
  eng := Engine.reset
  pix := pix
  msg := msg
  rst := false
  host := []
  sched := []
  resp := none

/-- The reference instance right after reset, no byte of either memory written yet (R46). -/
def State.reset : State := State.powerOn Config.reference [] []

/-- Why a step stops. None of these is an error the spec gives the block (those are completions, R230, and bus
responses, R72): each is raised only in a state that breaks the invariant `Inv` of Safety.lean, where the spec's
pseudocode gives no step (log entry 7, DEDUCED). All are safe: the model stops where it could go on. -/
inductive Fault where
  /-- Raised by every meaning in an `E.state` the command does not have (R42), which no run reaches. Safe. -/
  | phaseMismatch (p : Phase)
  /-- Raised by ENCODE EMBED and DECODE SCAN when the slot's pixel index is not below PIX_WORDS_MAX (R62). Safe. -/
  | pixIndexOutOfRange (p : Nat)
  /-- Raised by ENCODE VALIDATE, ENCODE EMBED and DECODE DECODE_CODE when the byte index is not below MSG_BYTES_MAX
  (R63). Safe. -/
  | msgIndexOutOfRange (i : Nat)
  /-- Raised by ENCODE EMBED and DECODE SCAN when a slot number names no designated channel (R154, R202). Safe. -/
  | noDesignatedChannel (slot : Nat)
  /-- Raised by ENCODE EMBED when the symbol has no code, which R175 says cannot happen. Safe. -/
  | unmappedSymbol (i : Nat)
  deriving DecidableEq, Repr

/-- Why a step has no meaning. -/
inductive Refusal where
  /-- Raised by `exec` for a command without a meaning; no command of this model. Safe. -/
  | notModelled (mnemonic : String)
  deriving DecidableEq, Repr

/-- What a meaning answers. -/
abbrev Result := Host.Outcome State Fault Refusal

end Sys2Proof.Machine
end

