-- ==== Sys2Proof/Machine/Flags.lean ====
section
/-! DEFINITION. STATUS and its fields: BUSY, DONE, OVERRUN and ERR, what a host write of STATUS changes, and the
interrupt output (spec 10_state.md R26 to R31, R45; 60_exceptions.md R230, R238). -/

namespace Sys2Proof.Machine

/-- STATUS.BUSY "equals `E.state != IDLE`" (R28). -/
def State.busy (s : State) : Bool := s.eng.state != .idle

/-- The number of a result code in STATUS.ERR (R230). -/
def ErrCode.code : ErrCode → BitVec 4
  | .ok => 0
  | .unsupportedCharacter => 1
  | .capacityExceeded => 2
  | .invalidCode => 3
  | .noPayloadFound => 4
  | .invalidBuffer => 5
  | .msgLength => 6
  | .illegalCommand => 7

/-- STATUS as the host reads it (R27): ERR in 7:4, OVERRUN in 2, DONE in 1, BUSY in 0, the rest 0. -/
def State.statusWord (s : State) : Word :=
  0#24 ++ s.regs.err.code ++ 0#1 ++ BitVec.ofBool s.regs.overrun ++ BitVec.ofBool s.regs.done ++ BitVec.ofBool s.busy

/-- CTRL as the host reads it (R26). -/
def State.ctrlWord (s : State) : Word := 0#31 ++ BitVec.ofBool s.regs.irqEn

/-- A host write of STATUS: a written 1 clears DONE (bit 1) or OVERRUN (bit 2), nothing else changes (R27). -/
def State.writeStatus (v : Word) (s : State) : State :=
  { s with regs := { s.regs with
      done := s.regs.done && !v.getLsbD 1
      overrun := s.regs.overrun && !v.getLsbD 2 } }

/-- A host write of CTRL sets IRQ_EN to bit 0 (R26). -/
def State.writeCtrl (v : Word) (s : State) : State :=
  { s with regs := { s.regs with irqEn := v.getLsbD 0 } }

/-- The output `irq = STATUS.DONE AND CTRL.IRQ_EN` (R45, R238). -/
def State.irq (s : State) : Bool := s.regs.done && s.regs.irqEn

end Sys2Proof.Machine
end

