-- ==== Sys2Proof/Machine/Ops.lean ====
section
/-! DEFINITION. The shared operations: bytes and words of a memory, the pixel word and its channels, the accesses of
the engine, acceptance of a command, its completion (the block's one analogue of taking an exception, spec
60_exceptions.md R232, R236) and the completions every command shares. -/

namespace Sys2Proof.Machine

/-- The byte at an address. -/
def Memory.read (m : Memory) (a : Nat) : Byte :=
  match m with
  | [] => unlistedByte
  | (k, v) :: rest => if k = a then v else Memory.read rest a

/-- Store a byte, keeping the canonical form: storing what an unlisted address reads as leaves the address unlisted. -/
def Memory.write (m : Memory) (a : Nat) (v : Byte) : Memory :=
  match m with
  | [] => if v = unlistedByte then [] else [(a, v)]
  | (k, u) :: rest =>
    if a < k then (if v = unlistedByte then (k, u) :: rest else (a, v) :: (k, u) :: rest)
    else if a = k then (if v = unlistedByte then rest else (a, v) :: rest)
    else (k, u) :: Memory.write rest a v

/-- The canonical form: addresses strictly rising, no listed byte equal to what an unlisted address reads as. -/
abbrev Memory.wf (m : Memory) : Prop :=
  m.Pairwise (fun x y => x.1 < y.1) ∧ ∀ c ∈ m, c.2 ≠ unlistedByte

/-- The memory lists no address at or above `n`. -/
abbrev Memory.Below (m : Memory) (n : Nat) : Prop := ∀ c ∈ m, c.1 < n

/-- Byte `j` of a word, `w[8j+7:8j]` (R73). -/
def byteOf (w : Word) (j : Nat) : Byte := w.extractLsb' (8 * j) 8

/-- A word put together from its bytes, the first the least significant (R73). -/
def wordOf (b0 b1 b2 b3 : Byte) : Word := b3 ++ b2 ++ b1 ++ b0

/-- The little-endian word at `a` (R73). -/
def Memory.readWord (m : Memory) (a : Nat) : Word :=
  wordOf (Memory.read m a) (Memory.read m (a + 1)) (Memory.read m (a + 2)) (Memory.read m (a + 3))

/-- Store a little-endian word at `a` (R73). -/
def Memory.writeWord (m : Memory) (a : Nat) (w : Word) : Memory :=
  Memory.write (Memory.write (Memory.write (Memory.write m a (byteOf w 0)) (a + 1) (byteOf w 1))
    (a + 2) (byteOf w 2)) (a + 3) (byteOf w 3)

/-- `chan(w, ch)` (R12). -/
def chan (w : Word) (ch : Channel) : Byte := byteOf w ch.bitOf

/-- `setchan(w, ch, v)`: the channel's byte replaced, all other bits unchanged (R12). -/
def setchan (w : Word) (ch : Channel) (v : Byte) : Word :=
  match ch with
  | .b => wordOf v (byteOf w 1) (byteOf w 2) (byteOf w 3)
  | .g => wordOf (byteOf w 0) v (byteOf w 2) (byteOf w 3)
  | .r => wordOf (byteOf w 0) (byteOf w 1) v (byteOf w 3)
  | .a => wordOf (byteOf w 0) (byteOf w 1) (byteOf w 2) v

/-- Where PIXMEM keeps the byte of a channel of pixel `p`: word `p` takes bytes `4p` to `4p+3` (R69), blue first.
DESIGN CHOICE (log entry 4, safe): no byte order of PIXMEM is visible (R74). -/
def pixByteAddr (p : Nat) (ch : Channel) : Nat := 4 * p + ch.bitOf

/-- `PixRead(p)` (R62). -/
def State.pixRead (s : State) (p : Nat) : Word := Memory.readWord s.pix (4 * p)

/-- `PixWrite(p, v)` (R62, R66). -/
def State.pixWrite (p : Nat) (v : Word) (s : State) : State :=
  { s with pix := Memory.writeWord s.pix (4 * p) v }

/-- The pixel index of column `x` and row `y` of a buffer of width `w`: row-major raster order (R65). -/
def pixIndex (w x y : Nat) : Nat := y * w + x

/-- The source's accessor `getChannelValue(x, y)`: the whole 32-bit word `PixRead(y*W + x)` (R65). -/
def State.getChannelValue (s : State) (x y : Nat) : Word := s.pixRead (pixIndex s.regs.width.toNat x y)

/-- The source's accessor `setChannelValue(x, y, value)`: `PixWrite(y*W + x, value)` of a whole 32-bit word (R65). -/
def State.setChannelValue (x y : Nat) (v : Word) (s : State) : State :=
  s.pixWrite (pixIndex s.regs.width.toNat x y) v

/-- `MsgRead(i)` (R63). -/
def State.msgRead (s : State) (i : Nat) : Byte := Memory.read s.msg i

/-- `MsgWrite(i, b)` (R63). -/
def State.msgWrite (i : Nat) (b : Byte) (s : State) : State :=
  { s with msg := Memory.write s.msg i b }

/-- A natural number in a 32-bit register. -/
def natWord (n : Nat) : Word := BitVec.ofNat 32 n

/-- A CMD write while BUSY = 0 accepts the command (R32). BUSY is `E.state != IDLE` (R28). -/
def State.accept (w : Word) (s : State) : State :=
  { s with
    regs := { s.regs with cmd := w, done := false }
    eng := { s.eng with cmd := w, state := .check } }

/-- `complete(err, idx, val)` (R232). BUSY is `E.state != IDLE` (R28). -/
def State.complete (err : ErrCode) (idx val : Word) (s : State) : State :=
  { s with
    regs := { s.regs with err := err, errIndex := idx, errValue := val, done := true }
    eng := { s.eng with state := .idle } }

/-- `R(RESULT) <- v`. -/
def State.setResult (v : Word) (s : State) : State :=
  { s with regs := { s.regs with result := v } }

/-- `R(CAPACITY) <- v`. -/
def State.setCapacity (v : Word) (s : State) : State :=
  { s with regs := { s.regs with capacity := v } }

/-- `R(MSG_LEN) <- v`, as DECODE writes it (R35). -/
def State.setMsgLen (v : Word) (s : State) : State :=
  { s with regs := { s.regs with msgLen := v } }

/-- `if E.cmd[4] = 1 then R(SEED) <- PixRead(0)` (R39). -/
def State.recordSeed (trav : Trav) (s : State) : State :=
  match trav with
  | .seq => s
  | .scat => { s with regs := { s.regs with seed := s.pixRead 0 } }

/-- `E.state <- p`. -/
def State.toPhase (p : Phase) (s : State) : State :=
  { s with eng := { s.eng with state := p } }

/-- The completion of an illegal word (R231). -/
def State.illegalCompletion (w : Word) (s : State) : State :=
  (s.setResult 0).complete .illegalCommand 0 w

/-- The completion of a command whose buffer check fails (R152); `clearsLen` is set for DECODE. -/
def State.invalidBuffer (clearsLen : Bool) (s : State) : State :=
  let s := (s.setResult 0).setCapacity 0
  let s := if clearsLen then s.setMsgLen 0 else s
  s.complete .invalidBuffer 0 (s.eng.h ++ s.eng.w)

/-- The step of an illegal word: its completion in CHECK (R231); no other phase exists for it. -/
def illegalStep (s : State) : Result :=
  match s.eng.state with
  | .check => .next (s.illegalCompletion s.eng.cmd)
  | p => .fault (.phaseMismatch p)

end Sys2Proof.Machine
end

