-- ==== Sys2Proof/Machine/Operands.lean ====
section
/-! DEFINITION. What a command works on: the alphabet's two lookups and its code width (spec 00_scope.md R5, R6;
40_alphabet.md R120), the buffer check and the capacity (41_lsb_engine.md R152, R153), the channel slots and the two
traversals (R154, R155; 42_scatter.md R201 to R205), the payload bits (R156) and the embedding policies (R157 to R159). -/

namespace Sys2Proof.Machine

/-- `ceil(log2(x))`: the least `e` with `2^e >= x` (R10). -/
def ceilLog2 (x : Nat) : Nat := if x ≤ 1 then 0 else Nat.log2 (x - 1) + 1

/-- `ALPHABET(s)` (R120). -/
def codeOf (c : Config) (s : Byte) : Option Nat :=
  (c.alphabet.find? fun p => p.1 == s).map Prod.snd

/-- `ALPHABET_INV(n)` (R120). -/
def symbolOf (c : Config) (n : Nat) : Option Byte :=
  (c.alphabet.find? fun p => p.2 == n).map Prod.fst

/-- `N`, the largest code (R5). -/
def maxCode (c : Config) : Nat := c.alphabet.foldl (fun n p => max n p.2) 0

/-- `K`, the least integer `K >= 1` with `2^K >= N+1` (R6). -/
def codeWidth (c : Config) : Nat := max 1 (ceilLog2 (maxCode c + 1))

/-- `buffer_ok(W, H)`, the product exact (R152). -/
def bufferOk (c : Config) (w h : Nat) : Bool := 1 ≤ w && 1 ≤ h && w * h ≤ c.pixWordsMax

/-- `capacity(trav, W, H, nc)` (R153). -/
def capacityBits (trav : Trav) (w h nc : Nat) : Nat :=
  match trav with
  | .seq => w * h * nc
  | .scat => (w * h - 1) * nc

/-- A physical channel slot (R154). -/
structure Slot where
  p  : Nat
  ch : Channel
  deriving DecidableEq, Repr

/-- `seqslot(t)` (R154); none where the channel list has no such entry. -/
def seqSlot (nc : Nat) (chs : List Channel) (t : Nat) : Option Slot :=
  (chs[t % nc]?).map fun ch => ⟨t / nc, ch⟩

/-- `scatslot(s)`: pixel 0 is excluded (R202); none where the channel list has no such entry. -/
def scatSlot (nc : Nat) (chs : List Channel) (n : Nat) : Option Slot :=
  (chs[n % nc]?).map fun ch => ⟨1 + n / nc, ch⟩

/-- The modulus exponent `m` for `M` slots (R203). -/
def genExponent (M : Nat) : Nat := if M ≤ 1 then 0 else ceilLog2 M

/-- The multiplier `a` (R203). -/
def genMul (m : Nat) : Nat := 1664525 % 2 ^ m

/-- The increment `c` (R203). -/
def genInc (seed : Word) (m : Nat) : Nat := (2 * (seed.extractLsb' 16 16).toNat + 1) % 2 ^ m

/-- The start value `x_0` (R203). -/
def genStart (seed : Word) (m : Nat) : Nat := seed.toNat % 2 ^ m

/-- `x_(n+1)` from `x_n` (R203). -/
def genNext (a c m x : Nat) : Nat := (a * x + c) % 2 ^ m

/-- `trav_init_scat()` (R204). -/
def scatInit (seed : Word) (e : Engine) : Engine :=
  let M := (e.w.toNat * e.h.toNat - 1) * e.nc
  let m := genExponent M
  { e with
    seed := seed
    M := M
    m := m
    a := genMul m
    c := genInc seed m
    x := genStart seed m
    g := 0 }

/-- `trav_init()` (R155, R204). -/
def travInit (trav : Trav) (s : State) : State :=
  match trav with
  | .seq => s
  | .scat => { s with eng := scatInit (s.pixRead 0) s.eng }

/-- What `trav_next()` returns (R155), with the number of the slot it tried. -/
inductive Visit where
  | slot (sl : Slot)
  | skip
  | noChannel (n : Nat)
  deriving DecidableEq, Repr

/-- The generator's part of one draw (R205). -/
def draw (e : Engine) : Engine := { e with x := genNext e.a e.c e.m e.x, g := e.g + 1 }

/-- `trav_next()`: the slot visited now (R155, R205). `noChannel` is the model's: the slot number
names no entry of `E.chs` (only in states no run reaches). -/
def travVisit (trav : Trav) (e : Engine) : Visit :=
  match trav with
  | .seq =>
    match seqSlot e.nc e.chs e.t with
    | some sl => .slot sl
    | none => .noChannel e.t
  | .scat =>
    if e.x < e.M then
      match scatSlot e.nc e.chs e.x with
      | some sl => .slot sl
      | none => .noChannel e.x
    else .skip

/-- `trav_next()`: what the call leaves in the engine (R155, R205). -/
def travAdvance (trav : Trav) (e : Engine) : Engine :=
  match trav with
  | .seq => e
  | .scat => draw e

/-- `repl(v, b)` (R157). -/
def repl (v : Byte) (b : Bool) : Byte := (v &&& 0xFE) ||| BitVec.ofNat 8 b.toNat

/-- `match_(v, b)` (R158). -/
def lsbMatch (v : Byte) (b : Bool) : Byte :=
  if v.getLsbD 0 = b then v else if v = 0 then 1 else v - 1

/-- `embed(v, b, e)` (R159). -/
def embedBit (e : Embed) (v : Byte) (b : Bool) : Byte :=
  match e with
  | .repl => repl v b
  | .matching => lsbMatch v b

/-- Bit `j` of a code's `k` bits, most significant first: `E.acc[E.k - 1 - j]` (R156, R175). -/
def codeBit (k : Nat) (acc : Byte) (j : Nat) : Bool := acc.getLsbD (k - 1 - j)

/-- `({acc, b}) mod 2^k` (R183). -/
def shiftIn (k : Nat) (acc : Byte) (b : Bool) : Byte :=
  BitVec.ofNat 8 ((2 * acc.toNat + b.toNat) % 2 ^ k)

/-- The operand capture of the CHECK step (R150). -/
def captureOperands (chs : List Channel) (s : State) : State :=
  { s with eng := { s.eng with
      w := s.regs.width
      h := s.regs.height
      len := s.regs.msgLen
      k := codeWidth s.cfg
      chs := chs
      nc := chs.length
      i := 0
      t := 0
      g := 0
      acc := 0
      nb := 0 } }

/-- `E.cap <- capacity(...)` (R150). -/
def setCap (trav : Trav) (s : State) : State :=
  { s with eng := { s.eng with cap := capacityBits trav s.eng.w.toNat s.eng.h.toNat s.eng.nc } }

/-- The state in which a CAPACITY, ENCODE or DECODE command enters its CHECK tail (R150); none where the buffer check
fails (R152). -/
def checkTail (trav : Trav) (chs : List Channel) (s : State) : Option State :=
  let s := captureOperands chs s
  if bufferOk s.cfg s.eng.w.toNat s.eng.h.toNat then some (setCap trav s) else none

end Sys2Proof.Machine
end

