-- ==== Sys2Proof/Machine/Bus.lean ====
section
/-! DEFINITION. The host bus: the register map and its reads and writes (spec 10_state.md R22 to R39, R44), the
address map, access widths and bus errors (20_memory.md R69 to R77), and the BUSY lockout (70_reset_and_hazards.md
R280). -/

namespace Sys2Proof.Machine

/-- The host-visible registers (R22). -/
inductive RegName where
  | id
  | alphaInfo
  | ctrl
  | status
  | cmd
  | width
  | height
  | msgLen
  | capacity
  | result
  | errIndex
  | errValue
  | seed
  deriving DecidableEq, Repr

/-- The offset of a register (R22). -/
def RegName.offset : RegName → Nat
  | .id => 0x000
  | .alphaInfo => 0x004
  | .ctrl => 0x008
  | .status => 0x00C
  | .cmd => 0x010
  | .width => 0x014
  | .height => 0x018
  | .msgLen => 0x01C
  | .capacity => 0x020
  | .result => 0x024
  | .errIndex => 0x028
  | .errValue => 0x02C
  | .seed => 0x030

/-- Every register of the map, by rising offset (R22). -/
def regMap : List RegName :=
  [.id, .alphaInfo, .ctrl, .status, .cmd, .width, .height, .msgLen, .capacity, .result, .errIndex, .errValue, .seed]

/-- The register at an offset; none for a reserved or misaligned one (R22, R72). -/
def regAt (off : Nat) : Option RegName := regMap.find? fun r => r.offset == off

/-- ALPHA_INFO: `{16'b0, N[7:0], 4'b0, K[3:0]}` (R25). -/
def alphaInfoWord (c : Config) : Word :=
  0#16 ++ BitVec.ofNat 8 (maxCode c) ++ 0#4 ++ BitVec.ofNat 4 (codeWidth c)

/-- `R(NAME)`: a register as the host reads it (R22 to R39). Reads have no side effect (R75). -/
def State.readReg (s : State) : RegName → Word
  | .id => 0x4C534231
  | .alphaInfo => alphaInfoWord s.cfg
  | .ctrl => s.ctrlWord
  | .status => s.statusWord
  | .cmd => s.regs.cmd
  | .width => s.regs.width.setWidth 32
  | .height => s.regs.height.setWidth 32
  | .msgLen => s.regs.msgLen
  | .capacity => s.regs.capacity
  | .result => s.regs.result
  | .errIndex => s.regs.errIndex
  | .errValue => s.regs.errValue
  | .seed => s.regs.seed

/-- A write dropped because BUSY = 1 sets OVERRUN and nothing else (R30, R280). -/
def State.dropWrite (s : State) : State :=
  { s with regs := { s.regs with overrun := true } }

/-- A host write of a register (R22): CMD issues a command (R32), STATUS and CTRL are written at any time (R26, R27),
WIDTH, HEIGHT and MSG_LEN only while BUSY = 0 (R33 to R35, R280), a read-only register ignores it (R44). -/
def State.writeReg (r : RegName) (v : Word) (s : State) : State :=
  match r with
  | .ctrl => s.writeCtrl v
  | .status => s.writeStatus v
  | .cmd => if s.busy then s.dropWrite else s.accept v
  | .width => if s.busy then s.dropWrite else { s with regs := { s.regs with width := v.extractLsb' 0 16 } }
  | .height => if s.busy then s.dropWrite else { s with regs := { s.regs with height := v.extractLsb' 0 16 } }
  | .msgLen => if s.busy then s.dropWrite else { s with regs := { s.regs with msgLen := v } }
  | .id | .alphaInfo | .capacity | .result | .errIndex | .errValue | .seed => s

/-- The regions of the address map (R69); an offset counts from the region's base. -/
inductive Region where
  | regs (off : Nat)
  | msg (i : Nat)
  | pix (off : Nat)
  | unmapped
  deriving DecidableEq, Repr

/-- Where MSGMEM begins (R69). -/
def msgBase : Nat := 0x100000

/-- Where PIXMEM begins (R69). -/
def pixBase : Nat := 0x400000

/-- The region of a block-relative address (R69). -/
def regionOf (c : Config) (addr : Nat) : Region :=
  if addr < 0x1000 then .regs addr
  else if msgBase ≤ addr ∧ addr < msgBase + c.msgBytesMax then .msg (addr - msgBase)
  else if pixBase ≤ addr ∧ addr < pixBase + 4 * c.pixWordsMax then .pix (addr - pixBase)
  else .unmapped

/-- What a legal access reaches. -/
inductive Target where
  | reg (r : RegName)
  | msgByte (i : Nat)
  | msgWord (i : Nat)
  | pixWord (p : Nat)
  deriving DecidableEq, Repr

/-- What an access of this size at this address reaches, or none for a bus error: a reserved offset, an unmapped
address, a wrong width or alignment (R71, R72). `addr` and the offset in a region agree modulo 4, the bases being
multiples of 4. -/
def targetOf (c : Config) (addr : Nat) (n : Size) : Option Target :=
  match regionOf c addr, n with
  | .regs off, .word => (regAt off).map .reg
  | .regs _, .byte => none
  | .msg i, .byte => some (.msgByte i)
  | .msg i, .word => if i % 4 = 0 ∧ i + 3 < c.msgBytesMax then some (.msgWord i) else none
  | .pix off, .word => if off % 4 = 0 then some (.pixWord (off / 4)) else none
  | .pix _, .byte => none
  | .unmapped, _ => none

/-- The access is refused by the reset pin (R271), or reaches a memory while BUSY = 1 (R72 c, R77). -/
def State.lockedOut (s : State) : Target → Bool
  | .reg _ => s.rst
  | .msgByte _ => s.rst || s.busy
  | .msgWord _ => s.rst || s.busy
  | .pixWord _ => s.rst || s.busy

/-- What an access that gets an OK response reaches (R71, R72, R77, R271). -/
def State.grant (s : State) (addr : BitVec 23) (n : Size) : Option Target :=
  (targetOf s.cfg addr.toNat n).filter fun t => !s.lockedOut t

/-- The data of a granted read, zero-extended (R70, R73). -/
def State.readTarget (s : State) : Target → Word
  | .reg r => s.readReg r
  | .msgByte i => (s.msgRead i).setWidth 32
  | .msgWord i => Memory.readWord s.msg i
  | .pixWord p => s.pixRead p

/-- A granted write of the low bits of `v` (R70, R73). -/
def State.writeTarget (v : Word) (s : State) : Target → State
  | .reg r => s.writeReg r v
  | .msgByte i => s.msgWrite i (byteOf v 0)
  | .msgWord i => { s with msg := Memory.writeWord s.msg i v }
  | .pixWord p => s.pixWrite p v

/-- The bus response to an access: `MemRead`, OK with the data or ERROR, and `MemWrite`, OK or ERROR and no data
(R70). -/
def State.respond (s : State) : Access → Response
  | .read addr n =>
    match s.grant addr n with
    | some t => .ok (s.readTarget t)
    | none => .error
  | .write addr n _ =>
    match s.grant addr n with
    | some _ => .ack
    | none => .error

/-- What an access changes in the block: nothing for a read (R75) or a bus error (R72). -/
def State.perform (s : State) : Access → State
  | .read _ _ => s
  | .write addr n v =>
    match s.grant addr n with
    | some t => s.writeTarget v t
    | none => s

/-- One host access as one atomic step: its effect, and its response on the port (R70, R76). -/
def State.hostAccess (a : Access) (s : State) : State :=
  { s.perform a with resp := some (s.respond a) }

/-- The address of a register on the port (R22, R103). -/
def RegName.addr (r : RegName) : BitVec 23 := BitVec.ofNat 23 r.offset

/-- The data of a response: an ERROR reads 0 (R72); the OK response to a write has none (R70). -/
def Response.data : Response → Option Word
  | .ok d => some d
  | .ack => none
  | .error => some 0

end Sys2Proof.Machine
end

