-- ==== Sys2Proof/Machine/Basic.lean ====
section
/-! DEFINITION. The meanings of NOP and CAPACITY (spec 41_lsb_engine.md R160, R161). Both complete in CHECK. -/

namespace Sys2Proof.Machine

/-- NOP (R160). -/
def execNop (s : State) : Result :=
  match s.eng.state with
  | .check => .next (s.complete .ok 0 0)
  | p => .fault (.phaseMismatch p)

/-- The CHECK tail of CAPACITY (R161). -/
def capacityDone (trav : Trav) (s : State) : State :=
  (((s.setResult (natWord s.eng.cap)).setCapacity (natWord s.eng.cap)).recordSeed trav).complete .ok 0 0

/-- CAPACITY (R150, R161). -/
def execCapacity (trav : Trav) (chs : List Channel) (s : State) : Result :=
  match s.eng.state with
  | .check =>
    match checkTail trav chs s with
    | some s' => .next (capacityDone trav s')
    | none => .next ((captureOperands chs s).invalidBuffer false)
  | p => .fault (.phaseMismatch p)

end Sys2Proof.Machine
end

