-- ==== Sys2Proof/Machine/Encode.lean ====
section
/-! DEFINITION. The meaning of ENCODE, one engine step per `exec` (spec 41_lsb_engine.md R170 to R177). -/

namespace Sys2Proof.Machine

/-- `enc_finish(err, idx, val)` (R170). -/
def encFinish (trav : Trav) (err : ErrCode) (idx val : Word) (s : State) : State :=
  (((s.setResult (if err = .ok then natWord s.eng.need else 0)).setCapacity (natWord s.eng.cap)).recordSeed
    trav).complete err idx val

/-- The CHECK tail of ENCODE (R171). -/
def encCheck (trav : Trav) (s : State) : State :=
  if s.cfg.msgBytesMax < s.eng.len.toNat then encFinish trav .msgLength 0 s.eng.len s
  else if s.eng.len = 0 then s.toPhase .capchk
  else s.toPhase .validate

/-- VALIDATE after a symbol of the alphabet (R172). -/
def encSymbolOk (s : State) : State :=
  let s := { s with eng := { s.eng with i := s.eng.i + 1 } }
  if s.eng.i = s.eng.len.toNat then s.toPhase .capchk else s

/-- VALIDATE (R172). -/
def encValidate (trav : Trav) (s : State) : Result :=
  if s.eng.i < s.cfg.msgBytesMax then
    match codeOf s.cfg (s.msgRead s.eng.i) with
    | none =>
      .next (encFinish trav .unsupportedCharacter (natWord s.eng.i) ((s.msgRead s.eng.i).setWidth 32) s)
    | some _ => .next (encSymbolOk s)
  else .fault (.msgIndexOutOfRange s.eng.i)

/-- CAPCHK (R173). -/
def encCapchk (trav : Trav) (s : State) : State :=
  let s := { s with eng := { s.eng with need := s.eng.k * (s.eng.len.toNat + 1) } }
  if s.eng.cap < s.eng.need then encFinish trav .capacityExceeded 0 (natWord s.eng.need) s
  else s.toPhase .travinit

/-- TRAVINIT (R174). -/
def encTravinit (trav : Trav) (s : State) : State :=
  let s := travInit trav s
  { s with eng := { s.eng with t := 0, i := 0, state := .embed } }

/-- The load of `E.i` and `E.acc` at the start of a code (R175): the code of symbol `E.t div E.k`, or the terminator
after the last symbol. -/
def encLoad (s : State) : Except Fault State :=
  if s.eng.t % s.eng.k = 0 then
    let i := s.eng.t / s.eng.k
    if i < s.eng.len.toNat then
      if i < s.cfg.msgBytesMax then
        match codeOf s.cfg (s.msgRead i) with
        | some c => .ok { s with eng := { s.eng with i := i, acc := BitVec.ofNat 8 c } }
        | none => .error (.unmappedSymbol i)
      else .error (.msgIndexOutOfRange i)
    else .ok { s with eng := { s.eng with i := i, acc := 0 } }
  else .ok s

/-- The read-modify-write of one slot (R66, R175). -/
def embedSlot (embed : Embed) (sl : Slot) (b : Bool) (s : State) : State :=
  let wd := s.pixRead sl.p
  s.pixWrite sl.p (setchan wd sl.ch (embedBit embed (chan wd sl.ch) b))

/-- The payload bit EMBED writes now: `E.acc[E.k - 1 - j]` with `j = E.t mod E.k` (R175). -/
def payloadBit (e : Engine) : Bool := codeBit e.k e.acc (e.t % e.k)

/-- `E.t <- E.t + 1; if E.t = E.need then enc_finish(OK, 0, 0)` (R175). -/
def encCount (trav : Trav) (s : State) : State :=
  let s := { s with eng := { s.eng with t := s.eng.t + 1 } }
  if s.eng.t = s.eng.need then encFinish trav .ok 0 0 s else s

/-- EMBED (R175). -/
def encEmbed (trav : Trav) (embed : Embed) (s : State) : Result :=
  let s' := { s with eng := travAdvance trav s.eng }
  match travVisit trav s.eng with
  | .skip => .next s'
  | .noChannel n => .fault (.noDesignatedChannel n)
  | .slot sl =>
    if sl.p < s.cfg.pixWordsMax then
      match encLoad s' with
      | .ok s'' => .next (encCount trav (embedSlot embed sl (payloadBit s''.eng) s''))
      | .error f => .fault f
    else .fault (.pixIndexOutOfRange sl.p)

/-- ENCODE (R170): the step of its current phase. -/
def execEncode (trav : Trav) (embed : Embed) (chs : List Channel) (s : State) : Result :=
  match s.eng.state with
  | .check =>
    match checkTail trav chs s with
    | some s' => .next (encCheck trav s')
    | none => .next ((captureOperands chs s).invalidBuffer false)
  | .validate => encValidate trav s
  | .capchk => .next (encCapchk trav s)
  | .travinit => .next (encTravinit trav s)
  | .embed => encEmbed trav embed s
  | .idle => .fault (.phaseMismatch .idle)
  | .scan => .fault (.phaseMismatch .scan)
  | .decodeCode => .fault (.phaseMismatch .decodeCode)

end Sys2Proof.Machine
end

