-- ==== Sys2Proof/Machine/Extract.lean ====
section
/-! DEFINITION. The meaning of DECODE, one engine step per `exec` (spec 41_lsb_engine.md R180 to R188). -/

namespace Sys2Proof.Machine

/-- `dec_finish(err, idx, val)` (R181). -/
def decFinish (trav : Trav) (err : ErrCode) (idx val : Word) (s : State) : State :=
  let n := if err = .ok then natWord s.eng.i else 0
  ((((s.setMsgLen n).setResult n).setCapacity (natWord s.eng.cap)).recordSeed trav).complete err idx val

/-- TRAVINIT (R182). -/
def decTravinit (trav : Trav) (s : State) : State :=
  let s := travInit trav s
  { s with eng := { s.eng with t := 0, i := 0, acc := 0, nb := 0, state := .scan } }

/-- The LSB of a slot (R183). -/
def slotBit (sl : Slot) (s : State) : Bool := (chan (s.pixRead sl.p) sl.ch).getLsbD 0

/-- A bit entering the accumulator (R183). -/
def decShift (b : Bool) (s : State) : State :=
  let s := { s with eng := { s.eng with
      acc := shiftIn s.eng.k s.eng.acc b
      nb := s.eng.nb + 1
      t := s.eng.t + 1 } }
  if s.eng.nb = s.eng.k then s.toPhase .decodeCode else s

/-- SCAN (R183, R185). -/
def decScan (trav : Trav) (s : State) : Result :=
  if s.eng.t = s.eng.cap then .next (decFinish trav .noPayloadFound (natWord s.eng.i) 0 s)
  else
    let s' := { s with eng := travAdvance trav s.eng }
    match travVisit trav s.eng with
    | .skip => .next s'
    | .noChannel n => .fault (.noDesignatedChannel n)
    | .slot sl =>
      if sl.p < s.cfg.pixWordsMax then .next (decShift (slotBit sl s) s')
      else .fault (.pixIndexOutOfRange sl.p)

/-- DECODE_CODE (R184, R187). -/
def decCode (trav : Trav) (s : State) : Result :=
  let c := s.eng.acc
  let s := { s with eng := { s.eng with acc := 0, nb := 0 } }
  if c = 0 then .next (decFinish trav .ok 0 0 s)
  else
    match symbolOf s.cfg c.toNat with
    | none => .next (decFinish trav .invalidCode (natWord s.eng.i) (c.setWidth 32) s)
    | some sym =>
      if s.eng.i = s.cfg.msgBytesMax then
        .next (decFinish trav .msgLength (natWord s.eng.i) (c.setWidth 32) s)
      else if s.eng.i < s.cfg.msgBytesMax then
        let s := s.msgWrite s.eng.i sym
        .next { s with eng := { s.eng with i := s.eng.i + 1, state := .scan } }
      else .fault (.msgIndexOutOfRange s.eng.i)

/-- DECODE (R180): the step of its current phase. -/
def execDecode (trav : Trav) (chs : List Channel) (s : State) : Result :=
  match s.eng.state with
  | .check =>
    match checkTail trav chs s with
    | some s' => .next (s'.toPhase .travinit)
    | none => .next ((captureOperands chs s).invalidBuffer true)
  | .travinit => .next (decTravinit trav s)
  | .scan => decScan trav s
  | .decodeCode => decCode trav s
  | .idle => .fault (.phaseMismatch .idle)
  | .validate => .fault (.phaseMismatch .validate)
  | .capchk => .fault (.phaseMismatch .capchk)
  | .embed => .fault (.phaseMismatch .embed)

end Sys2Proof.Machine
end

