-- ==== Sys2Proof/Machine/Mapper.lean ====
section
/-! DEFINITION. The meanings of the alphabet mapper's commands ENC_SYM and DEC_SYM (spec 40_alphabet.md R125, R126).
Both complete in CHECK. -/

namespace Sys2Proof.Machine

/-- ENC_SYM (R125). -/
def execEncSym (sym : Byte) (s : State) : Result :=
  match s.eng.state with
  | .check =>
    match codeOf s.cfg sym with
    | some c => .next ((s.setResult (natWord c)).complete .ok 0 0)
    | none => .next ((s.setResult 0).complete .unsupportedCharacter 0 (sym.setWidth 32))
  | p => .fault (.phaseMismatch p)

/-- DEC_SYM (R126). -/
def execDecSym (code : Byte) (s : State) : Result :=
  match s.eng.state with
  | .check =>
    match symbolOf s.cfg code.toNat with
    | some sym => .next ((s.setResult (sym.setWidth 32)).complete .ok 0 0)
    | none => .next ((s.setResult 0).complete .invalidCode 0 (code.setWidth 32))
  | p => .fault (.phaseMismatch p)

end Sys2Proof.Machine
end

