-- ==== Sys2Proof/Machine/Dispatch.lean ====
section
/-! DEFINITION. One arm per command: the engine step of a running command in its current `E.state` (spec
10_state.md R41, 41_lsb_engine.md R150). -/

namespace Sys2Proof.Machine

-- The one engine step that the command takes now.
def exec (i : Instr) (s : State) : Host.Outcome State Fault Refusal :=
  match i with
  | .nop => Sys2Proof.Machine.execNop s
  | .capacity trav chs => Sys2Proof.Machine.execCapacity trav chs s
  | .encode trav embed chs => Sys2Proof.Machine.execEncode trav embed chs s
  | .decode trav chs => Sys2Proof.Machine.execDecode trav chs s
  | .encSym sym => Sys2Proof.Machine.execEncSym sym s
  | .decSym code => Sys2Proof.Machine.execDecSym code s

end Sys2Proof.Machine
end

