-- ==== Sys2Proof/Machine/Agents.lean ====
section
/-! DEFINITION. The agents and the reset pin: the engine's step, the host's step, asserting and releasing `rst`, and
whose turn it is (spec 10_state.md R41, 20_memory.md R70, R78, 70_reset_and_hazards.md R270 to R272). -/

namespace Sys2Proof.Machine

/-- The one enabled step of a running command: the step of the command that `E.cmd` decodes to, or of an illegal word
(R41, R150, R231). -/
def engineStep (s : State) : Result :=
  match decode s.eng.cmd with
  | .ok i => exec i s
  | .error _ => illegalStep s

/-- The engine's turn: it has no step while IDLE (R41) or while `rst` is asserted (R271). -/
def engineTurn (s : State) : Result := if s.busy && !s.rst then engineStep s else .next s

/-- WAIT reads STATUS and is made again until the data it reads has BUSY = 0 (R103); an ERROR reads 0 (R72; log
entry 3). -/
def waitAgain (s : State) : Bool :=
  (s.respond (.read RegName.status.addr .word)).data.any fun d => d.getLsbD 0

/-- The host's turn: its next statement, one bus access (R70, R103). A host with nothing to do does nothing. -/
def hostTurn (s : State) : State :=
  match s.host with
  | [] => s
  | .access a :: rest => State.hostAccess a { s with host := rest }
  | .wait :: rest =>
    let again := waitAgain s
    State.hostAccess (.read RegName.status.addr .word) { s with host := if again then .wait :: rest else rest }

/-- Asserting `rst`: every register at its reset value, both memories and the parameters unchanged (R46, R270, R272). -/
def assertReset (s : State) : State :=
  { s with regs := Regs.reset, eng := Engine.reset, rst := true }

/-- Releasing `rst` (R271). -/
def releaseReset (s : State) : State := { s with rst := false }

/-- One turn. -/
def takeTurn : Turn → State → Result
  | .engine, s => engineTurn s
  | .host, s => .next (hostTurn s)
  | .assertRst, s => .next (assertReset s)
  | .releaseRst, s => .next (releaseReset s)

/-- The turn taken where the schedule says nothing: the engine while it has a step (R285: it needs only to be scheduled),
else the host. DESIGN CHOICE (log entry 2, safe): claims about interleavings range over every schedule. -/
def defaultTurn (s : State) : Turn := if s.busy && !s.rst then .engine else .host

/-- Whose turn it is. -/
def nextTurn (s : State) : Turn :=
  match s.sched with
  | t :: _ => t
  | [] => defaultTurn s

/-- The state with its schedule's first turn taken away. -/
def popTurn (s : State) : State := { s with sched := s.sched.tail }

/-- One step of the whole system: the agent whose turn it is moves (R41, R78). -/
def agentsStep (s : State) : Result := takeTurn (nextTurn s) (popTurn s)

end Sys2Proof.Machine
end

