-- ==== Sys2Proof/Machine/Step.lean ====
section
/-! DEFINITION. The step of the system and the placing of a command where the next step runs it. -/

namespace Sys2Proof.Machine

/-- One step (R41, R78). -/
def step (s : State) : Host.Outcome State Fault Refusal := agentsStep s

/-- The state in which the command word is accepted and the next turn is the engine's: what a CMD write of the word
leaves in an idle block (R32), whatever the block was doing. The block fetches nothing (R23, R81): a command comes from the
host (log entry 5). -/
def State.withFetchWord (s : State) (nbits w : Nat) : State :=
  { s.accept (BitVec.ofNat 32 (w % 2 ^ nbits)) with rst := false, sched := .engine :: s.sched }

end Sys2Proof.Machine
end

