-- ==== Sys2Proof/Machine/Asm.lean ====
section
/-! DEFINITION. The spelling of commands in host scripts (spec 30_encoding.md R102): a command's mnemonic and operand
spellings, each a list of characters, read into a command and written in the canonical spelling. Where the operands are
separated (commas, blanks) is not part of any rule and is left out. -/

namespace Sys2Proof.Machine

/-- `<trav>`: `seq` or `scat` (R102). -/
def asmTrav (t : List Char) : Option Trav :=
  if t = "seq".toList then some .seq else if t = "scat".toList then some .scat else none

/-- `<embed>`: `repl` or `match` (R102). -/
def asmEmbed (t : List Char) : Option Embed :=
  if t = "repl".toList then some .repl else if t = "match".toList then some .matching else none

/-- A channel letter (R102). -/
def asmLetter : Char → Option Channel
  | 'R' => some .r
  | 'G' => some .g
  | 'B' => some .b
  | 'A' => some .a
  | _ => none

/-- `<ch>`: a set of the letters, "each at most once", in any order, or `none` (R102). -/
def asmChannels (t : List Char) : Option (List Channel) :=
  if t = "none".toList then some []
  else if t = [] then none
  else
    match t.mapM asmLetter with
    | some l => if l.Nodup then some (visitOrder.filter fun ch => decide (ch ∈ l)) else none
    | none => none

/-- A digit of base 10 or 16. -/
def asmDigit (base : Nat) (c : Char) : Option Nat :=
  let n := c.toNat
  let d :=
    if 48 ≤ n ∧ n ≤ 57 then n - 48
    else if 65 ≤ n ∧ n ≤ 70 then n - 55
    else if 97 ≤ n ∧ n ≤ 102 then n - 87
    else 16
  if d < base then some d else none

/-- A non-empty digit string. -/
def asmDigits (base : Nat) (t : List Char) : Option Nat :=
  if t = [] then none
  else t.foldl (fun acc c => acc.bind fun n => (asmDigit base c).map fun d => base * n + d) (some 0)

/-- `<byte>`: a number from 0 to 255, decimal or `0x..`, or a quoted printable ASCII character, which stands for its
ASCII value (R102). -/
def asmByte (t : List Char) : Option Byte :=
  let number (v : Option Nat) : Option Byte := v.bind fun n => if n ≤ 255 then some (BitVec.ofNat 8 n) else none
  match t with
  | ['\'', c, '\''] => if 0x20 ≤ c.toNat ∧ c.toNat ≤ 0x7E then some (BitVec.ofNat 8 c.toNat) else none
  | '0' :: 'x' :: rest => number (asmDigits 16 rest)
  | _ => number (asmDigits 10 t)

/-- A command from its mnemonic and operands (R102). -/
def assemble (mnemonic : List Char) (operands : List (List Char)) : Option Instr :=
  if mnemonic = "NOP".toList then
    match operands with
    | [] => some .nop
    | _ => none
  else if mnemonic = "CAPACITY".toList then
    match operands with
    | [t, c] => (asmTrav t).bind fun t => (asmChannels c).map fun c => .capacity t c
    | _ => none
  else if mnemonic = "ENCODE".toList then
    match operands with
    | [t, e, c] =>
      (asmTrav t).bind fun t => (asmEmbed e).bind fun e => (asmChannels c).map fun c => .encode t e c
    | _ => none
  else if mnemonic = "DECODE".toList then
    match operands with
    | [t, c] => (asmTrav t).bind fun t => (asmChannels c).map fun c => .decode t c
    | _ => none
  else if mnemonic = "ENC_SYM".toList then
    match operands with
    | [b] => (asmByte b).map .encSym
    | _ => none
  else if mnemonic = "DEC_SYM".toList then
    match operands with
    | [b] => (asmByte b).map .decSym
    | _ => none
  else none

/-- The spelling of TRAV (R102). -/
def spellTrav : Trav → List Char
  | .seq => "seq".toList
  | .scat => "scat".toList

/-- The spelling of EMBED (R102). -/
def spellEmbed : Embed → List Char
  | .repl => "repl".toList
  | .matching => "match".toList

/-- The letter of a channel (R102). -/
def spellLetter : Channel → Char
  | .r => 'R'
  | .g => 'G'
  | .b => 'B'
  | .a => 'A'

/-- The spelling of a channel set (R102). -/
def spellChannels (chs : List Channel) : List Char :=
  if chs = [] then "none".toList else chs.map spellLetter

/-- A hexadecimal digit. -/
def spellDigit (n : Nat) : Char := if n < 10 then Char.ofNat (48 + n) else Char.ofNat (55 + n)

/-- A byte as `0x` and two digits (R102). -/
def spellByte (b : Byte) : List Char :=
  ['0', 'x', spellDigit (b.toNat / 16), spellDigit (b.toNat % 16)]

/-- The operand spellings of a command, in the order of R102. -/
def spellOperands : Instr → List (List Char)
  | .nop => []
  | .capacity t c => [spellTrav t, spellChannels c]
  | .encode t e c => [spellTrav t, spellEmbed e, spellChannels c]
  | .decode t c => [spellTrav t, spellChannels c]
  | .encSym s => [spellByte s]
  | .decSym s => [spellByte s]

end Sys2Proof.Machine
end

