-- ==== Sys2Proof/Machine/Script.lean ====
section
/-! DEFINITION. The statements and pseudo-instructions of host scripts and what each expands to (spec 30_encoding.md
R103, 60_exceptions.md R243): the host's way of driving the block. A script is put in State's `host` field by
`State.withScript`. -/

namespace Sys2Proof.Machine

/-- A register or an address operand (R103: "`<reg or addr>`"). -/
inductive Place where
  | reg (r : RegName)
  | addr (a : BitVec 23)
  deriving DecidableEq, Repr

/-- The block-relative address of a place: a register name stands for the offset of R22 (R103). -/
def Place.address : Place → BitVec 23
  | .reg r => r.addr
  | .addr a => a

/-- The address of a place on the platform's bus, from the base BLOCK_BASE, which is open (R243). The platform takes the
base off again, so the block sees `Place.address` (R60). -/
def Place.platformAddress (p : Place) : Nat := Config.blockBase + p.address.toNat

/-- The statements of a host script (R103). -/
inductive Stmt where
  | wr (p : Place) (v : Word)
  | wrb (a : BitVec 23) (v : Byte)
  | rd (p : Place)
  | rdb (a : BitVec 23)
  | cmd (i : Instr)
  | wait
  | run (i : Instr)
  | loadmsg (text : List Byte)
  | loadpix (p : Nat) (v : Word)
  deriving DecidableEq, Repr

/-- `WR p, v` (R103). -/
def hostWr (a : BitVec 23) (v : Word) : HostOp := .access (.write a .word v)

/-- `CMD i` (R103). -/
def hostCmd (i : Instr) : HostOp := hostWr RegName.cmd.addr (encode i)

/-- `WRB a + k, text[k]` for each byte of a text (R103). DESIGN CHOICE (log entry 16, unsafe for such texts): an address
past the 23-bit port, which R4 and R103 give no meaning, is taken modulo `2^23`. -/
def hostBytes (a : Nat) : List Byte → List HostOp
  | [] => []
  | b :: rest => .access (.write (BitVec.ofNat 23 a) .byte (b.setWidth 32)) :: hostBytes (a + 1) rest

/-- The expansion of a statement into host operations (R103). DESIGN CHOICE (log entry 16, unsafe for such operands): the
address of a LOADPIX of a pixel `p >= 2^20`, or of a LOADMSG byte past 0x7FFFFF, does not fit the 23-bit port of R4, and the
spec says nothing of it; the model takes it modulo `2^23`. -/
def Stmt.expand : Stmt → List HostOp
  | .wr p v => [hostWr p.address v]
  | .wrb a v => [.access (.write a .byte (v.setWidth 32))]
  | .rd p => [.access (.read p.address .word)]
  | .rdb a => [.access (.read a .byte)]
  | .cmd i => [hostCmd i]
  | .wait => [.wait]
  | .run i => [hostCmd i, .wait]
  | .loadmsg text => hostBytes msgBase text ++ [hostWr RegName.msgLen.addr (natWord text.length)]
  | .loadpix p v => [hostWr (BitVec.ofNat 23 (pixBase + 4 * p)) v]

/-- A script's operations, in order. -/
def expandScript (script : List Stmt) : List HostOp := script.flatMap Stmt.expand

/-- The state in which the host has a script to carry out after what it already has. -/
def State.withScript (script : List Stmt) (s : State) : State :=
  { s with host := s.host ++ expandScript script }

end Sys2Proof.Machine
end

