-- ==== Sys2Proof/Safety.lean ====
section
/-! DEFINITION. The terms claims use: runs of steps, the invariant of every run, the ranges of the engine registers
(spec 10_state.md R40), what a command's outcome is made of (R41), and how a command is issued. -/

namespace Sys2Proof.Machine

/-- `n` steps, stopping at the first fault or refusal. -/
def runSteps : Nat → State → Result
  | 0, s => .next s
  | n + 1, s =>
    match step s with
    | .next s' => runSteps n s'
    | .fault f => .fault f
    | .refused r => .refused r

/-- No command is running (R42). -/
@[simp] abbrev State.Idle (s : State) : Prop := s.eng.state = .idle

/-- The host has nothing to do, `rst` is released and no interleaving is asked for: only the engine moves. -/
abbrev State.Quiet (s : State) : Prop := s.rst = false ∧ s.host = [] ∧ s.sched = []

/-- The command completes in exactly `n` steps, in `t`: `E.state` is IDLE after `n` steps and not before (R285). -/
abbrev CompletesIn (n : Nat) (s t : State) : Prop :=
  runSteps n s = .next t ∧ t.Idle ∧ ∀ m < n, ∃ u, runSteps m s = .next u ∧ ¬ u.Idle

/-- The state after the acceptance of a command (R32). -/
abbrev State.issue (i : Instr) (s : State) : State := s.accept (encode i)

/-- `W` and `H` as numbers. -/
abbrev State.W (s : State) : Nat := s.regs.width.toNat
@[inherit_doc State.W]
abbrev State.H (s : State) : Nat := s.regs.height.toNat

/-- `L`, the message length MSG_LEN holds (R35). -/
abbrev State.L (s : State) : Nat := s.regs.msgLen.toNat

/-- Every byte of a memory reads as before. -/
abbrev SameBytes (m m' : Memory) : Prop := ∀ a, Memory.read m' a = Memory.read m a

/-- Symbols `0` to `n - 1` of MSGMEM have codes; with `n = L` the message is valid (R124). -/
abbrev MappedBelow (s : State) (n : Nat) : Prop := ∀ j < n, (codeOf s.cfg (s.msgRead j)).isSome = true

/-- `code(j)` of the payload stream (R156): the code of symbol `j`, or 0 for the terminator. -/
def payloadCode (s : State) (len j : Nat) : Nat :=
  if j < len then (codeOf s.cfg (s.msgRead j)).getD 0 else 0

/-- `x_n` of the generator (R203). -/
def genDraw (seed : Word) (M : Nat) : Nat → Nat
  | 0 => genStart seed (genExponent M)
  | n + 1 =>
    genNext (genMul (genExponent M)) (genInc seed (genExponent M)) (genExponent M) (genDraw seed M n)

/-- How many of the first `n` draws are accepted (R206). -/
def acceptedDraws (seed : Word) (M n : Nat) : Nat := (List.range n).countP fun j => genDraw seed M j < M

/-- The engine holds what CHECK captured for a command with this traversal and channel list, and the buffer check
passed (R150). -/
structure Captured (trav : Trav) (chs : List Channel) (s : State) : Prop where
  w : s.eng.w = s.regs.width
  h : s.eng.h = s.regs.height
  len : s.eng.len = s.regs.msgLen
  k : s.eng.k = codeWidth s.cfg
  chans : s.eng.chs = chs
  nc : s.eng.nc = chs.length
  buffer : bufferOk s.cfg s.W s.H = true
  cap : s.eng.cap = capacityBits trav s.W s.H chs.length

/-- Under scatter the generator is where `E.g` draws from the seed leave it, `E.t` of them accepted (R203 to R205). -/
structure GenAt (s : State) : Prop where
  seed : s.eng.seed = s.pixRead 0
  M : s.eng.M = s.eng.cap
  m : s.eng.m = genExponent s.eng.M
  a : s.eng.a = genMul s.eng.m
  c : s.eng.c = genInc s.eng.seed s.eng.m
  x : s.eng.x = genDraw s.eng.seed s.eng.M s.eng.g
  t : s.eng.t = acceptedDraws s.eng.seed s.eng.M s.eng.g

/-- The traversal's state after TRAVINIT. -/
abbrev TravAt (trav : Trav) (s : State) : Prop := trav = .scat → GenAt s

/-- What holds in a phase of ENCODE after CHECK: the operands are captured and the length check passed (R171). -/
structure EncodeRuns (trav : Trav) (embed : Embed) (chs : List Channel) (s : State) : Prop where
  cmd : decode s.eng.cmd = .ok (.encode trav embed chs)
  captured : Captured trav chs s
  len : s.eng.len.toNat ≤ s.cfg.msgBytesMax

/-- What holds in a phase of DECODE after CHECK. -/
structure DecodeRuns (trav : Trav) (chs : List Channel) (s : State) : Prop where
  cmd : decode s.eng.cmd = .ok (.decode trav chs)
  captured : Captured trav chs s

/-- ENCODE has passed CAPCHK (R173). -/
structure EncodeFits (s : State) : Prop where
  valid : MappedBelow s s.eng.len.toNat
  need : s.eng.need = s.eng.k * (s.eng.len.toNat + 1)
  fits : s.eng.need ≤ s.eng.cap

/-- ENCODE in VALIDATE (R172). -/
def InValidate (s : State) : Prop :=
  ∃ trav embed chs, EncodeRuns trav embed chs s ∧ s.eng.i < s.eng.len.toNat ∧ MappedBelow s s.eng.i

/-- ENCODE in CAPCHK (R173). -/
def InCapchk (s : State) : Prop :=
  ∃ trav embed chs, EncodeRuns trav embed chs s ∧ MappedBelow s s.eng.len.toNat

/-- ENCODE or DECODE in TRAVINIT (R174, R182). -/
def InTravinit (s : State) : Prop :=
  (∃ trav embed chs, EncodeRuns trav embed chs s ∧ EncodeFits s) ∨ ∃ trav chs, DecodeRuns trav chs s

/-- ENCODE in EMBED: inside a code, `E.acc` and `E.i` are those of the code (R175). -/
def InEmbed (s : State) : Prop :=
  ∃ trav embed chs, EncodeRuns trav embed chs s ∧ EncodeFits s ∧ TravAt trav s ∧ s.eng.t < s.eng.need ∧
    (s.eng.t % s.eng.k ≠ 0 →
      s.eng.i = s.eng.t / s.eng.k ∧ s.eng.acc.toNat = payloadCode s s.eng.len.toNat s.eng.i)

/-- DECODE in SCAN: `E.i` groups are decoded and `E.nb` bits of the next are in `E.acc` (R183). -/
def InScan (s : State) : Prop :=
  ∃ trav chs, DecodeRuns trav chs s ∧ TravAt trav s ∧ s.eng.t ≤ s.eng.cap ∧ s.eng.nb < s.eng.k ∧
    s.eng.t = s.eng.i * s.eng.k + s.eng.nb ∧ s.eng.i ≤ s.cfg.msgBytesMax ∧ s.eng.acc.toNat < 2 ^ s.eng.nb

/-- DECODE in DECODE_CODE: `E.acc` holds a whole group (R184). -/
def InDecodeCode (s : State) : Prop :=
  ∃ trav chs, DecodeRuns trav chs s ∧ TravAt trav s ∧ s.eng.t ≤ s.eng.cap ∧ s.eng.nb = s.eng.k ∧
    s.eng.t = s.eng.i * s.eng.k + s.eng.nb ∧ s.eng.i ≤ s.cfg.msgBytesMax ∧ s.eng.acc.toNat < 2 ^ s.eng.k

/-- What each value of `E.state` says about the state (R42). -/
def PhaseOk (s : State) : Prop :=
  match s.eng.state with
  | .idle => True
  | .check => True
  | .validate => InValidate s
  | .capchk => InCapchk s
  | .travinit => InTravinit s
  | .embed => InEmbed s
  | .scan => InScan s
  | .decodeCode => InDecodeCode s

/-- The invariant: a legal instance (R5, R7, R8), memories in canonical form and inside their sizes (R62, R63), the
registers of a block in reset (R271), CMD is the running command's word (R32), DONE = 0 while BUSY = 1 (R29, R32), and
what the phase says. -/
structure Inv (s : State) : Prop where
  cfg : s.cfg.Ok
  pixWf : Memory.wf s.pix
  msgWf : Memory.wf s.msg
  pixBelow : Memory.Below s.pix (4 * s.cfg.pixWordsMax)
  msgBelow : Memory.Below s.msg s.cfg.msgBytesMax
  inReset : s.rst = true → s.regs = Regs.reset ∧ s.eng = Engine.reset
  latched : s.eng.cmd = s.regs.cmd
  running : s.busy = true → s.regs.done = false
  phase : PhaseOk s

/-- The ranges R40 gives the engine registers whose width is not in their type. -/
structure Engine.InRange (e : Engine) : Prop where
  k : e.k < 2 ^ 4
  chs : e.chs.length ≤ 4
  nc : e.nc ≤ 4
  cap : e.cap ≤ 2 ^ 22
  need : e.need ≤ 8 * (2 ^ 20 + 1)
  i : e.i ≤ 2 ^ 20
  t : e.t ≤ 2 ^ 22
  nb : e.nb ≤ 8
  M : e.M ≤ 2 ^ 22
  m : e.m ≤ 22
  a : e.a < 2 ^ 22
  c : e.c < 2 ^ 22
  x : e.x < 2 ^ 22
  g : e.g ≤ 2 ^ 22

/-- Two states agree on everything a running command reads or writes but DONE: they may differ in CTRL, DONE and
OVERRUN, and in what the outside world has still to do (R41, R280). -/
structure SameCommandView (s t : State) : Prop where
  cfg : s.cfg = t.cfg
  eng : s.eng = t.eng
  pix : s.pix = t.pix
  msg : s.msg = t.msg
  rst : s.rst = t.rst
  regs : { s.regs with irqEn := t.regs.irqEn, done := t.regs.done, overrun := t.regs.overrun } = t.regs

/-- The registers that only a completion writes, DECODE's write of MSG_LEN among them (R78, R232): none of them has
changed. -/
structure SameResults (s t : State) : Prop where
  err : t.regs.err = s.regs.err
  errIndex : t.regs.errIndex = s.regs.errIndex
  errValue : t.regs.errValue = s.regs.errValue
  result : t.regs.result = s.regs.result
  capacity : t.regs.capacity = s.regs.capacity
  seed : t.regs.seed = s.regs.seed
  msgLen : t.regs.msgLen = s.regs.msgLen

/-- The `t`-th slot a traversal visits (R155, R206): `seqslot(t)`, or the scatter slot of the `t`-th accepted draw. -/
def VisitsAt (trav : Trav) (seed : Word) (M : Nat) (chs : List Channel) (t : Nat) (sl : Slot) : Prop :=
  match trav with
  | .seq => seqSlot chs.length chs t = some sl
  | .scat =>
    ∃ n, genDraw seed M n < M ∧ acceptedDraws seed M n = t ∧ scatSlot chs.length chs (genDraw seed M n) = some sl

end Sys2Proof.Machine
end

