-- ==== Sys2Proof/Certificates/Slice0/Obligations.lean ====
section
/-! DEFINITION. The statements for the provers, from the numbered rules of spec/. -/

open Sys2Proof Sys2Proof.Machine

/-! Encoding. -/

/-- R98, R101: the word of a well-formed command decodes to that command, every operand kept. -/
def Obligations.EncodedCommandDecodesBack : Prop :=
  ∀ i : Instr, i.WellFormed → decode (encode i) = .ok i

/-- R98: the total decoder as the spec writes it, each field at its bits, and its injectivity. -/
def Obligations.DecodeReadsTheFieldsOfLegalWords : Prop :=
  (∀ w : Word, legal w = false → ∃ r, decode w = .error r) ∧
  (∀ w : Word, legal w = true →
    let trav : Trav := if w.getLsbD 4 then .scat else .seq
    let embed : Embed := if w.getLsbD 5 then .matching else .repl
    let chs := chlist (w.extractLsb' 8 4)
    (w.extractLsb' 0 4 = 0 → decode w = .ok .nop) ∧
    (w.extractLsb' 0 4 = 1 → decode w = .ok (.capacity trav chs)) ∧
    (w.extractLsb' 0 4 = 2 → decode w = .ok (.encode trav embed chs)) ∧
    (w.extractLsb' 0 4 = 3 → decode w = .ok (.decode trav chs)) ∧
    (w.extractLsb' 0 4 = 4 → decode w = .ok (.encSym (w.extractLsb' 16 8))) ∧
    (w.extractLsb' 0 4 = 5 → decode w = .ok (.decSym (w.extractLsb' 16 8)))) ∧
  ∀ (v w : Word) (i : Instr), decode v = .ok i → decode w = .ok i → v = w

/-- R97: legality is OP at most 5 and no bit outside the allowed-bit mask of its OP; the only legal NOP word is 0. -/
def Obligations.LegalWordsSetOnlyAllowedBits : Prop :=
  ∀ w : Word,
    (legal w = true ↔
      ∃ am : Word,
        ((w.extractLsb' 0 4 = 0 ∧ am = 0x0000000F) ∨ (w.extractLsb' 0 4 = 1 ∧ am = 0x00000F1F) ∨
         (w.extractLsb' 0 4 = 2 ∧ am = 0x00000F3F) ∨ (w.extractLsb' 0 4 = 3 ∧ am = 0x00000F1F) ∨
         (w.extractLsb' 0 4 = 4 ∧ am = 0x00FF000F) ∨ (w.extractLsb' 0 4 = 5 ∧ am = 0x00FF000F)) ∧
        w &&& ~~~ am = 0) ∧
    (legal w = true → w.extractLsb' 0 4 = 0 → w = 0)

/-- R101: the six rows of the opcode map are disjoint, their union is the set of legal words, and the row a word
matches is that of the command it decodes to. -/
def Obligations.OpcodeRowsPartitionLegalWords : Prop :=
  opcodeTable.map (fun r => (r.mnemonic, r.value, r.mask)) =
    [("NOP", 0x00000000, 0xFFFFFFFF), ("CAPACITY", 0x00000001, 0xFFFFF0EF), ("ENCODE", 0x00000002, 0xFFFFF0CF),
     ("DECODE", 0x00000003, 0xFFFFF0EF), ("ENC_SYM", 0x00000004, 0xFF00FFFF), ("DEC_SYM", 0x00000005, 0xFF00FFFF)] ∧
  ∀ w : Word,
    (legal w = true ↔ ∃ r ∈ opcodeTable, w &&& r.mask = r.value) ∧
    (∀ r ∈ opcodeTable, ∀ r' ∈ opcodeTable, w &&& r.mask = r.value → w &&& r'.mask = r'.value → r = r') ∧
    ∀ r ∈ opcodeTable, w &&& r.mask = r.value → ∃ i, decode w = .ok i ∧ i.mnemonic = r.mnemonic

/-- The three cases of R99 that make a word illegal, each with a name. The names, and which of them is given where several
cases apply (the reserved OP before the reserved bit before the unused field), are the model's choice (log entry 14, DESIGN
CHOICE): R99 has the cases, and no name or order of them. -/
def Obligations.IllegalWordsAreNamed : Prop :=
  ∀ w : Word,
    (decode w = .error .reservedOp ↔ 6 ≤ (w.extractLsb' 0 4).toNat) ∧
    (decode w = .error .reservedBit ↔ (w.extractLsb' 0 4).toNat ≤ 5 ∧ w &&& 0xFF00F0C0 ≠ 0) ∧
    (decode w = .error .unusedField ↔
      (w.extractLsb' 0 4).toNat ≤ 5 ∧ w &&& 0xFF00F0C0 = 0 ∧ w &&& ~~~ allowedMask (w.extractLsb' 0 4) ≠ 0)

/-- 95_test_vectors.md 2.1: words written out from the encodings, one or more for each row of the opcode table. -/
def Obligations.SampleWordsDecode : Prop :=
  decode 0x00000000 = .ok .nop ∧ decode 0x00000711 = .ok (.capacity .scat [.r, .g, .b]) ∧
  decode 0x00000732 = .ok (.encode .scat .matching [.r, .g, .b]) ∧
  decode 0x00000F22 = .ok (.encode .seq .matching [.r, .g, .b, .a]) ∧
  decode 0x00000803 = .ok (.decode .seq [.a]) ∧ decode 0x00480004 = .ok (.encSym 0x48) ∧
  decode 0x00290005 = .ok (.decSym 0x29) ∧ decode 0x00000723 = .error .unusedField ∧
  decode 0x00000006 = .error .reservedOp ∧ decode 0x00000040 = .error .reservedBit

/-- R102: the canonical spelling of a well-formed command assembles to it; the order of the channel letters does not
matter; a byte may be spelled in decimal, in hexadecimal or as a quoted character; and the example of R102. That operands
come as a list, without separators, and that `0x` and two digits is a byte's canonical spelling is the model's choice (log
entry 11, DESIGN CHOICE). -/
def Obligations.SpellingsAssemble : Prop :=
  (∀ i : Instr, i.WellFormed → assemble i.mnemonic.toList (spellOperands i) = some i) ∧
  (∀ chs l : List Channel, ChannelsOk chs → l.Perm chs → l ≠ [] → asmChannels (l.map spellLetter) = some chs) ∧
  (∀ b : Byte, asmByte (spellByte b) = some b ∧ asmByte (Nat.toDigits 10 b.toNat) = some b) ∧
  (∀ c : Char, 0x20 ≤ c.toNat → c.toNat ≤ 0x7E → asmByte ['\'', c, '\''] = some (BitVec.ofNat 8 c.toNat)) ∧
  (assemble "ENCODE".toList ["scat".toList, "match".toList, "RGB".toList]).map encode = some 0x00000732

/-! The step. -/

/-- R41, R150, R70, R103, R32: on the engine's turn, with a command running and `rst` released, the step is that of the
command `E.cmd` decodes to; an idle engine has no step; on the host's turn the step is the host's next statement, a WAIT
made again while BUSY = 1; and a word placed by `withFetchWord` runs in the very next step, from any state. Whose turn it is
and what the host has still to do are the model's own state (log entries 2, 3, 5). -/
def Obligations.StepRunsTheDecodedCommand : Prop :=
  (∀ (s : State) (i : Instr), nextTurn s = .engine → s.busy = true → s.rst = false → decode s.eng.cmd = .ok i →
    step s = exec i { s with sched := s.sched.tail }) ∧
  (∀ s : State, nextTurn s = .engine → step s = engineTurn { s with sched := s.sched.tail }) ∧
  (∀ s : State, nextTurn s = .engine → s.Idle → step s = .next { s with sched := s.sched.tail }) ∧
  (∀ (s : State) (a : Access) (rest : List HostOp), nextTurn s = .host → s.host = .access a :: rest →
    let u := { s with sched := s.sched.tail, host := rest }
    step s = .next { u.perform a with resp := some (s.respond a) }) ∧
  (∀ (s : State) (rest : List HostOp), nextTurn s = .host → s.host = .wait :: rest → s.rst = false →
    step s = .next { s with
      sched := s.sched.tail
      host := if s.busy then .wait :: rest else rest
      resp := some (.ok s.statusWord) }) ∧
  ∀ (s : State) (w : Word) (i : Instr), decode w = .ok i →
    step (s.withFetchWord 32 w.toNat) = exec i { s.accept w with rst := false }

/-- R231: the CHECK step of an illegal word. -/
def Obligations.IllegalWordCompletes : Prop :=
  ∀ (s : State) (r : Reject), s.rst = false → s.eng.state = .check → decode s.eng.cmd = .error r →
    engineTurn s = .next { s with
      regs := { s.regs with
        result := 0, err := .illegalCommand, errIndex := 0, errValue := s.eng.cmd, done := true }
      eng := { s.eng with state := .idle } }

/-! Reset. -/

/-- R22, R24, R25, R46: what each register reads after a power-on reset, and that the memories are as they were. -/
def Obligations.RegistersAfterReset : Prop :=
  ∀ (cfg : Config) (pix msg : Memory), cfg.Ok →
    let s := State.powerOn cfg pix msg
    s.respond (.read 0x000 .word) = .ok 0x4C534231 ∧
    (∃ v, s.respond (.read 0x004 .word) = .ok v ∧ v.toNat = maxCode cfg * 256 + codeWidth cfg) ∧
    (∀ r ∈ regMap, r ≠ .id → r ≠ .alphaInfo → s.respond (.read r.addr .word) = .ok 0) ∧
    s.irq = false ∧ s.Idle ∧ s.pix = pix ∧ s.msg = msg ∧
    State.reset.respond (.read 0x004 .word) = .ok 0x00005F07

/-- R270, R272: asserting `rst`, at any moment, puts every register at its reset value and leaves both memories and the
parameters as they are. That the edge is a turn of a schedule is the model's choice (log entries 2 and 9). -/
def Obligations.AssertedResetKeepsMemories : Prop :=
  ∀ (s : State) (rest : List Turn), s.sched = .assertRst :: rest →
    ∃ t, step s = .next t ∧ t.regs = Regs.reset ∧ t.eng = Engine.reset ∧ t.busy = false ∧ t.irq = false ∧
      t.rst = true ∧ t.pix = s.pix ∧ t.msg = s.msg ∧ t.cfg = s.cfg ∧ t.sched = rest

/-- R271: under `rst` the engine takes no step and every access is answered ERROR with data 0 and changes nothing; the
step that releases `rst` changes nothing else, and after it the engine is idle, takes no step, and the block answers the
bus. That the edges of the pin are turns of a schedule is the model's choice (log entries 2 and 9, DESIGN CHOICE). -/
def Obligations.ResetLineBlocksTheBlock : Prop :=
  (∀ s : State, s.rst = true → engineTurn s = .next s ∧
    ∀ a : Access, s.respond a = .error ∧ (s.respond a).data = some 0 ∧ s.perform a = s) ∧
  ∀ (s : State) (rest : List Turn), s.sched = .releaseRst :: rest →
    let t := { s with rst := false, sched := rest }
    step s = .next t ∧
    (Inv s → s.rst = true →
      t.Idle ∧ t.busy = false ∧ engineTurn t = .next t ∧ t.respond (.read 0x000 .word) = .ok 0x4C534231 ∧
      (∀ i < s.cfg.msgBytesMax,
        t.respond (.read (BitVec.ofNat 23 (0x100000 + i)) .byte) = .ok ((s.msgRead i).setWidth 32)) ∧
      ∀ w : Word, t.respond (.write 0x010 .word w) = .ack ∧ (t.perform (.write 0x010 .word w)).eng.state = .check)

/-! The host bus. -/

/-- R25 to R39: what a read of each register gives, field by field; R230: the numbers of the result codes. -/
def Obligations.RegisterReadsShowTheirFields : Prop :=
  (ErrCode.ok.code = 0 ∧ ErrCode.unsupportedCharacter.code = 1 ∧ ErrCode.capacityExceeded.code = 2 ∧
    ErrCode.invalidCode.code = 3 ∧ ErrCode.noPayloadFound.code = 4 ∧ ErrCode.invalidBuffer.code = 5 ∧
    ErrCode.msgLength.code = 6 ∧ ErrCode.illegalCommand.code = 7) ∧
  ∀ s : State, s.rst = false → s.cfg.Ok →
    s.respond (.read 0x000 .word) = .ok 0x4C534231 ∧
    (∃ v, s.respond (.read 0x004 .word) = .ok v ∧ (v.extractLsb' 0 4).toNat = codeWidth s.cfg ∧
      v.extractLsb' 4 4 = 0 ∧ (v.extractLsb' 8 8).toNat = maxCode s.cfg ∧ v.extractLsb' 16 16 = 0) ∧
    (∃ v, s.respond (.read 0x008 .word) = .ok v ∧ v.getLsbD 0 = s.regs.irqEn ∧ v.extractLsb' 1 31 = 0) ∧
    (∃ v, s.respond (.read 0x00C .word) = .ok v ∧ v.getLsbD 0 = s.busy ∧ v.getLsbD 1 = s.regs.done ∧
      v.getLsbD 2 = s.regs.overrun ∧ v.getLsbD 3 = false ∧ v.extractLsb' 4 4 = s.regs.err.code ∧
      v.extractLsb' 8 24 = 0) ∧
    s.respond (.read 0x010 .word) = .ok s.regs.cmd ∧
    (∃ v, s.respond (.read 0x014 .word) = .ok v ∧ v.extractLsb' 0 16 = s.regs.width ∧ v.extractLsb' 16 16 = 0) ∧
    (∃ v, s.respond (.read 0x018 .word) = .ok v ∧ v.extractLsb' 0 16 = s.regs.height ∧ v.extractLsb' 16 16 = 0) ∧
    s.respond (.read 0x01C .word) = .ok s.regs.msgLen ∧ s.respond (.read 0x020 .word) = .ok s.regs.capacity ∧
    s.respond (.read 0x024 .word) = .ok s.regs.result ∧ s.respond (.read 0x028 .word) = .ok s.regs.errIndex ∧
    s.respond (.read 0x02C .word) = .ok s.regs.errValue ∧ s.respond (.read 0x030 .word) = .ok s.regs.seed

/-- R71, R72, R75: which accesses are answered ERROR, by address, size and BUSY; an ERROR reads 0, and an ERROR and a
read change nothing. -/
def Obligations.BusErrorsAreExactlyTheIllegalAccesses : Prop :=
  ∀ s : State, s.cfg.Ok → s.rst = false →
    (∀ (addr : BitVec 23) (n : Size),
      let a := addr.toNat
      let legal : Prop :=
        (n = .word ∧ a % 4 = 0 ∧ a ≤ 0x030) ∨
        (s.busy = false ∧ 0x100000 ≤ a ∧ a < 0x100000 + s.cfg.msgBytesMax ∧
          (n = .byte ∨ (a % 4 = 0 ∧ a + 3 < 0x100000 + s.cfg.msgBytesMax))) ∨
        (s.busy = false ∧ 0x400000 ≤ a ∧ a < 0x400000 + 4 * s.cfg.pixWordsMax ∧ n = .word ∧ a % 4 = 0)
      (s.respond (.read addr n) = .error ↔ ¬ legal) ∧
      ∀ v, s.respond (.write addr n v) = .error ↔ ¬ legal) ∧
    (∀ a : Access, s.respond a = .error → s.perform a = s ∧ (s.respond a).data = some 0) ∧
    ∀ (addr : BitVec 23) (n : Size), s.perform (.read addr n) = s

/-- R73: a 4-byte access to MSGMEM is little-endian. -/
def Obligations.MsgWordsAreLittleEndian : Prop :=
  ∀ (s : State) (q : Nat), s.cfg.Ok → Memory.wf s.msg → s.rst = false → s.Idle → 4 * q + 3 < s.cfg.msgBytesMax →
    let addr : BitVec 23 := BitVec.ofNat 23 (0x100000 + 4 * q)
    s.respond (.read addr .word) =
      .ok (s.msgRead (4 * q + 3) ++ s.msgRead (4 * q + 2) ++ s.msgRead (4 * q + 1) ++ s.msgRead (4 * q)) ∧
    ∀ v : Word,
      let t := s.perform (.write addr .word v)
      s.respond (.write addr .word v) = .ack ∧ (∀ j < 4, t.msgRead (4 * q + j) = v.extractLsb' (8 * j) 8) ∧
      (∀ x, (x < 4 * q ∨ 4 * q + 4 ≤ x) → t.msgRead x = s.msgRead x) ∧
      t.pix = s.pix ∧ t.regs = s.regs ∧ t.eng = s.eng

/-- R62, R63, R69: a byte of MSGMEM and a word of PIXMEM read as the host last stored them, and a store changes nothing
else; R65: the accessors of the pixel at column `x` and row `y` are the accesses of the whole word `y*W + x`. -/
def Obligations.HostStoresReadBack : Prop :=
  ∀ s : State, s.cfg.Ok → Memory.wf s.msg → Memory.wf s.pix → s.rst = false → s.Idle →
    (∀ (i : Nat) (v : Word), i < s.cfg.msgBytesMax →
      let addr : BitVec 23 := BitVec.ofNat 23 (0x100000 + i)
      let t := State.hostAccess (.write addr .byte v) s
      t.resp = some .ack ∧ t.respond (.read addr .byte) = .ok ((v.extractLsb' 0 8).setWidth 32) ∧
      (∀ x, x ≠ i → t.msgRead x = s.msgRead x) ∧ t.pix = s.pix ∧ t.regs = s.regs ∧ t.eng = s.eng) ∧
    (∀ (p : Nat) (v : Word), p < s.cfg.pixWordsMax →
      let addr : BitVec 23 := BitVec.ofNat 23 (0x400000 + 4 * p)
      let t := State.hostAccess (.write addr .word v) s
      t.resp = some .ack ∧ t.respond (.read addr .word) = .ok v ∧ t.pixRead p = v ∧
      (∀ q, q ≠ p → t.pixRead q = s.pixRead q) ∧ t.msg = s.msg ∧ t.regs = s.regs ∧ t.eng = s.eng) ∧
    ∀ x y : Nat, x < s.W → y < s.H → s.W * s.H ≤ s.cfg.pixWordsMax →
      let addr : BitVec 23 := BitVec.ofNat 23 (0x400000 + 4 * (y * s.W + x))
      s.respond (.read addr .word) = .ok (s.getChannelValue x y) ∧
      ∀ v : Word, s.perform (.write addr .word v) = s.setChannelValue x y v ∧
        (s.setChannelValue x y v).getChannelValue x y = v

/-- R27: a write of STATUS changes only DONE and OVERRUN, and only where the written bit is 1, at any time; the fields of
STATUS as read; and what it reads after reset. -/
def Obligations.StatusWriteClearsWrittenOnes : Prop :=
  (∀ (cfg : Config) (pix msg : Memory), (State.powerOn cfg pix msg).respond (.read 0x00C .word) = .ok 0) ∧
  ∀ (s : State) (v : Word), s.rst = false →
    s.respond (.write 0x00C .word v) = .ack ∧
    s.perform (.write 0x00C .word v) =
      { s with
        regs := { s.regs with
          done := if v.getLsbD 1 then false else s.regs.done
          overrun := if v.getLsbD 2 then false else s.regs.overrun } } ∧
    ∃ w, s.respond (.read 0x00C .word) = .ok w ∧ w.getLsbD 0 = s.busy ∧ w.getLsbD 1 = s.regs.done ∧
      w.getLsbD 2 = s.regs.overrun ∧ w.getLsbD 3 = false ∧ w.extractLsb' 4 4 = s.regs.err.code ∧
      w.extractLsb' 8 24 = 0

/-- R26, R45: a write of CTRL sets IRQ_EN to bit 0 and nothing else, BUSY or not; CTRL reads 0 after reset; `irq` is DONE
AND IRQ_EN in every state. -/
def Obligations.CtrlWriteSetsIrqEnable : Prop :=
  (∀ (cfg : Config) (pix msg : Memory), (State.powerOn cfg pix msg).respond (.read 0x008 .word) = .ok 0) ∧
  (∀ s : State, s.irq = (s.regs.done && s.regs.irqEn)) ∧
  ∀ (s : State) (v : Word), s.rst = false →
    let t := s.perform (.write 0x008 .word v)
    s.respond (.write 0x008 .word v) = .ack ∧ t = { s with regs := { s.regs with irqEn := v.getLsbD 0 } } ∧
    (∃ w, t.respond (.read 0x008 .word) = .ok w ∧ w.getLsbD 0 = v.getLsbD 0 ∧ w.extractLsb' 1 31 = 0) ∧
    t.irq = (s.regs.done && v.getLsbD 0)

/-- R32: a CMD write accepts the command when BUSY = 0 and is dropped with OVERRUN when BUSY = 1; CMD reads the last
accepted word. -/
def Obligations.CmdWriteAcceptsOrDrops : Prop :=
  ∀ (s : State) (w : Word), s.rst = false →
    let t := State.hostAccess (.write 0x010 .word w) s
    t.resp = some .ack ∧
    (s.busy = false →
      t = { s with
        regs := { s.regs with cmd := w, done := false }
        eng := { s.eng with cmd := w, state := .check }
        resp := some .ack } ∧
      t.busy = true ∧ t.respond (.read 0x010 .word) = .ok w) ∧
    (s.busy = true →
      t = { s with regs := { s.regs with overrun := true }, resp := some .ack } ∧
      t.respond (.read 0x010 .word) = .ok s.regs.cmd)

/-- R280: the BUSY lockout of the registers. -/
def Obligations.BusyDropsOperandWrites : Prop :=
  ∀ (s : State) (v : Word), s.rst = false → s.busy = true →
    (∀ a ∈ [(0x010 : BitVec 23), 0x014, 0x018, 0x01C],
      s.respond (.write a .word v) = .ack ∧
      s.perform (.write a .word v) = { s with regs := { s.regs with overrun := true } }) ∧
    s.perform (.write 0x008 .word v) = { s with regs := { s.regs with irqEn := v.getLsbD 0 } } ∧
    s.perform (.write 0x00C .word v) =
      { s with
        regs := { s.regs with
          done := s.regs.done && !v.getLsbD 1
          overrun := s.regs.overrun && !v.getLsbD 2 } } ∧
    ∀ r ∈ regMap, s.respond (.read r.addr .word) = .ok (s.readReg r)

/-- R33, R34, R35: the operand registers as the host writes them while BUSY = 0. -/
def Obligations.IdleOperandWritesTakeEffect : Prop :=
  ∀ (s : State) (v : Word), s.rst = false → s.Idle →
    State.hostAccess (.write 0x014 .word v) s =
      { s with regs := { s.regs with width := v.extractLsb' 0 16 }, resp := some .ack } ∧
    State.hostAccess (.write 0x018 .word v) s =
      { s with regs := { s.regs with height := v.extractLsb' 0 16 }, resp := some .ack } ∧
    State.hostAccess (.write 0x01C .word v) s =
      { s with regs := { s.regs with msgLen := v }, resp := some .ack } ∧
    (State.hostAccess (.write 0x014 .word v) s).respond (.read 0x014 .word) = .ok (v &&& 0x0000FFFF) ∧
    (State.hostAccess (.write 0x018 .word v) s).respond (.read 0x018 .word) = .ok (v &&& 0x0000FFFF) ∧
    (State.hostAccess (.write 0x01C .word v) s).respond (.read 0x01C .word) = .ok v

/-- R44: reserved bits read 0 and ignore writes, and writes to read-only registers are ignored with an OK response. -/
def Obligations.ReadOnlyRegistersIgnoreWrites : Prop :=
  ∀ (s : State) (v : Word), s.rst = false →
    (∀ a ∈ [(0x000 : BitVec 23), 0x004, 0x020, 0x024, 0x028, 0x02C, 0x030],
      s.respond (.write a .word v) = .ack ∧ s.perform (.write a .word v) = s) ∧
    ∀ (x : State), (x = s ∨ ∃ a, x = s.perform (.write a .word v)) →
      (x.readReg .alphaInfo).extractLsb' 4 4 = 0 ∧ (x.readReg .alphaInfo).extractLsb' 16 16 = 0 ∧
      (x.readReg .ctrl).extractLsb' 1 31 = 0 ∧ (x.readReg .status).getLsbD 3 = false ∧
      (x.readReg .status).extractLsb' 8 24 = 0 ∧ (x.readReg .width).extractLsb' 16 16 = 0 ∧
      (x.readReg .height).extractLsb' 16 16 = 0

/-! The alphabet mapper. -/

/-- R121: ALPHA95, its size and its width. -/
def Obligations.Alpha95IsTheStatedTable : Prop :=
  (∀ b : Byte, codeOf Config.reference b =
    if 0x20 ≤ b.toNat ∧ b.toNat ≤ 0x7E then some (b.toNat - 0x1F) else none) ∧
  maxCode Config.reference = 95 ∧ codeWidth Config.reference = 7 ∧
  ∀ n < 128, 96 ≤ n → symbolOf Config.reference n = none

/-- R6: `K` is the least integer at least 1 with `2^K >= N+1`, and at most 8. -/
def Obligations.CodeWidthIsLeast : Prop :=
  (∀ c : Config, c.Ok →
    1 ≤ codeWidth c ∧ codeWidth c ≤ 8 ∧ maxCode c + 1 ≤ 2 ^ codeWidth c ∧
    ∀ e, 1 ≤ e → maxCode c + 1 ≤ 2 ^ e → codeWidth c ≤ e) ∧
  maxCode Config.reference = 95 ∧ codeWidth Config.reference = 7

/-- R120: ALPHABET_INV is the inverse of ALPHABET, and gives nothing for 0 and above `N`. -/
def Obligations.InverseLookupInvertsLookup : Prop :=
  ∀ c : Config, c.Ok →
    (∀ (s : Byte) (n : Nat), symbolOf c n = some s ↔ codeOf c s = some n) ∧
    symbolOf c 0 = none ∧ ∀ n, maxCode c < n → symbolOf c n = none

/-- R127: the round-trip law of the mapper, and of ENC_SYM followed by DEC_SYM of its RESULT. -/
def Obligations.SymbolCommandsRoundTrip : Prop :=
  ∀ (s u : State) (sym : Byte) (c : Nat), s.cfg.Ok → codeOf s.cfg sym = some c →
    symbolOf s.cfg c = some sym ∧ 1 ≤ c ∧ c ≤ maxCode s.cfg ∧ maxCode s.cfg < 2 ^ codeWidth s.cfg ∧
    (s.eng.state = .check → u.eng.state = .check → u.cfg = s.cfg →
      ∃ t, exec (.encSym sym) s = .next t ∧ t.regs.err = .ok ∧
        ∃ v, exec (.decSym (t.regs.result.extractLsb' 0 8)) u = .next v ∧
          v.regs.err = .ok ∧ v.regs.result = sym.setWidth 32)

/-- R125: ENC_SYM. -/
def Obligations.EncSymGivesTheCode : Prop :=
  ∀ (s : State) (sym : Byte), s.eng.state = .check →
    (∀ c, codeOf s.cfg sym = some c →
      exec (.encSym sym) s = .next { s with
        regs := { s.regs with result := BitVec.ofNat 32 c, err := .ok, errIndex := 0, errValue := 0, done := true }
        eng := { s.eng with state := .idle } }) ∧
    (codeOf s.cfg sym = none →
      exec (.encSym sym) s = .next { s with
        regs := { s.regs with
          result := 0, err := .unsupportedCharacter, errIndex := 0, errValue := sym.setWidth 32, done := true }
        eng := { s.eng with state := .idle } })

/-- R126: DEC_SYM; the terminator and every code above `N` are INVALID_CODE. -/
def Obligations.DecSymGivesTheSymbol : Prop :=
  ∀ (s : State) (code : Byte), s.eng.state = .check →
    (∀ sym, symbolOf s.cfg code.toNat = some sym →
      exec (.decSym code) s = .next { s with
        regs := { s.regs with result := sym.setWidth 32, err := .ok, errIndex := 0, errValue := 0, done := true }
        eng := { s.eng with state := .idle } }) ∧
    (symbolOf s.cfg code.toNat = none ∨ (s.cfg.Ok ∧ (code = 0 ∨ maxCode s.cfg < code.toNat)) →
      exec (.decSym code) s = .next { s with
        regs := { s.regs with
          result := 0, err := .invalidCode, errIndex := 0, errValue := code.setWidth 32, done := true }
        eng := { s.eng with state := .idle } })

/-! NOP and CAPACITY, and the buffer check. -/

/-- R160: NOP. -/
def Obligations.NopOnlyCompletes : Prop :=
  ∀ s : State, s.eng.state = .check →
    exec .nop s = .next { s with
      regs := { s.regs with err := .ok, errIndex := 0, errValue := 0, done := true }
      eng := { s.eng with state := .idle } }

/-- R161, R153: CAPACITY on a valid buffer. -/
def Obligations.CapacityReportsTheSlotCount : Prop :=
  ∀ (s : State) (trav : Trav) (chs : List Channel), s.eng.state = .check →
    1 ≤ s.W → 1 ≤ s.H → s.W * s.H ≤ s.cfg.pixWordsMax →
    let cap := match trav with
      | .seq => s.W * s.H * chs.length
      | .scat => (s.W * s.H - 1) * chs.length
    ∃ t, exec (.capacity trav chs) s = .next t ∧ t.Idle ∧
      t.regs = { s.regs with
        result := BitVec.ofNat 32 cap
        capacity := BitVec.ofNat 32 cap
        seed := if trav = .scat then s.pixRead 0 else s.regs.seed
        err := .ok, errIndex := 0, errValue := 0, done := true } ∧
      SameBytes s.pix t.pix ∧ SameBytes s.msg t.msg ∧ t.cfg = s.cfg ∧ t.eng.cmd = s.eng.cmd ∧
      t.eng.need = s.eng.need ∧ t.eng.seed = s.eng.seed ∧ t.eng.M = s.eng.M ∧ t.eng.m = s.eng.m ∧
      t.eng.a = s.eng.a ∧ t.eng.c = s.eng.c ∧ t.eng.x = s.eng.x ∧
      t.rst = s.rst ∧ t.host = s.host ∧ t.sched = s.sched ∧ t.resp = s.resp

/-- R152: CAPACITY, ENCODE and DECODE on an invalid buffer complete in CHECK; DECODE alone clears MSG_LEN. -/
def Obligations.InvalidBufferCompletesInCheck : Prop :=
  ∀ (s : State) (trav : Trav) (embed : Embed) (chs : List Channel), s.eng.state = .check →
    ¬ (1 ≤ s.W ∧ 1 ≤ s.H ∧ s.W * s.H ≤ s.cfg.pixWordsMax) →
    ∀ i ∈ [Instr.capacity trav chs, .encode trav embed chs, .decode trav chs],
      ∃ t, exec i s = .next t ∧ t.Idle ∧
        t.regs = { s.regs with
          result := 0
          capacity := 0
          msgLen := if i = .decode trav chs then 0 else s.regs.msgLen
          err := .invalidBuffer, errIndex := 0, errValue := s.regs.height ++ s.regs.width, done := true } ∧
        SameBytes s.pix t.pix ∧ SameBytes s.msg t.msg ∧ t.cfg = s.cfg ∧ t.eng.cmd = s.eng.cmd ∧
        t.eng.cap = s.eng.cap ∧ t.eng.need = s.eng.need ∧ t.rst = s.rst ∧ t.host = s.host ∧ t.sched = s.sched ∧
        t.resp = s.resp

/-! ENCODE. -/

/-- R171: the CHECK tail of ENCODE. -/
def Obligations.EncodeCheckTail : Prop :=
  ∀ (s : State) (trav : Trav) (embed : Embed) (chs : List Channel), s.eng.state = .check →
    1 ≤ s.W → 1 ≤ s.H → s.W * s.H ≤ s.cfg.pixWordsMax →
    ∃ t, exec (.encode trav embed chs) s = .next t ∧ Captured trav chs { t with regs := s.regs } ∧
      SameBytes s.pix t.pix ∧ SameBytes s.msg t.msg ∧ t.cfg = s.cfg ∧ t.eng.i = 0 ∧ t.eng.t = 0 ∧
      (s.cfg.msgBytesMax < s.L → t.Idle ∧ t.regs = { s.regs with
        result := 0
        capacity := BitVec.ofNat 32 (capacityBits trav s.W s.H chs.length)
        seed := if trav = .scat then s.pixRead 0 else s.regs.seed
        err := .msgLength, errIndex := 0, errValue := s.regs.msgLen, done := true }) ∧
      (s.L ≤ s.cfg.msgBytesMax → t.regs = s.regs ∧
        (s.L = 0 → t.eng.state = .capchk) ∧ (s.L ≠ 0 → t.eng.state = .validate))

/-- R172: one VALIDATE step. -/
def Obligations.EncodeValidatesOneSymbol : Prop :=
  ∀ (s : State) (trav : Trav) (embed : Embed) (chs : List Channel), s.eng.state = .validate →
    s.eng.i < s.eng.len.toNat → s.eng.i < s.cfg.msgBytesMax →
    (codeOf s.cfg (s.msgRead s.eng.i) = none →
      exec (.encode trav embed chs) s = .next { s with
        regs := { s.regs with
          result := 0
          capacity := BitVec.ofNat 32 s.eng.cap
          seed := if trav = .scat then s.pixRead 0 else s.regs.seed
          err := .unsupportedCharacter
          errIndex := BitVec.ofNat 32 s.eng.i
          errValue := (s.msgRead s.eng.i).setWidth 32
          done := true }
        eng := { s.eng with state := .idle } }) ∧
    (codeOf s.cfg (s.msgRead s.eng.i) ≠ none →
      exec (.encode trav embed chs) s = .next { s with
        eng := { s.eng with
          i := s.eng.i + 1
          state := if s.eng.i + 1 = s.eng.len.toNat then .capchk else .validate } })

/-- R173: CAPCHK. -/
def Obligations.EncodeComparesNeedWithCapacity : Prop :=
  ∀ (s : State) (trav : Trav) (embed : Embed) (chs : List Channel), s.eng.state = .capchk →
    let need := s.eng.k * (s.eng.len.toNat + 1)
    (s.eng.cap < need →
      exec (.encode trav embed chs) s = .next { s with
        regs := { s.regs with
          result := 0
          capacity := BitVec.ofNat 32 s.eng.cap
          seed := if trav = .scat then s.pixRead 0 else s.regs.seed
          err := .capacityExceeded
          errIndex := 0
          errValue := BitVec.ofNat 32 need
          done := true }
        eng := { s.eng with need := need, state := .idle } }) ∧
    (need ≤ s.eng.cap →
      exec (.encode trav embed chs) s = .next { s with eng := { s.eng with need := need, state := .travinit } })

/-- R174, R182, R204: TRAVINIT of ENCODE and DECODE, with the generator's set-up under scatter. -/
def Obligations.TravinitSetsUpTheTraversal : Prop :=
  ∀ (s : State) (trav : Trav) (embed : Embed) (chs : List Channel), s.eng.state = .travinit →
    let M := (s.eng.w.toNat * s.eng.h.toNat - 1) * s.eng.nc
    let m := if M ≤ 1 then 0 else ceilLog2 M
    let seed := s.pixRead 0
    let gen : Engine := match trav with
      | .seq => s.eng
      | .scat => { s.eng with
          seed := seed, M := M, m := m, a := 1664525 % 2 ^ m
          c := (2 * (seed.extractLsb' 16 16).toNat + 1) % 2 ^ m, x := seed.toNat % 2 ^ m, g := 0 }
    exec (.encode trav embed chs) s = .next { s with eng := { gen with t := 0, i := 0, state := .embed } } ∧
    exec (.decode trav chs) s =
      .next { s with eng := { gen with t := 0, i := 0, acc := 0, nb := 0, state := .scan } }

/-- R175: one EMBED step of a run; R205: a scatter step draws, whether its slot is accepted or not. -/
def Obligations.EncodeEmbedsOneBit : Prop :=
  ∀ (s : State) (trav : Trav) (embed : Embed) (chs : List Channel), Inv s → s.eng.state = .embed →
    decode s.eng.cmd = .ok (.encode trav embed chs) →
    let next : Engine := match trav with
      | .seq => s.eng
      | .scat => { s.eng with x := (s.eng.a * s.eng.x + s.eng.c) % 2 ^ s.eng.m, g := s.eng.g + 1 }
    ∃ t, exec (.encode trav embed chs) s = .next t ∧ t.eng.x = next.x ∧ t.eng.g = next.g ∧
      (travVisit trav s.eng = .skip → t = { s with eng := next }) ∧
      ∀ sl, travVisit trav s.eng = .slot sl →
        let bit := (payloadCode s s.eng.len.toNat (s.eng.t / s.eng.k)).testBit
          (s.eng.k - 1 - s.eng.t % s.eng.k)
        sl.p < s.W * s.H ∧
        t.pixRead sl.p =
          setchan (s.pixRead sl.p) sl.ch (embedBit embed (chan (s.pixRead sl.p) sl.ch) bit) ∧
        (∀ p, p ≠ sl.p → t.pixRead p = s.pixRead p) ∧ t.msg = s.msg ∧ t.eng.t = s.eng.t + 1 ∧
        (s.eng.t + 1 < s.eng.need → t.eng.state = .embed ∧ t.regs = s.regs) ∧
        (s.eng.t + 1 = s.eng.need → t.Idle ∧ t.regs = { s.regs with
          result := BitVec.ofNat 32 s.eng.need
          capacity := BitVec.ofNat 32 s.eng.cap
          seed := if trav = .scat then s.pixRead 0 else s.regs.seed
          err := .ok, errIndex := 0, errValue := 0, done := true })

/-- R12: which bits of a pixel word a channel is; and R66, R176: the frame of ENCODE: a step changes at most the byte of
the slot it visits. `pixByteAddr` is the model's layout of PIXMEM (log entry 4, DESIGN CHOICE). -/
def Obligations.EncodeStoresOneChannelByte : Prop :=
  (∀ w : Word, chan w .b = w.extractLsb' 0 8 ∧ chan w .g = w.extractLsb' 8 8 ∧ chan w .r = w.extractLsb' 16 8 ∧
    chan w .a = w.extractLsb' 24 8 ∧
    ∀ ch v, chan (setchan w ch v) ch = v ∧ ∀ ch', ch' ≠ ch → chan (setchan w ch v) ch' = chan w ch') ∧
  (∀ (s : State) (p : Nat) (ch : Channel), Memory.read s.pix (pixByteAddr p ch) = chan (s.pixRead p) ch) ∧
  ∀ (s t : State) (trav : Trav) (embed : Embed) (chs : List Channel), Memory.wf s.pix →
    exec (.encode trav embed chs) s = .next t →
    (∀ sl, s.eng.state = .embed → travVisit trav s.eng = .slot sl →
      ∀ a, a ≠ pixByteAddr sl.p sl.ch → Memory.read t.pix a = Memory.read s.pix a) ∧
    ((s.eng.state ≠ .embed ∨ ∀ sl, travVisit trav s.eng ≠ .slot sl) → SameBytes s.pix t.pix) ∧
    SameBytes s.msg t.msg ∧
    t.regs.cmd = s.regs.cmd ∧ t.regs.width = s.regs.width ∧ t.regs.height = s.regs.height ∧
    t.regs.msgLen = s.regs.msgLen ∧ t.regs.irqEn = s.regs.irqEn ∧ t.regs.overrun = s.regs.overrun ∧
    t.eng.cmd = s.eng.cmd ∧ (¬ t.Idle → t.regs = s.regs) ∧
    (s.eng.state ≠ .check → t.eng.w = s.eng.w ∧ t.eng.h = s.eng.h ∧ t.eng.len = s.eng.len ∧ t.eng.k = s.eng.k ∧
      t.eng.chs = s.eng.chs ∧ t.eng.nc = s.eng.nc ∧ t.eng.cap = s.eng.cap ∧ t.eng.nb = s.eng.nb) ∧
    (s.eng.state = .embed → t.eng.need = s.eng.need ∧ t.eng.seed = s.eng.seed ∧ t.eng.M = s.eng.M ∧
      t.eng.m = s.eng.m ∧ t.eng.a = s.eng.a ∧ t.eng.c = s.eng.c) ∧
    t.cfg = s.cfg ∧ t.rst = s.rst ∧ t.host = s.host ∧ t.sched = s.sched ∧ t.resp = s.resp

/-- R157, R158, R159: the two embedding policies. -/
def Obligations.EmbeddingSetsTheLsb : Prop :=
  ∀ (v : Byte) (b : Bool),
    embedBit .repl v b = (v &&& 0xFE) ||| (if b then 1 else 0) ∧
    embedBit .matching v b =
      (if v.getLsbD 0 = b then v else if v = 0 then 1 else BitVec.ofNat 8 (v.toNat - 1)) ∧
    ∀ e, (embedBit e v b).getLsbD 0 = b ∧ (embedBit e v b = v ↔ v.getLsbD 0 = b) ∧
      (embedBit e v b).toNat ≤ v.toNat + 1 ∧ v.toNat ≤ (embedBit e v b).toNat + 1

/-! DECODE. -/

/-- R180: the CHECK tail of DECODE. -/
def Obligations.DecodeCheckTail : Prop :=
  ∀ (s : State) (trav : Trav) (chs : List Channel), s.eng.state = .check →
    1 ≤ s.W → 1 ≤ s.H → s.W * s.H ≤ s.cfg.pixWordsMax →
    ∃ t, exec (.decode trav chs) s = .next t ∧ Captured trav chs t ∧ t.eng.state = .travinit ∧
      t.regs = s.regs ∧ SameBytes s.pix t.pix ∧ SameBytes s.msg t.msg ∧ t.cfg = s.cfg

/-- R183, R185: one SCAN step of a run; R205: a scatter step draws, whether its slot is accepted or not. -/
def Obligations.DecodeScansOneBit : Prop :=
  ∀ (s : State) (trav : Trav) (chs : List Channel), Inv s → s.eng.state = .scan →
    decode s.eng.cmd = .ok (.decode trav chs) →
    (s.eng.t = s.eng.cap →
      exec (.decode trav chs) s = .next { s with
        regs := { s.regs with
          msgLen := 0, result := 0
          capacity := BitVec.ofNat 32 s.eng.cap
          seed := if trav = .scat then s.pixRead 0 else s.regs.seed
          err := .noPayloadFound, errIndex := BitVec.ofNat 32 s.eng.i, errValue := 0, done := true }
        eng := { s.eng with state := .idle } }) ∧
    (s.eng.t ≠ s.eng.cap →
      let next : Engine := match trav with
        | .seq => s.eng
        | .scat => { s.eng with x := (s.eng.a * s.eng.x + s.eng.c) % 2 ^ s.eng.m, g := s.eng.g + 1 }
      ∃ t, exec (.decode trav chs) s = .next t ∧ t.regs = s.regs ∧ t.pix = s.pix ∧ t.msg = s.msg ∧
        t.eng.x = next.x ∧ t.eng.g = next.g ∧ (travVisit trav s.eng = .skip → t = { s with eng := next }) ∧
        ∀ sl, travVisit trav s.eng = .slot sl →
          sl.p < s.W * s.H ∧ t.eng.t = s.eng.t + 1 ∧ t.eng.nb = s.eng.nb + 1 ∧ t.eng.i = s.eng.i ∧
          t.eng.acc.toNat =
            2 * s.eng.acc.toNat + ((chan (s.pixRead sl.p) sl.ch).getLsbD 0).toNat ∧
          t.eng.state = if s.eng.nb + 1 = s.eng.k then .decodeCode else .scan)

/-- R184, R187: one DECODE_CODE step: the terminator, an unmapped code, an output that is full, and a symbol stored. -/
def Obligations.DecodeLooksUpOneGroup : Prop :=
  ∀ (s : State) (trav : Trav) (chs : List Channel), s.eng.state = .decodeCode →
    s.eng.i ≤ s.cfg.msgBytesMax →
    let finish := fun (err : ErrCode) (n idx val : Word) => ({ s with
      regs := { s.regs with
        msgLen := n, result := n
        capacity := BitVec.ofNat 32 s.eng.cap
        seed := if trav = .scat then s.pixRead 0 else s.regs.seed
        err := err, errIndex := idx, errValue := val, done := true }
      eng := { s.eng with acc := 0, nb := 0, state := .idle } } : State)
    let i := BitVec.ofNat 32 s.eng.i
    let c := s.eng.acc
    (c = 0 → exec (.decode trav chs) s = .next (finish .ok i 0 0)) ∧
    (c ≠ 0 → symbolOf s.cfg c.toNat = none →
      exec (.decode trav chs) s = .next (finish .invalidCode 0 i (c.setWidth 32))) ∧
    ∀ sym, c ≠ 0 → symbolOf s.cfg c.toNat = some sym →
      (s.eng.i = s.cfg.msgBytesMax →
        exec (.decode trav chs) s = .next (finish .msgLength 0 i (c.setWidth 32))) ∧
      (s.eng.i < s.cfg.msgBytesMax →
        exec (.decode trav chs) s = .next { s with
          msg := Memory.write s.msg s.eng.i sym
          eng := { s.eng with acc := 0, nb := 0, i := s.eng.i + 1, state := .scan } })

/-- R83, R181, R184: the frame of DECODE: a step changes at most byte `E.i` of MSGMEM, and only where DECODE_CODE stores
a symbol. -/
def Obligations.DecodeStoresOneMessageByte : Prop :=
  ∀ (s t : State) (trav : Trav) (chs : List Channel), Memory.wf s.msg →
    exec (.decode trav chs) s = .next t →
    SameBytes s.pix t.pix ∧
    (s.eng.state = .decodeCode → ∀ a, a ≠ s.eng.i → t.msgRead a = s.msgRead a) ∧
    (s.eng.state = .decodeCode → t.eng.state = .scan →
      symbolOf s.cfg s.eng.acc.toNat = some (t.msgRead s.eng.i) ∧ s.eng.i < s.cfg.msgBytesMax) ∧
    (s.eng.state ≠ .decodeCode ∨ t.Idle → SameBytes s.msg t.msg) ∧
    t.regs.cmd = s.regs.cmd ∧ t.regs.width = s.regs.width ∧ t.regs.height = s.regs.height ∧
    t.regs.irqEn = s.regs.irqEn ∧ t.regs.overrun = s.regs.overrun ∧ t.eng.cmd = s.eng.cmd ∧
    (¬ t.Idle → t.regs = s.regs) ∧
    (s.eng.state ≠ .check → t.eng.w = s.eng.w ∧ t.eng.h = s.eng.h ∧ t.eng.len = s.eng.len ∧ t.eng.k = s.eng.k ∧
      t.eng.chs = s.eng.chs ∧ t.eng.nc = s.eng.nc ∧ t.eng.cap = s.eng.cap ∧ t.eng.need = s.eng.need) ∧
    (s.eng.state = .scan ∨ s.eng.state = .decodeCode → t.eng.seed = s.eng.seed ∧ t.eng.M = s.eng.M ∧
      t.eng.m = s.eng.m ∧ t.eng.a = s.eng.a ∧ t.eng.c = s.eng.c) ∧
    t.cfg = s.cfg ∧ t.rst = s.rst ∧ t.host = s.host ∧ t.sched = s.sched ∧ t.resp = s.resp

/-! The traversals. -/

/-- R154, R202: which slot a slot number names under each traversal, the number being `E.t` or an accepted `E.x`; no two
slot numbers below the capacity name one byte of PIXMEM, and scatter names none in pixel 0. `pixByteAddr` is the model's
layout of PIXMEM (log entry 4, DESIGN CHOICE). -/
def Obligations.SlotNumbersNameDistinctBytes : Prop :=
  (∀ (e : Engine) (sl : Slot),
    (travVisit .seq e = .slot sl ↔ sl.p = e.t / e.nc ∧ e.chs[e.t % e.nc]? = some sl.ch) ∧
    (travVisit .scat e = .slot sl ↔ e.x < e.M ∧ sl.p = 1 + e.x / e.nc ∧ e.chs[e.x % e.nc]? = some sl.ch) ∧
    (travVisit .scat e = .skip ↔ e.M ≤ e.x)) ∧
  ∀ (chs : List Channel) (n t u : Nat), ChannelsOk chs →
    (t < n * chs.length → u < n * chs.length →
      ∃ x y, seqSlot chs.length chs t = some x ∧ seqSlot chs.length chs u = some y ∧
        x.p = t / chs.length ∧ chs[t % chs.length]? = some x.ch ∧ x.p < n ∧
        (pixByteAddr x.p x.ch = pixByteAddr y.p y.ch → t = u)) ∧
    (t < (n - 1) * chs.length → u < (n - 1) * chs.length →
      ∃ x y, scatSlot chs.length chs t = some x ∧ scatSlot chs.length chs u = some y ∧
        x.p = 1 + t / chs.length ∧ chs[t % chs.length]? = some x.ch ∧ 1 ≤ x.p ∧ x.p < n ∧
        (pixByteAddr x.p x.ch = pixByteAddr y.p y.ch → t = u))

/-- R206: the draws of one period are the numbers below `2^m`, each exactly once, so each scatter slot number is
accepted exactly once, with fewer than `M` draws rejected. -/
def Obligations.GeneratorHasFullPeriod : Prop :=
  ∀ (seed : Word) (M : Nat), 1 ≤ M →
    (∀ v < 2 ^ genExponent M, ∃ n < 2 ^ genExponent M, genDraw seed M n = v ∧
      ∀ n' < 2 ^ genExponent M, genDraw seed M n' = v → n' = n) ∧
    acceptedDraws seed M (2 ^ genExponent M) = M ∧ 2 ^ genExponent M < 2 * M

/-- R210: the worked example of the scatter traversal: W = 2, H = 2, RGB, pixel 0 = 0x12345678. -/
def Obligations.WorkedScatterExample : Prop :=
  genExponent 9 = 4 ∧ genMul 4 = 13 ∧ genInc 0x12345678 4 = 9 ∧
  (List.range 16).map (genDraw 0x12345678 9) = [8, 1, 6, 7, 4, 13, 2, 3, 0, 9, 14, 15, 12, 5, 10, 11] ∧
  (((List.range 16).map (genDraw 0x12345678 9)).filter (· < 9)).map (scatSlot 3 [.r, .g, .b]) =
    [some ⟨3, .b⟩, some ⟨1, .g⟩, some ⟨3, .r⟩, some ⟨3, .g⟩, some ⟨2, .g⟩, some ⟨1, .b⟩, some ⟨2, .r⟩,
      some ⟨1, .r⟩, some ⟨2, .b⟩]

/-! The whole machine. -/

/-- R83: only ENCODE in EMBED writes PIXMEM, only DECODE in DECODE_CODE writes MSGMEM, and no command writes CTRL,
OVERRUN, CMD, WIDTH or HEIGHT. -/
def Obligations.OnlyEmbedWritesPixelsOnlyDecodeWritesMessages : Prop :=
  ∀ (i : Instr) (s t : State), exec i s = .next t →
    (t.pix ≠ s.pix → s.eng.state = .embed ∧ ∃ trav embed chs, i = .encode trav embed chs) ∧
    (t.msg ≠ s.msg → s.eng.state = .decodeCode ∧ ∃ trav chs, i = .decode trav chs) ∧
    (t.regs.msgLen ≠ s.regs.msgLen → ∃ trav chs, i = .decode trav chs) ∧
    t.regs.irqEn = s.regs.irqEn ∧ t.regs.overrun = s.regs.overrun ∧ t.regs.cmd = s.regs.cmd ∧
    t.regs.width = s.regs.width ∧ t.regs.height = s.regs.height ∧ t.cfg = s.cfg

/-- R31, R78, R232: a step of the engine that does not complete writes no host-visible register; one that completes
sets DONE and returns the engine to IDLE, and the block is then not BUSY. -/
def Obligations.ResultsChangeOnlyAtCompletion : Prop :=
  ∀ s t : State, engineStep s = .next t →
    (t.busy = true → t.regs = s.regs) ∧
    (t.busy = false → t.Idle ∧ t.regs.done = true ∧ t.irq = t.regs.irqEn) ∧
    (t.regs.err = .illegalCommand → s.regs.err ≠ .illegalCommand → t.busy = false ∧ ∃ r, decode s.eng.cmd = .error r)

/-- The invariant holds after a power-on reset of any legal instance, whatever its memories hold. -/
def Obligations.InvariantHoldsAtReset : Prop :=
  (∀ (cfg : Config) (pix msg : Memory), cfg.Ok → Memory.wf pix → Memory.wf msg →
    Memory.Below pix (4 * cfg.pixWordsMax) → Memory.Below msg cfg.msgBytesMax → Inv (State.powerOn cfg pix msg)) ∧
  Inv State.reset

/-- From every state of the invariant a step answers a next state, never a fault or a refusal, and the invariant holds
in it, whoever moves: R174 (ENCODE cannot fail once it writes), R175 (the lookup in EMBED succeeds), R62 and R63 (no
index outside a memory). -/
def Obligations.InvariantIsKeptAndNothingFaults : Prop :=
  ∀ s : State, Inv s → ∃ t, step s = .next t ∧ Inv t

/-- R40: every counter stays in its range, so none wraps. -/
def Obligations.EngineRegistersStayInRange : Prop :=
  ∀ s t : State, Inv s → Engine.InRange s.eng → step s = .next t → Engine.InRange t.eng

/-- R40, R206: the draw count stays in its range, by the full period of the generator. -/
def Obligations.DrawCountStaysInRange : Prop :=
  ∀ s t : State, Inv s → s.eng.g ≤ 2 ^ 22 → step s = .next t → t.eng.g ≤ 2 ^ 22

/-- R77, R280: while a command runs, no host access changes anything it reads or writes, and none reaches a memory. -/
def Obligations.BusyHostCannotReachTheCommand : Prop :=
  ∀ (s : State) (a : Access), s.busy = true →
    SameCommandView s (State.hostAccess a s) ∧ SameCommandView s (hostTurn s) ∧
    ∀ (addr : BitVec 23) (n : Size), 0x1000 ≤ addr.toNat → s.respond (.read addr n) = .error

/-- R41: a command's outcome does not depend on how host steps interleave with its engine steps: any schedule that ends
with the command's last engine turn gives what the engine turns alone give. That an interleaving is a list of turns in State
is the model's choice (log entry 2, DESIGN CHOICE). -/
def Obligations.InterleavingDoesNotChangeTheOutcome : Prop :=
  ∀ (s t : State) (turns : List Turn) (n : Nat), s.rst = false → (∀ x ∈ turns, x = .host ∨ x = .engine) →
    turns.count .engine = n →
    (∀ m ≤ n, ∃ u, runSteps m { s with sched := List.replicate (n + 1) .engine } = .next u ∧ u.busy = true) →
    runSteps (n + 1) { s with sched := List.replicate (n + 1) .engine } = .next t →
    ∃ t', runSteps (turns.length + 1) { s with sched := turns ++ [.engine] } = .next t' ∧ SameCommandView t t'

/-! Whole commands. -/

/-- R233, R285: which error an ENCODE reports, in the order of the checks, after how many steps; PIXMEM is unchanged. -/
def Obligations.EncodeReportsTheFirstFailure : Prop :=
  ∀ (s : State) (trav : Trav) (embed : Embed) (chs : List Channel), Inv s → s.Quiet → s.Idle → ChannelsOk chs →
    let start := s.issue (.encode trav embed chs)
    let cap := capacityBits trav s.W s.H chs.length
    let need := codeWidth s.cfg * (s.L + 1)
    (bufferOk s.cfg s.W s.H = false →
      ∃ t, CompletesIn 1 start t ∧ t.regs.err = .invalidBuffer ∧ t.pix = s.pix) ∧
    (bufferOk s.cfg s.W s.H = true →
      (s.cfg.msgBytesMax < s.L →
        ∃ t, CompletesIn 1 start t ∧ t.regs.err = .msgLength ∧ t.regs.errValue = s.regs.msgLen ∧ t.pix = s.pix) ∧
      (s.L ≤ s.cfg.msgBytesMax →
        (∀ i < s.L, MappedBelow s i → codeOf s.cfg (s.msgRead i) = none →
          ∃ t, CompletesIn (1 + (i + 1)) start t ∧ t.regs.err = .unsupportedCharacter ∧
            t.regs.errIndex = BitVec.ofNat 32 i ∧ t.regs.errValue = (s.msgRead i).setWidth 32 ∧ t.pix = s.pix) ∧
        (MappedBelow s s.L → cap < need →
          ∃ t, CompletesIn (1 + s.L + 1) start t ∧ t.regs.err = .capacityExceeded ∧
            t.regs.errValue = BitVec.ofNat 32 need ∧ t.pix = s.pix)))

/-- R156, R175, R191: a successful ENCODE puts bit `j` of the payload in the `j`-th visited slot, by the embedding
policy, and changes no other channel of any pixel and no byte of MSGMEM. -/
def Obligations.EncodeWritesThePayloadAndNothingElse : Prop :=
  ∀ (s : State) (trav : Trav) (embed : Embed) (chs : List Channel), Inv s → s.Quiet → s.Idle → ChannelsOk chs →
    bufferOk s.cfg s.W s.H = true → s.L ≤ s.cfg.msgBytesMax → MappedBelow s s.L →
    let cap := capacityBits trav s.W s.H chs.length
    let k := codeWidth s.cfg
    k * (s.L + 1) ≤ cap →
    ∃ n t, CompletesIn n (s.issue (.encode trav embed chs)) t ∧ t.regs.err = .ok ∧
      t.regs.result = BitVec.ofNat 32 (k * (s.L + 1)) ∧ t.msg = s.msg ∧
      (∀ j < k * (s.L + 1), ∃ sl, VisitsAt trav (s.pixRead 0) cap chs j sl ∧
        chan (t.pixRead sl.p) sl.ch =
          embedBit embed (chan (s.pixRead sl.p) sl.ch) ((payloadCode s s.L (j / k)).testBit (k - 1 - j % k))) ∧
      ∀ p ch, (∀ j < k * (s.L + 1), ¬ VisitsAt trav (s.pixRead 0) cap chs j ⟨p, ch⟩) →
        chan (t.pixRead p) ch = chan (s.pixRead p) ch

/-- R190 for the sequential traversal: a DECODE after an ENCODE, no PIXMEM write between them, gives the message back.
`r` is the state in which the DECODE is issued: the host may have done anything else meanwhile. -/
def Obligations.SequentialRoundTrip : Prop :=
  ∀ (s : State) (embed : Embed) (chs : List Channel), Inv s → s.Quiet → s.Idle → ChannelsOk chs →
    bufferOk s.cfg s.W s.H = true → s.L ≤ s.cfg.msgBytesMax → MappedBelow s s.L →
    codeWidth s.cfg * (s.L + 1) ≤ s.W * s.H * chs.length →
    ∃ n t, CompletesIn n (s.issue (.encode .seq embed chs)) t ∧ t.regs.err = .ok ∧
      ∀ r : State, Inv r → r.Quiet → r.Idle → r.cfg = t.cfg → r.pix = t.pix → r.W = t.W → r.H = t.H →
        ∃ n' u, CompletesIn n' (r.issue (.decode .seq chs)) u ∧ u.regs.err = .ok ∧ u.L = s.L ∧
          ∀ i < s.L, u.msgRead i = s.msgRead i

/-- R190 for the scatter traversal: as the sequential round trip, the visit order re-derived from pixel 0. -/
def Obligations.ScatterRoundTrip : Prop :=
  ∀ (s : State) (embed : Embed) (chs : List Channel), Inv s → s.Quiet → s.Idle → ChannelsOk chs →
    bufferOk s.cfg s.W s.H = true → s.L ≤ s.cfg.msgBytesMax → MappedBelow s s.L →
    codeWidth s.cfg * (s.L + 1) ≤ (s.W * s.H - 1) * chs.length →
    ∃ n t, CompletesIn n (s.issue (.encode .scat embed chs)) t ∧ t.regs.err = .ok ∧ t.pixRead 0 = s.pixRead 0 ∧
      ∀ r : State, Inv r → r.Quiet → r.Idle → r.cfg = t.cfg → r.pix = t.pix → r.W = t.W → r.H = t.H →
        ∃ n' u, CompletesIn n' (r.issue (.decode .scat chs)) u ∧ u.regs.err = .ok ∧ u.L = s.L ∧
          ∀ i < s.L, u.msgRead i = s.msgRead i

/-- R285 for the sequential traversal: a successful ENCODE takes exactly `1 + L + 1 + 1 + K*(L+1)` steps, a DECODE at
most `2 + cap + cap / K + 1`. -/
def Obligations.SequentialStepCounts : Prop :=
  ∀ (s : State) (embed : Embed) (chs : List Channel), Inv s → s.Quiet → s.Idle → ChannelsOk chs →
    bufferOk s.cfg s.W s.H = true →
    (s.L ≤ s.cfg.msgBytesMax → MappedBelow s s.L →
      codeWidth s.cfg * (s.L + 1) ≤ s.W * s.H * chs.length →
      ∃ t, CompletesIn (1 + s.L + 1 + 1 + codeWidth s.cfg * (s.L + 1)) (s.issue (.encode .seq embed chs)) t ∧
        t.regs.err = .ok) ∧
    ∃ n t, CompletesIn n (s.issue (.decode .seq chs)) t ∧
      n ≤ 2 + s.W * s.H * chs.length + s.W * s.H * chs.length / codeWidth s.cfg + 1

/-- R285 for the scatter traversal: an ENCODE that passes its checks takes at most `1 + L + 1 + 1 + 2^m` steps, a DECODE
at most `2 + 2^m + cap / K + 1`. -/
def Obligations.ScatterStepBounds : Prop :=
  ∀ (s : State) (embed : Embed) (chs : List Channel), Inv s → s.Quiet → s.Idle → ChannelsOk chs →
    bufferOk s.cfg s.W s.H = true →
    let cap := (s.W * s.H - 1) * chs.length
    (s.L ≤ s.cfg.msgBytesMax → MappedBelow s s.L → codeWidth s.cfg * (s.L + 1) ≤ cap →
      ∃ n t, CompletesIn n (s.issue (.encode .scat embed chs)) t ∧ t.regs.err = .ok ∧
        n ≤ 1 + s.L + 1 + 1 + 2 ^ genExponent cap) ∧
    ∃ n t, CompletesIn n (s.issue (.decode .scat chs)) t ∧
      n ≤ 2 + 2 ^ genExponent cap + cap / codeWidth s.cfg + 1

/-- R188 (a), under either traversal: a buffer whose first `K` visited LSBs are all 0 decodes to the empty message; with
fewer than `K` slots there is no payload, whatever the LSBs; and so an all-zero buffer decodes to the empty message or to no
payload, by its capacity. -/
def Obligations.ZeroBufferDecodesToEmptyMessage : Prop :=
  ∀ (s : State) (trav : Trav) (chs : List Channel), Inv s → s.Quiet → s.Idle → ChannelsOk chs →
    bufferOk s.cfg s.W s.H = true →
    let cap := capacityBits trav s.W s.H chs.length
    let k := codeWidth s.cfg
    let endsWith := fun (err : ErrCode) => ∃ n t, CompletesIn n (s.issue (.decode trav chs)) t ∧ t.regs.err = err ∧
      t.L = 0 ∧ t.regs.result = 0 ∧ t.regs.errIndex = 0 ∧ t.regs.errValue = 0
    (k ≤ cap →
      (∀ j < k, ∀ sl, VisitsAt trav (s.pixRead 0) cap chs j sl → (chan (s.pixRead sl.p) sl.ch).getLsbD 0 = false) →
      endsWith .ok) ∧
    (cap < k → endsWith .noPayloadFound) ∧
    ((∀ p < s.W * s.H, s.pixRead p = 0) → endsWith (if k ≤ cap then .ok else .noPayloadFound))
end

