-- ==== Sys2Proof/Laws/State.lean ====
section
/-! SUPPORT. What each update of State does to each field: one lemma per field per update. -/

namespace Sys2Proof.Machine

@[simp] theorem State.complete_cfg (s : State) (err : ErrCode) (idx val : Word) :
    (s.complete err idx val).cfg = s.cfg := rfl
@[simp] theorem State.complete_regs (s : State) (err : ErrCode) (idx val : Word) :
    (s.complete err idx val).regs = { s.regs with err := err, errIndex := idx, errValue := val, done := true } := rfl
@[simp] theorem State.complete_eng (s : State) (err : ErrCode) (idx val : Word) :
    (s.complete err idx val).eng = { s.eng with state := .idle } := rfl
@[simp] theorem State.complete_pix (s : State) (err : ErrCode) (idx val : Word) :
    (s.complete err idx val).pix = s.pix := rfl
@[simp] theorem State.complete_msg (s : State) (err : ErrCode) (idx val : Word) :
    (s.complete err idx val).msg = s.msg := rfl
@[simp] theorem State.complete_rst (s : State) (err : ErrCode) (idx val : Word) :
    (s.complete err idx val).rst = s.rst := rfl
@[simp] theorem State.complete_host (s : State) (err : ErrCode) (idx val : Word) :
    (s.complete err idx val).host = s.host := rfl
@[simp] theorem State.complete_sched (s : State) (err : ErrCode) (idx val : Word) :
    (s.complete err idx val).sched = s.sched := rfl
@[simp] theorem State.complete_resp (s : State) (err : ErrCode) (idx val : Word) :
    (s.complete err idx val).resp = s.resp := rfl

@[simp] theorem State.accept_cfg (s : State) (w : Word) : (s.accept w).cfg = s.cfg := rfl
@[simp] theorem State.accept_regs (s : State) (w : Word) :
    (s.accept w).regs = { s.regs with cmd := w, done := false } := rfl
@[simp] theorem State.accept_eng (s : State) (w : Word) :
    (s.accept w).eng = { s.eng with cmd := w, state := .check } := rfl
@[simp] theorem State.accept_pix (s : State) (w : Word) : (s.accept w).pix = s.pix := rfl
@[simp] theorem State.accept_msg (s : State) (w : Word) : (s.accept w).msg = s.msg := rfl
@[simp] theorem State.accept_rst (s : State) (w : Word) : (s.accept w).rst = s.rst := rfl
@[simp] theorem State.accept_host (s : State) (w : Word) : (s.accept w).host = s.host := rfl
@[simp] theorem State.accept_sched (s : State) (w : Word) : (s.accept w).sched = s.sched := rfl
@[simp] theorem State.accept_resp (s : State) (w : Word) : (s.accept w).resp = s.resp := rfl

@[simp] theorem State.setResult_cfg (s : State) (v : Word) : (s.setResult v).cfg = s.cfg := rfl
@[simp] theorem State.setResult_regs (s : State) (v : Word) :
    (s.setResult v).regs = { s.regs with result := v } := rfl
@[simp] theorem State.setResult_eng (s : State) (v : Word) : (s.setResult v).eng = s.eng := rfl
@[simp] theorem State.setResult_pix (s : State) (v : Word) : (s.setResult v).pix = s.pix := rfl
@[simp] theorem State.setResult_msg (s : State) (v : Word) : (s.setResult v).msg = s.msg := rfl
@[simp] theorem State.setResult_rst (s : State) (v : Word) : (s.setResult v).rst = s.rst := rfl
@[simp] theorem State.setResult_host (s : State) (v : Word) : (s.setResult v).host = s.host := rfl
@[simp] theorem State.setResult_sched (s : State) (v : Word) : (s.setResult v).sched = s.sched := rfl
@[simp] theorem State.setResult_resp (s : State) (v : Word) : (s.setResult v).resp = s.resp := rfl

@[simp] theorem State.setCapacity_cfg (s : State) (v : Word) : (s.setCapacity v).cfg = s.cfg := rfl
@[simp] theorem State.setCapacity_regs (s : State) (v : Word) :
    (s.setCapacity v).regs = { s.regs with capacity := v } := rfl
@[simp] theorem State.setCapacity_eng (s : State) (v : Word) : (s.setCapacity v).eng = s.eng := rfl
@[simp] theorem State.setCapacity_pix (s : State) (v : Word) : (s.setCapacity v).pix = s.pix := rfl
@[simp] theorem State.setCapacity_msg (s : State) (v : Word) : (s.setCapacity v).msg = s.msg := rfl
@[simp] theorem State.setCapacity_rst (s : State) (v : Word) : (s.setCapacity v).rst = s.rst := rfl
@[simp] theorem State.setCapacity_host (s : State) (v : Word) : (s.setCapacity v).host = s.host := rfl
@[simp] theorem State.setCapacity_sched (s : State) (v : Word) : (s.setCapacity v).sched = s.sched := rfl
@[simp] theorem State.setCapacity_resp (s : State) (v : Word) : (s.setCapacity v).resp = s.resp := rfl

@[simp] theorem State.setMsgLen_cfg (s : State) (v : Word) : (s.setMsgLen v).cfg = s.cfg := rfl
@[simp] theorem State.setMsgLen_regs (s : State) (v : Word) :
    (s.setMsgLen v).regs = { s.regs with msgLen := v } := rfl
@[simp] theorem State.setMsgLen_eng (s : State) (v : Word) : (s.setMsgLen v).eng = s.eng := rfl
@[simp] theorem State.setMsgLen_pix (s : State) (v : Word) : (s.setMsgLen v).pix = s.pix := rfl
@[simp] theorem State.setMsgLen_msg (s : State) (v : Word) : (s.setMsgLen v).msg = s.msg := rfl
@[simp] theorem State.setMsgLen_rst (s : State) (v : Word) : (s.setMsgLen v).rst = s.rst := rfl
@[simp] theorem State.setMsgLen_host (s : State) (v : Word) : (s.setMsgLen v).host = s.host := rfl
@[simp] theorem State.setMsgLen_sched (s : State) (v : Word) : (s.setMsgLen v).sched = s.sched := rfl
@[simp] theorem State.setMsgLen_resp (s : State) (v : Word) : (s.setMsgLen v).resp = s.resp := rfl

@[simp] theorem State.toPhase_cfg (s : State) (p : Phase) : (s.toPhase p).cfg = s.cfg := rfl
@[simp] theorem State.toPhase_regs (s : State) (p : Phase) : (s.toPhase p).regs = s.regs := rfl
@[simp] theorem State.toPhase_eng (s : State) (p : Phase) : (s.toPhase p).eng = { s.eng with state := p } := rfl
@[simp] theorem State.toPhase_pix (s : State) (p : Phase) : (s.toPhase p).pix = s.pix := rfl
@[simp] theorem State.toPhase_msg (s : State) (p : Phase) : (s.toPhase p).msg = s.msg := rfl
@[simp] theorem State.toPhase_rst (s : State) (p : Phase) : (s.toPhase p).rst = s.rst := rfl
@[simp] theorem State.toPhase_host (s : State) (p : Phase) : (s.toPhase p).host = s.host := rfl
@[simp] theorem State.toPhase_sched (s : State) (p : Phase) : (s.toPhase p).sched = s.sched := rfl
@[simp] theorem State.toPhase_resp (s : State) (p : Phase) : (s.toPhase p).resp = s.resp := rfl

@[simp] theorem State.setChannelValue_eq (s : State) (x y : Nat) (v : Word) :
    s.setChannelValue x y v = s.pixWrite (pixIndex s.regs.width.toNat x y) v := rfl

@[simp] theorem State.pixWrite_cfg (s : State) (p : Nat) (v : Word) : (s.pixWrite p v).cfg = s.cfg := rfl
@[simp] theorem State.pixWrite_regs (s : State) (p : Nat) (v : Word) : (s.pixWrite p v).regs = s.regs := rfl
@[simp] theorem State.pixWrite_eng (s : State) (p : Nat) (v : Word) : (s.pixWrite p v).eng = s.eng := rfl
@[simp] theorem State.pixWrite_pix (s : State) (p : Nat) (v : Word) :
    (s.pixWrite p v).pix = Memory.writeWord s.pix (4 * p) v := rfl
@[simp] theorem State.pixWrite_msg (s : State) (p : Nat) (v : Word) : (s.pixWrite p v).msg = s.msg := rfl
@[simp] theorem State.pixWrite_rst (s : State) (p : Nat) (v : Word) : (s.pixWrite p v).rst = s.rst := rfl
@[simp] theorem State.pixWrite_host (s : State) (p : Nat) (v : Word) : (s.pixWrite p v).host = s.host := rfl
@[simp] theorem State.pixWrite_sched (s : State) (p : Nat) (v : Word) : (s.pixWrite p v).sched = s.sched := rfl
@[simp] theorem State.pixWrite_resp (s : State) (p : Nat) (v : Word) : (s.pixWrite p v).resp = s.resp := rfl

@[simp] theorem State.msgWrite_cfg (s : State) (i : Nat) (b : Byte) : (s.msgWrite i b).cfg = s.cfg := rfl
@[simp] theorem State.msgWrite_regs (s : State) (i : Nat) (b : Byte) : (s.msgWrite i b).regs = s.regs := rfl
@[simp] theorem State.msgWrite_eng (s : State) (i : Nat) (b : Byte) : (s.msgWrite i b).eng = s.eng := rfl
@[simp] theorem State.msgWrite_pix (s : State) (i : Nat) (b : Byte) : (s.msgWrite i b).pix = s.pix := rfl
@[simp] theorem State.msgWrite_msg (s : State) (i : Nat) (b : Byte) :
    (s.msgWrite i b).msg = Memory.write s.msg i b := rfl
@[simp] theorem State.msgWrite_rst (s : State) (i : Nat) (b : Byte) : (s.msgWrite i b).rst = s.rst := rfl
@[simp] theorem State.msgWrite_host (s : State) (i : Nat) (b : Byte) : (s.msgWrite i b).host = s.host := rfl
@[simp] theorem State.msgWrite_sched (s : State) (i : Nat) (b : Byte) : (s.msgWrite i b).sched = s.sched := rfl
@[simp] theorem State.msgWrite_resp (s : State) (i : Nat) (b : Byte) : (s.msgWrite i b).resp = s.resp := rfl

@[simp] theorem State.dropWrite_cfg (s : State) : (s.dropWrite).cfg = s.cfg := rfl
@[simp] theorem State.dropWrite_regs (s : State) : (s.dropWrite).regs = { s.regs with overrun := true } := rfl
@[simp] theorem State.dropWrite_eng (s : State) : (s.dropWrite).eng = s.eng := rfl
@[simp] theorem State.dropWrite_pix (s : State) : (s.dropWrite).pix = s.pix := rfl
@[simp] theorem State.dropWrite_msg (s : State) : (s.dropWrite).msg = s.msg := rfl
@[simp] theorem State.dropWrite_rst (s : State) : (s.dropWrite).rst = s.rst := rfl
@[simp] theorem State.dropWrite_host (s : State) : (s.dropWrite).host = s.host := rfl
@[simp] theorem State.dropWrite_sched (s : State) : (s.dropWrite).sched = s.sched := rfl
@[simp] theorem State.dropWrite_resp (s : State) : (s.dropWrite).resp = s.resp := rfl

@[simp] theorem State.writeCtrl_cfg (s : State) (v : Word) : (s.writeCtrl v).cfg = s.cfg := rfl
@[simp] theorem State.writeCtrl_regs (s : State) (v : Word) :
    (s.writeCtrl v).regs = { s.regs with irqEn := v.getLsbD 0 } := rfl
@[simp] theorem State.writeCtrl_eng (s : State) (v : Word) : (s.writeCtrl v).eng = s.eng := rfl
@[simp] theorem State.writeCtrl_pix (s : State) (v : Word) : (s.writeCtrl v).pix = s.pix := rfl
@[simp] theorem State.writeCtrl_msg (s : State) (v : Word) : (s.writeCtrl v).msg = s.msg := rfl
@[simp] theorem State.writeCtrl_rst (s : State) (v : Word) : (s.writeCtrl v).rst = s.rst := rfl
@[simp] theorem State.writeCtrl_host (s : State) (v : Word) : (s.writeCtrl v).host = s.host := rfl
@[simp] theorem State.writeCtrl_sched (s : State) (v : Word) : (s.writeCtrl v).sched = s.sched := rfl
@[simp] theorem State.writeCtrl_resp (s : State) (v : Word) : (s.writeCtrl v).resp = s.resp := rfl

@[simp] theorem State.writeStatus_cfg (s : State) (v : Word) : (s.writeStatus v).cfg = s.cfg := rfl
@[simp] theorem State.writeStatus_regs (s : State) (v : Word) :
    (s.writeStatus v).regs = { s.regs with done := s.regs.done && !v.getLsbD 1, overrun := s.regs.overrun && !v.getLsbD 2 } := rfl
@[simp] theorem State.writeStatus_eng (s : State) (v : Word) : (s.writeStatus v).eng = s.eng := rfl
@[simp] theorem State.writeStatus_pix (s : State) (v : Word) : (s.writeStatus v).pix = s.pix := rfl
@[simp] theorem State.writeStatus_msg (s : State) (v : Word) : (s.writeStatus v).msg = s.msg := rfl
@[simp] theorem State.writeStatus_rst (s : State) (v : Word) : (s.writeStatus v).rst = s.rst := rfl
@[simp] theorem State.writeStatus_host (s : State) (v : Word) : (s.writeStatus v).host = s.host := rfl
@[simp] theorem State.writeStatus_sched (s : State) (v : Word) : (s.writeStatus v).sched = s.sched := rfl
@[simp] theorem State.writeStatus_resp (s : State) (v : Word) : (s.writeStatus v).resp = s.resp := rfl

@[simp] theorem State.recordSeed_cfg (s : State) (trav : Trav) : (s.recordSeed trav).cfg = s.cfg := by
  cases trav <;> rfl
@[simp] theorem State.recordSeed_regs (s : State) (trav : Trav) :
    (s.recordSeed trav).regs =
      { s.regs with seed := match trav with | .seq => s.regs.seed | .scat => s.pixRead 0 } := by
  cases trav <;> rfl
@[simp] theorem State.recordSeed_eng (s : State) (trav : Trav) : (s.recordSeed trav).eng = s.eng := by
  cases trav <;> rfl
@[simp] theorem State.recordSeed_pix (s : State) (trav : Trav) : (s.recordSeed trav).pix = s.pix := by
  cases trav <;> rfl
@[simp] theorem State.recordSeed_msg (s : State) (trav : Trav) : (s.recordSeed trav).msg = s.msg := by
  cases trav <;> rfl
@[simp] theorem State.recordSeed_rst (s : State) (trav : Trav) : (s.recordSeed trav).rst = s.rst := by
  cases trav <;> rfl
@[simp] theorem State.recordSeed_host (s : State) (trav : Trav) : (s.recordSeed trav).host = s.host := by
  cases trav <;> rfl
@[simp] theorem State.recordSeed_sched (s : State) (trav : Trav) : (s.recordSeed trav).sched = s.sched := by
  cases trav <;> rfl
@[simp] theorem State.recordSeed_resp (s : State) (trav : Trav) : (s.recordSeed trav).resp = s.resp := by
  cases trav <;> rfl

@[simp] theorem captureOperands_cfg (s : State) (chs : List Channel) : (captureOperands chs s).cfg = s.cfg := rfl
@[simp] theorem captureOperands_regs (s : State) (chs : List Channel) : (captureOperands chs s).regs = s.regs := rfl
@[simp] theorem captureOperands_eng (s : State) (chs : List Channel) :
    (captureOperands chs s).eng = { s.eng with
      w := s.regs.width, h := s.regs.height, len := s.regs.msgLen, k := codeWidth s.cfg, chs := chs,
      nc := chs.length, i := 0, t := 0, g := 0, acc := 0, nb := 0 } := rfl
@[simp] theorem captureOperands_pix (s : State) (chs : List Channel) : (captureOperands chs s).pix = s.pix := rfl
@[simp] theorem captureOperands_msg (s : State) (chs : List Channel) : (captureOperands chs s).msg = s.msg := rfl
@[simp] theorem captureOperands_rst (s : State) (chs : List Channel) : (captureOperands chs s).rst = s.rst := rfl
@[simp] theorem captureOperands_host (s : State) (chs : List Channel) : (captureOperands chs s).host = s.host := rfl
@[simp] theorem captureOperands_sched (s : State) (chs : List Channel) :
    (captureOperands chs s).sched = s.sched := rfl
@[simp] theorem captureOperands_resp (s : State) (chs : List Channel) : (captureOperands chs s).resp = s.resp := rfl

@[simp] theorem setCap_cfg (s : State) (trav : Trav) : (setCap trav s).cfg = s.cfg := rfl
@[simp] theorem setCap_regs (s : State) (trav : Trav) : (setCap trav s).regs = s.regs := rfl
@[simp] theorem setCap_eng (s : State) (trav : Trav) :
    (setCap trav s).eng = { s.eng with cap := capacityBits trav s.eng.w.toNat s.eng.h.toNat s.eng.nc } := rfl
@[simp] theorem setCap_pix (s : State) (trav : Trav) : (setCap trav s).pix = s.pix := rfl
@[simp] theorem setCap_msg (s : State) (trav : Trav) : (setCap trav s).msg = s.msg := rfl
@[simp] theorem setCap_rst (s : State) (trav : Trav) : (setCap trav s).rst = s.rst := rfl
@[simp] theorem setCap_host (s : State) (trav : Trav) : (setCap trav s).host = s.host := rfl
@[simp] theorem setCap_sched (s : State) (trav : Trav) : (setCap trav s).sched = s.sched := rfl
@[simp] theorem setCap_resp (s : State) (trav : Trav) : (setCap trav s).resp = s.resp := rfl

@[simp] theorem assertReset_cfg (s : State) : (assertReset s).cfg = s.cfg := rfl
@[simp] theorem assertReset_regs (s : State) : (assertReset s).regs = Regs.reset := rfl
@[simp] theorem assertReset_eng (s : State) : (assertReset s).eng = Engine.reset := rfl
@[simp] theorem assertReset_pix (s : State) : (assertReset s).pix = s.pix := rfl
@[simp] theorem assertReset_msg (s : State) : (assertReset s).msg = s.msg := rfl
@[simp] theorem assertReset_rst (s : State) : (assertReset s).rst = true := rfl
@[simp] theorem assertReset_host (s : State) : (assertReset s).host = s.host := rfl
@[simp] theorem assertReset_sched (s : State) : (assertReset s).sched = s.sched := rfl
@[simp] theorem assertReset_resp (s : State) : (assertReset s).resp = s.resp := rfl

@[simp] theorem releaseReset_cfg (s : State) : (releaseReset s).cfg = s.cfg := rfl
@[simp] theorem releaseReset_regs (s : State) : (releaseReset s).regs = s.regs := rfl
@[simp] theorem releaseReset_eng (s : State) : (releaseReset s).eng = s.eng := rfl
@[simp] theorem releaseReset_pix (s : State) : (releaseReset s).pix = s.pix := rfl
@[simp] theorem releaseReset_msg (s : State) : (releaseReset s).msg = s.msg := rfl
@[simp] theorem releaseReset_rst (s : State) : (releaseReset s).rst = false := rfl
@[simp] theorem releaseReset_host (s : State) : (releaseReset s).host = s.host := rfl
@[simp] theorem releaseReset_sched (s : State) : (releaseReset s).sched = s.sched := rfl
@[simp] theorem releaseReset_resp (s : State) : (releaseReset s).resp = s.resp := rfl

@[simp] theorem popTurn_cfg (s : State) : (popTurn s).cfg = s.cfg := rfl
@[simp] theorem popTurn_regs (s : State) : (popTurn s).regs = s.regs := rfl
@[simp] theorem popTurn_eng (s : State) : (popTurn s).eng = s.eng := rfl
@[simp] theorem popTurn_pix (s : State) : (popTurn s).pix = s.pix := rfl
@[simp] theorem popTurn_msg (s : State) : (popTurn s).msg = s.msg := rfl
@[simp] theorem popTurn_rst (s : State) : (popTurn s).rst = s.rst := rfl
@[simp] theorem popTurn_host (s : State) : (popTurn s).host = s.host := rfl
@[simp] theorem popTurn_sched (s : State) : (popTurn s).sched = s.sched.tail := rfl
@[simp] theorem popTurn_resp (s : State) : (popTurn s).resp = s.resp := rfl

@[simp] theorem travInit_cfg (s : State) (trav : Trav) : (travInit trav s).cfg = s.cfg := by
  cases trav <;> rfl
@[simp] theorem travInit_regs (s : State) (trav : Trav) : (travInit trav s).regs = s.regs := by
  cases trav <;> rfl
@[simp] theorem travInit_eng (s : State) (trav : Trav) :
    (travInit trav s).eng = match trav with | .seq => s.eng | .scat => scatInit (s.pixRead 0) s.eng := by
  cases trav <;> rfl
@[simp] theorem travInit_pix (s : State) (trav : Trav) : (travInit trav s).pix = s.pix := by
  cases trav <;> rfl
@[simp] theorem travInit_msg (s : State) (trav : Trav) : (travInit trav s).msg = s.msg := by
  cases trav <;> rfl
@[simp] theorem travInit_rst (s : State) (trav : Trav) : (travInit trav s).rst = s.rst := by
  cases trav <;> rfl
@[simp] theorem travInit_host (s : State) (trav : Trav) : (travInit trav s).host = s.host := by
  cases trav <;> rfl
@[simp] theorem travInit_sched (s : State) (trav : Trav) : (travInit trav s).sched = s.sched := by
  cases trav <;> rfl
@[simp] theorem travInit_resp (s : State) (trav : Trav) : (travInit trav s).resp = s.resp := by
  cases trav <;> rfl

/-- BUSY depends on `E.state` alone (R28). -/
theorem State.busy_eq_false (s : State) : s.busy = false ↔ s.Idle := by simp [State.busy]

@[inherit_doc State.busy_eq_false]
theorem State.busy_eq_true (s : State) : s.busy = true ↔ ¬ s.Idle := by simp [State.busy]

/-- A completion ends the command (R232). -/
@[simp] theorem State.complete_busy (s : State) (err : ErrCode) (idx val : Word) :
    (s.complete err idx val).busy = false := rfl

/-- A completion leaves the engine idle (R232). -/
theorem State.complete_idle (s : State) (err : ErrCode) (idx val : Word) : (s.complete err idx val).Idle := rfl

/-- An acceptance starts one (R28, R32). -/
@[simp] theorem State.accept_busy (s : State) (w : Word) : (s.accept w).busy = true := rfl

end Sys2Proof.Machine
end

