-- ==== Sys2Proof/Laws/Memory.lean ====
section
/-! SUPPORT. The laws of memory: a read after a write, the canonical form and the size kept by every write, equal reads
make equal memories, and the same for little-endian words (spec 20_memory.md R62, R63, R73). -/

namespace Sys2Proof.Machine

@[simp] theorem Memory.read_nil (a : Nat) : Memory.read [] a = unlistedByte := rfl

theorem Memory.read_cons (k a : Nat) (v : Byte) (m : Memory) :
    Memory.read ((k, v) :: m) a = if k = a then v else Memory.read m a := rfl

/-- An address below every listed one is unlisted. -/
theorem Memory.read_of_lt {m : Memory} {a : Nat} (h : ∀ c ∈ m, a < c.1) : Memory.read m a = unlistedByte := by
  induction m with
  | nil => rfl
  | cons c m ih =>
    obtain ⟨k, v⟩ := c
    have hk : a < k := h (k, v) (by simp)
    rw [Memory.read_cons, if_neg (by omega)]
    exact ih fun c hc => h c (by simp [hc])

theorem Memory.wf_tail {c : Host.Cell} {m : Memory} (h : Memory.wf (c :: m)) : Memory.wf m :=
  ⟨(List.pairwise_cons.mp h.1).2, fun d hd => h.2 d (by simp [hd])⟩

theorem Memory.wf_head_lt {c : Host.Cell} {m : Memory} (h : Memory.wf (c :: m)) : ∀ d ∈ m, c.1 < d.1 :=
  (List.pairwise_cons.mp h.1).1

/-- Reading what was written gives it back. -/
theorem Memory.read_write_same {m : Memory} (h : Memory.wf m) (a : Nat) (v : Byte) :
    Memory.read (Memory.write m a v) a = v := by
  induction m with
  | nil =>
    rw [Memory.write]
    split
    · simp [*]
    · simp [Memory.read_cons]
  | cons c m ih =>
    obtain ⟨k, u⟩ := c
    have hlt := Memory.wf_head_lt h
    rw [Memory.write]
    split
    · split
      · rw [Memory.read_of_lt, ‹v = _›]
        intro d hd
        rcases List.mem_cons.mp hd with rfl | hd
        · assumption
        · exact Nat.lt_trans ‹a < k› (hlt d hd)
      · simp [Memory.read_cons]
    · split
      · split
        · subst ‹a = k›
          rw [Memory.read_of_lt hlt, ‹v = _›]
        · simp [Memory.read_cons]
      · rw [Memory.read_cons, if_neg (by omega)]
        exact ih (Memory.wf_tail h)

/-- A write leaves every other address alone. -/
theorem Memory.read_write_other (m : Memory) {a b : Nat} (v : Byte) (h : b ≠ a) :
    Memory.read (Memory.write m a v) b = Memory.read m b := by
  induction m with
  | nil =>
    rw [Memory.write]
    split
    · rfl
    · rw [Memory.read_cons, if_neg (by omega)]
  | cons c m ih =>
    obtain ⟨k, u⟩ := c
    rw [Memory.write]
    split
    · split
      · rfl
      · rw [Memory.read_cons, if_neg (by omega)]
    · split
      · split
        · rw [Memory.read_cons, if_neg (by omega)]
        · rw [Memory.read_cons, if_neg (by omega), Memory.read_cons, if_neg (by omega)]
      · rw [Memory.read_cons, Memory.read_cons, ih]

theorem Memory.read_write {m : Memory} (h : Memory.wf m) (a b : Nat) (v : Byte) :
    Memory.read (Memory.write m a v) b = if b = a then v else Memory.read m b := by
  split
  · subst ‹b = a›
    exact Memory.read_write_same h b v
  · exact Memory.read_write_other m v ‹_›

/-- What a write lists: cells it had, and the one written. -/
theorem Memory.mem_write {m : Memory} {a : Nat} {v : Byte} {c : Host.Cell} (h : c ∈ Memory.write m a v) :
    c ∈ m ∨ (c = (a, v) ∧ v ≠ unlistedByte) := by
  induction m with
  | nil =>
    rw [Memory.write] at h
    split at h <;> simp_all
  | cons d m ih =>
    obtain ⟨k, u⟩ := d
    rw [Memory.write] at h
    split at h
    · split at h <;> simp_all
      rcases h with h | h | h <;> simp [h]
    · split at h
      · split at h
        · exact .inl (by simp [h])
        · rcases List.mem_cons.mp h with h | h
          · exact .inr ⟨h, ‹_›⟩
          · exact .inl (by simp [h])
      · rcases List.mem_cons.mp h with h | h
        · exact .inl (by simp [h])
        · rcases ih h with h | h
          · exact .inl (by simp [h])
          · exact .inr h

/-- A write keeps the canonical form. -/
theorem Memory.wf_write {m : Memory} (h : Memory.wf m) (a : Nat) (v : Byte) : Memory.wf (Memory.write m a v) := by
  constructor
  · induction m with
    | nil =>
      rw [Memory.write]
      split <;> simp
    | cons d m ih =>
      obtain ⟨k, u⟩ := d
      have hlt := Memory.wf_head_lt h
      have ht := Memory.wf_tail h
      rw [Memory.write]
      split
      · split
        · exact h.1
        · refine List.pairwise_cons.mpr ⟨fun d hd => ?_, h.1⟩
          rcases List.mem_cons.mp hd with rfl | hd
          · assumption
          · exact Nat.lt_trans ‹a < k› (hlt d hd)
      · split
        · split
          · exact ht.1
          · exact List.pairwise_cons.mpr ⟨fun d hd => by have := hlt d hd; simp only at this ⊢; omega, ht.1⟩
        · refine List.pairwise_cons.mpr ⟨fun d hd => ?_, ih ht⟩
          rcases Memory.mem_write hd with hd | ⟨rfl, -⟩
          · exact hlt d hd
          · simp only
            omega
  · intro c hc
    rcases Memory.mem_write hc with hc | ⟨rfl, hv⟩
    · exact h.2 c hc
    · exact hv

/-- A write inside a size keeps the memory inside it. -/
theorem Memory.below_write {m : Memory} {n a : Nat} (h : Memory.Below m n) (ha : a < n) (v : Byte) :
    Memory.Below (Memory.write m a v) n := by
  intro c hc
  rcases Memory.mem_write hc with hc | ⟨rfl, -⟩
  · exact h c hc
  · exact ha

/-- Memories in canonical form that read alike are equal. -/
theorem Memory.ext_of_read {m n : Memory} (hm : Memory.wf m) (hn : Memory.wf n)
    (h : ∀ a, Memory.read m a = Memory.read n a) : m = n := by
  induction m generalizing n with
  | nil =>
    cases n with
    | nil => rfl
    | cons d n =>
      have := h d.1
      rw [Memory.read_nil, Memory.read_cons, if_pos rfl] at this
      exact absurd this.symm (hn.2 d (by simp))
  | cons c m ih =>
    cases n with
    | nil =>
      have := h c.1
      rw [Memory.read_nil, Memory.read_cons, if_pos rfl] at this
      exact absurd this (hm.2 c (by simp))
    | cons d n =>
      obtain ⟨a, u⟩ := c
      obtain ⟨b, v⟩ := d
      have hu : u ≠ unlistedByte := hm.2 (a, u) (by simp)
      have hv : v ≠ unlistedByte := hn.2 (b, v) (by simp)
      have hma := Memory.wf_head_lt hm
      have hnb := Memory.wf_head_lt hn
      have hab : a = b := by
        rcases Nat.lt_trichotomy a b with hlt | heq | hlt
        · have := h a
          rw [Memory.read_cons, if_pos rfl, Memory.read_of_lt] at this
          · exact absurd this hu
          · intro d hd
            rcases List.mem_cons.mp hd with rfl | hd
            · exact hlt
            · exact Nat.lt_trans hlt (hnb d hd)
        · exact heq
        · have := h b
          rw [Memory.read_of_lt, Memory.read_cons, if_pos rfl] at this
          · exact absurd this.symm hv
          · intro d hd
            rcases List.mem_cons.mp hd with rfl | hd
            · exact hlt
            · exact Nat.lt_trans hlt (hma d hd)
      subst hab
      have huv : u = v := by simpa [Memory.read_cons] using h a
      subst huv
      congr 1
      refine ih (Memory.wf_tail hm) (Memory.wf_tail hn) fun x => ?_
      by_cases hx : a = x
      · subst hx
        rw [Memory.read_of_lt hma, Memory.read_of_lt hnb]
      · simpa [Memory.read_cons, hx] using h x

/-! Words. -/

theorem byteOf_wordOf (b0 b1 b2 b3 : Byte) :
    byteOf (wordOf b0 b1 b2 b3) 0 = b0 ∧ byteOf (wordOf b0 b1 b2 b3) 1 = b1 ∧
      byteOf (wordOf b0 b1 b2 b3) 2 = b2 ∧ byteOf (wordOf b0 b1 b2 b3) 3 = b3 := by
  refine ⟨?_, ?_, ?_, ?_⟩ <;>
  · unfold byteOf wordOf
    ext i hi
    simp only [BitVec.getElem_extractLsb', BitVec.getLsbD_append]
    repeat' split
    all_goals first
      | (exfalso; omega)
      | (rw [← BitVec.getLsbD_eq_getElem]; congr 1; omega)

@[simp] theorem byteOf_wordOf_zero (b0 b1 b2 b3 : Byte) : byteOf (wordOf b0 b1 b2 b3) 0 = b0 :=
  (byteOf_wordOf b0 b1 b2 b3).1
@[simp] theorem byteOf_wordOf_one (b0 b1 b2 b3 : Byte) : byteOf (wordOf b0 b1 b2 b3) 1 = b1 :=
  (byteOf_wordOf b0 b1 b2 b3).2.1
@[simp] theorem byteOf_wordOf_two (b0 b1 b2 b3 : Byte) : byteOf (wordOf b0 b1 b2 b3) 2 = b2 :=
  (byteOf_wordOf b0 b1 b2 b3).2.2.1
@[simp] theorem byteOf_wordOf_three (b0 b1 b2 b3 : Byte) : byteOf (wordOf b0 b1 b2 b3) 3 = b3 :=
  (byteOf_wordOf b0 b1 b2 b3).2.2.2

/-- A word is its four bytes. -/
@[simp] theorem wordOf_byteOf (w : Word) : wordOf (byteOf w 0) (byteOf w 1) (byteOf w 2) (byteOf w 3) = w := by
  unfold byteOf wordOf
  ext i hi
  simp only [BitVec.getElem_append, BitVec.getElem_extractLsb', Nat.reduceMul, Nat.zero_add]
  repeat' split
  all_goals
    rw [← BitVec.getLsbD_eq_getElem]
    try congr 1
    try omega

/-- Words with the same four bytes are equal. -/
theorem word_ext_bytes {v w : Word} (h0 : byteOf v 0 = byteOf w 0) (h1 : byteOf v 1 = byteOf w 1)
    (h2 : byteOf v 2 = byteOf w 2) (h3 : byteOf v 3 = byteOf w 3) : v = w := by
  rw [← wordOf_byteOf v, ← wordOf_byteOf w, h0, h1, h2, h3]

/-- A byte after the write of a little-endian word (R73). -/
theorem Memory.read_writeWord {m : Memory} (h : Memory.wf m) (a x : Nat) (w : Word) :
    Memory.read (Memory.writeWord m a w) x =
      if a ≤ x ∧ x < a + 4 then byteOf w (x - a) else Memory.read m x := by
  unfold Memory.writeWord
  have h0 := Memory.wf_write h a (byteOf w 0)
  have h1 := Memory.wf_write h0 (a + 1) (byteOf w 1)
  have h2 := Memory.wf_write h1 (a + 2) (byteOf w 2)
  rw [Memory.read_write h2, Memory.read_write h1, Memory.read_write h0, Memory.read_write h]
  by_cases hx : a ≤ x ∧ x < a + 4
  · obtain ⟨j, rfl⟩ : ∃ j, x = a + j := ⟨x - a, by omega⟩
    have hj : j < 4 := by omega
    rw [if_pos hx, Nat.add_sub_cancel_left]
    interval_cases j <;> simp
  · rw [if_neg hx, if_neg (by omega), if_neg (by omega), if_neg (by omega), if_neg (by omega)]

/-- Reading a little-endian word that was written gives it back (R73). -/
theorem Memory.readWord_writeWord_same {m : Memory} (h : Memory.wf m) (a : Nat) (w : Word) :
    Memory.readWord (Memory.writeWord m a w) a = w := by
  unfold Memory.readWord
  simp only [Memory.read_writeWord h]
  simp

/-- A word that does not overlap the one written reads as before. -/
theorem Memory.readWord_writeWord_other {m : Memory} (h : Memory.wf m) {a b : Nat} (w : Word)
    (hab : b + 4 ≤ a ∨ a + 4 ≤ b) :
    Memory.readWord (Memory.writeWord m a w) b = Memory.readWord m b := by
  unfold Memory.readWord
  simp only [Memory.read_writeWord h]
  rw [if_neg (by omega), if_neg (by omega), if_neg (by omega), if_neg (by omega)]

/-- The byte of a little-endian word (R73). -/
theorem byteOf_readWord (m : Memory) (a : Nat) {j : Nat} (hj : j < 4) :
    byteOf (Memory.readWord m a) j = Memory.read m (a + j) := by
  unfold Memory.readWord
  interval_cases j <;> simp

/-- A word write keeps the canonical form. -/
theorem Memory.wf_writeWord {m : Memory} (h : Memory.wf m) (a : Nat) (w : Word) :
    Memory.wf (Memory.writeWord m a w) :=
  Memory.wf_write (Memory.wf_write (Memory.wf_write (Memory.wf_write h _ _) _ _) _ _) _ _

/-- A word write inside a size keeps the memory inside it. -/
theorem Memory.below_writeWord {m : Memory} {n a : Nat} (h : Memory.Below m n) (ha : a + 3 < n) (w : Word) :
    Memory.Below (Memory.writeWord m a w) n :=
  Memory.below_write (Memory.below_write (Memory.below_write (Memory.below_write h (by omega) _) (by omega) _)
    (by omega) _) ha _

/-! The pixel word (R12, R66). -/

theorem bitOf_lt (ch : Channel) : ch.bitOf < 4 := by cases ch <;> decide

/-- The channel that was set reads as set, the others as before (R12). -/
theorem chan_setchan (w : Word) (ch ch' : Channel) (v : Byte) :
    chan (setchan w ch v) ch' = if ch' = ch then v else chan w ch' := by
  cases ch <;> cases ch' <;> simp [chan, setchan, Channel.bitOf]

/-- The bytes of a word with a channel set (R12). -/
theorem byteOf_setchan (w : Word) (ch : Channel) (v : Byte) {j : Nat} (hj : j < 4) :
    byteOf (setchan w ch v) j = if j = ch.bitOf then v else byteOf w j := by
  interval_cases j <;> cases ch <;> simp [setchan, Channel.bitOf]

/-- Replacing one channel of a pixel word changes one byte of PIXMEM (R66). -/
theorem Memory.read_write_setchan {m : Memory} (h : Memory.wf m) (p : Nat) (ch : Channel) (v : Byte) (x : Nat) :
    Memory.read (Memory.writeWord m (4 * p) (setchan (Memory.readWord m (4 * p)) ch v)) x =
      if x = pixByteAddr p ch then v else Memory.read m x := by
  have hb := (bitOf_lt ch)
  rw [Memory.read_writeWord h]
  unfold pixByteAddr
  by_cases hx : 4 * p ≤ x ∧ x < 4 * p + 4
  · rw [if_pos hx, byteOf_setchan _ _ _ (by omega), byteOf_readWord _ _ (by omega)]
    by_cases hc : x - 4 * p = ch.bitOf
    · rw [if_pos hc, if_pos (by omega)]
    · rw [if_neg hc, if_neg (by omega)]
      congr 1
      omega
  · rw [if_neg hx, if_neg (by omega)]

/-- A pixel reads as it was last written (R62). -/
theorem State.pixRead_pixWrite_same {s : State} (h : Memory.wf s.pix) (p : Nat) (v : Word) :
    (s.pixWrite p v).pixRead p = v := Memory.readWord_writeWord_same h (4 * p) v

/-- The accessors of one coordinate agree (R65). -/
theorem State.getChannelValue_setChannelValue {s : State} (h : Memory.wf s.pix) (x y : Nat) (v : Word) :
    (s.setChannelValue x y v).getChannelValue x y = v := State.pixRead_pixWrite_same h _ v

/-- A channel of a pixel is one byte of PIXMEM. -/
theorem chan_readWord (m : Memory) (p : Nat) (ch : Channel) :
    chan (Memory.readWord m (4 * p)) ch = Memory.read m (pixByteAddr p ch) :=
  byteOf_readWord m (4 * p) (bitOf_lt ch)

/-- Two slots share a byte only if they are the same slot. -/
theorem pixByteAddr_inj {p q : Nat} {c d : Channel} (h : pixByteAddr p c = pixByteAddr q d) : p = q ∧ c = d := by
  have hc := bitOf_lt c
  have hd := bitOf_lt d
  unfold pixByteAddr at h
  refine ⟨by omega, ?_⟩
  have : c.bitOf = d.bitOf := by omega
  revert this
  cases c <;> cases d <;> decide

end Sys2Proof.Machine
end

