-- ==== Sys2Proof/Laws/Operands.lean ====
section
/-! SUPPORT. The laws of what commands work on: `ceil(log2)`, the alphabet's lookups, the channel list, the slots of
the two traversals and the generator's bounds (spec 00_scope.md R5, R6, R10; 41_lsb_engine.md R151 to R154;
42_scatter.md R202, R203). -/

namespace Sys2Proof.Machine

/-! `ceil(log2(x))` (R10). -/

theorem le_two_pow_ceilLog2 (x : Nat) : x ≤ 2 ^ ceilLog2 x := by
  unfold ceilLog2
  split
  · simpa using ‹x ≤ 1›
  · have := Nat.lt_log2_self (n := x - 1)
    omega

theorem ceilLog2_le {x e : Nat} (h : x ≤ 2 ^ e) : ceilLog2 x ≤ e := by
  unfold ceilLog2
  split
  · omega
  · have hx : x - 1 ≠ 0 := by omega
    exact (Nat.log2_lt hx).mpr (by omega)

/-! The alphabet (R5, R120). -/

/-- What ALPHABET gives stands in the table. -/
theorem mem_of_codeOf {c : Config} {s : Byte} {n : Nat} (h : codeOf c s = some n) : (s, n) ∈ c.alphabet := by
  unfold codeOf at h
  obtain ⟨⟨s', n'⟩, hp, rfl⟩ := Option.map_eq_some_iff.mp h
  have hs := List.find?_some hp
  simp only [beq_iff_eq] at hs
  subst hs
  exact List.mem_of_find?_eq_some hp

/-- What ALPHABET_INV gives stands in the table. -/
theorem mem_of_symbolOf {c : Config} {s : Byte} {n : Nat} (h : symbolOf c n = some s) : (s, n) ∈ c.alphabet := by
  unfold symbolOf at h
  obtain ⟨⟨s', n'⟩, hp, rfl⟩ := Option.map_eq_some_iff.mp h
  have hs := List.find?_some hp
  simp only [beq_iff_eq] at hs
  subst hs
  exact List.mem_of_find?_eq_some hp

theorem eq_of_nodup_map {α β : Type} {f : α → β} {l : List α} (h : (l.map f).Nodup) {x y : α} (hx : x ∈ l)
    (hy : y ∈ l) (hxy : f x = f y) : x = y :=
  List.inj_on_of_nodup_map h hx hy hxy

/-- Every entry of a well-formed table is what ALPHABET gives its symbol (R5). -/
theorem codeOf_of_mem {c : Config} (hc : c.Ok) {s : Byte} {n : Nat} (h : (s, n) ∈ c.alphabet) :
    codeOf c s = some n := by
  unfold codeOf
  cases hp : c.alphabet.find? fun p => p.1 == s with
  | none => simpa using List.find?_eq_none.mp hp (s, n) h
  | some p =>
    have h1 : p.1 = s := by simpa using List.find?_some hp
    have := eq_of_nodup_map hc.1.1 (List.mem_of_find?_eq_some hp) h h1
    simp [this]

/-- Every entry of a well-formed table is what ALPHABET_INV gives its code (R5, R120). -/
theorem symbolOf_of_mem {c : Config} (hc : c.Ok) {s : Byte} {n : Nat} (h : (s, n) ∈ c.alphabet) :
    symbolOf c n = some s := by
  unfold symbolOf
  cases hp : c.alphabet.find? fun p => p.2 == n with
  | none => simpa using List.find?_eq_none.mp hp (s, n) h
  | some p =>
    have h1 : p.2 = n := by simpa using List.find?_some hp
    have := eq_of_nodup_map hc.1.2.1 (List.mem_of_find?_eq_some hp) h h1
    simp [this]

theorem foldl_max_le_iff (l : List (Byte × Nat)) (n b : Nat) :
    l.foldl (fun n p => max n p.2) n ≤ b ↔ n ≤ b ∧ ∀ p ∈ l, p.2 ≤ b := by
  induction l generalizing n with
  | nil => simp
  | cons p l ih => simp [ih, and_assoc]

/-- `N` is the least bound of the codes (R5). -/
theorem maxCode_le_iff (c : Config) (b : Nat) : maxCode c ≤ b ↔ ∀ p ∈ c.alphabet, p.2 ≤ b := by
  simp [maxCode, foldl_max_le_iff]

theorem code_le_maxCode {c : Config} {p : Byte × Nat} (h : p ∈ c.alphabet) : p.2 ≤ maxCode c :=
  (maxCode_le_iff c _).mp (Nat.le_refl _) p h

/-- `1 <= N <= 255` (R5). -/
theorem maxCode_bounds {c : Config} (hc : c.Ok) : 1 ≤ maxCode c ∧ maxCode c ≤ 255 := by
  obtain ⟨⟨-, -, hne, hr⟩, -⟩ := hc
  refine ⟨?_, (maxCode_le_iff c 255).mpr fun p hp => (hr p hp).2⟩
  obtain ⟨p, hp⟩ := List.exists_mem_of_ne_nil _ hne
  exact Nat.le_trans (hr p hp).1 (code_le_maxCode hp)

theorem codeWidth_pos (c : Config) : 1 ≤ codeWidth c := Nat.le_max_left _ _

/-- `1 <= K <= 8` (R6). -/
theorem codeWidth_le {c : Config} (hc : c.Ok) : codeWidth c ≤ 8 := by
  have := (maxCode_bounds hc).2
  exact Nat.max_le.mpr ⟨by decide, ceilLog2_le (by omega)⟩

theorem maxCode_lt_two_pow (c : Config) : maxCode c < 2 ^ codeWidth c := by
  have h := le_two_pow_ceilLog2 (maxCode c + 1)
  have : 2 ^ ceilLog2 (maxCode c + 1) ≤ 2 ^ codeWidth c := Nat.pow_le_pow_right (by decide) (Nat.le_max_right _ _)
  omega

/-- A code fits `K` bits and is no terminator (R5, R123). -/
theorem code_bounds {c : Config} (hc : c.Ok) {s : Byte} {n : Nat} (h : codeOf c s = some n) :
    1 ≤ n ∧ n ≤ 255 ∧ n < 2 ^ codeWidth c := by
  have hm := mem_of_codeOf h
  have hr := hc.1.2.2.2 _ hm
  exact ⟨hr.1, hr.2, Nat.lt_of_le_of_lt (code_le_maxCode hm) (maxCode_lt_two_pow c)⟩

/-! The channel list (R151). -/

theorem channelsOk_chlist (mask : BitVec 4) : ChannelsOk (chlist mask) := by
  revert mask; decide

theorem chlist_length_le (mask : BitVec 4) : (chlist mask).length ≤ 4 :=
  List.length_filter_le _ visitOrder

/-! The slots (R154, R202). -/

/-- The slot a sequential number names (R154). -/
theorem seqSlot_eq_some_iff {nc t : Nat} {chs : List Channel} {sl : Slot} :
    seqSlot nc chs t = some sl ↔ sl.p = t / nc ∧ chs[t % nc]? = some sl.ch := by
  cases sl
  simp only [seqSlot, Option.map_eq_some_iff, Slot.mk.injEq]
  constructor
  · rintro ⟨ch, h, rfl, rfl⟩
    exact ⟨rfl, h⟩
  · rintro ⟨rfl, h⟩
    exact ⟨_, h, rfl, rfl⟩

/-- The slot a scatter number names (R202). -/
theorem scatSlot_eq_some_iff {nc n : Nat} {chs : List Channel} {sl : Slot} :
    scatSlot nc chs n = some sl ↔ sl.p = 1 + n / nc ∧ chs[n % nc]? = some sl.ch := by
  cases sl
  simp only [scatSlot, Option.map_eq_some_iff, Slot.mk.injEq]
  constructor
  · rintro ⟨ch, h, rfl, rfl⟩
    exact ⟨rfl, h⟩
  · rintro ⟨rfl, h⟩
    exact ⟨_, h, rfl, rfl⟩

/-- A sequential slot number below the capacity names a slot of the buffer (R154). -/
theorem seqSlot_of_lt {chs : List Channel} {n t : Nat} (h : t < n * chs.length) :
    ∃ sl, seqSlot chs.length chs t = some sl ∧ sl.p < n := by
  have hpos : 0 < chs.length := Nat.pos_of_ne_zero fun h0 => by simp [h0] at h
  refine ⟨⟨t / chs.length, chs[t % chs.length]'(Nat.mod_lt _ hpos)⟩, ?_, ?_⟩
  · simp [seqSlot, Nat.mod_lt _ hpos]
  · exact Nat.div_lt_of_lt_mul (by rwa [Nat.mul_comm])

/-- A scatter slot number below the capacity names a slot of the buffer that is not in pixel 0 (R202). -/
theorem scatSlot_of_lt {chs : List Channel} {n t : Nat} (h : t < (n - 1) * chs.length) :
    ∃ sl, scatSlot chs.length chs t = some sl ∧ 1 ≤ sl.p ∧ sl.p < n := by
  have hpos : 0 < chs.length := Nat.pos_of_ne_zero fun h0 => by simp [h0] at h
  refine ⟨⟨1 + t / chs.length, chs[t % chs.length]'(Nat.mod_lt _ hpos)⟩, ?_, ?_, ?_⟩
  · simp [scatSlot, Nat.mod_lt _ hpos]
  · simp
  · have : t / chs.length < n - 1 := Nat.div_lt_of_lt_mul (by rwa [Nat.mul_comm])
    simp only
    generalize t / chs.length = q at this
    omega

/-- `bufferOk` as inequalities (R152). -/
theorem bufferOk_iff (c : Config) (w h : Nat) :
    bufferOk c w h = true ↔ 1 ≤ w ∧ 1 ≤ h ∧ w * h ≤ c.pixWordsMax := by
  simp [bufferOk, and_assoc]

/-! The generator (R203). -/

theorem le_two_pow_genExponent (M : Nat) : M ≤ 2 ^ genExponent M := by
  unfold genExponent
  split
  · simpa using ‹M ≤ 1›
  · exact le_two_pow_ceilLog2 M

/-- `m <= 22` (R203). -/
theorem genExponent_le {M : Nat} (h : M ≤ 2 ^ 22) : genExponent M ≤ 22 := by
  unfold genExponent
  split
  · omega
  · exact ceilLog2_le h

theorem genMul_lt (m : Nat) : genMul m < 2 ^ m := Nat.mod_lt _ (Nat.two_pow_pos m)
theorem genInc_lt (seed : Word) (m : Nat) : genInc seed m < 2 ^ m := Nat.mod_lt _ (Nat.two_pow_pos m)
theorem genStart_lt (seed : Word) (m : Nat) : genStart seed m < 2 ^ m := Nat.mod_lt _ (Nat.two_pow_pos m)
theorem genNext_lt (a c m x : Nat) : genNext a c m x < 2 ^ m := Nat.mod_lt _ (Nat.two_pow_pos m)

/-- Every draw is a residue (R203). -/
theorem genDraw_lt (seed : Word) (M n : Nat) : genDraw seed M n < 2 ^ genExponent M := by
  cases n with
  | zero => exact genStart_lt _ _
  | succ n => exact genNext_lt _ _ _ _

/-- One more draw is accepted or not (R205, R206). -/
theorem acceptedDraws_succ (seed : Word) (M n : Nat) :
    acceptedDraws seed M (n + 1) = acceptedDraws seed M n + if genDraw seed M n < M then 1 else 0 := by
  simp [acceptedDraws, List.range_succ, List.countP_append, List.countP_cons]

end Sys2Proof.Machine
end

