-- ==== Sys2Proof/Laws/Bus.lean ====
section
/-! SUPPORT. The host bus said once: which accesses are granted, what a granted access does, that an ERROR and a read
change nothing, and what a host step can change while a command runs (spec 20_memory.md R69 to R77, 70_reset_and_hazards.md
R271, R280). -/

namespace Sys2Proof.Machine

/-! What an access reaches. -/

/-- The offsets that name a register (R22). -/
theorem regAt_isSome_iff (off : Nat) : (regAt off).isSome = true ↔ off % 4 = 0 ∧ off ≤ 0x030 := by
  constructor
  · intro h
    obtain ⟨r, hr⟩ := Option.isSome_iff_exists.mp h
    have ho := List.find?_some hr
    simp only [beq_iff_eq] at ho
    subst ho
    cases r <;> decide
  · rintro ⟨h4, hle⟩
    obtain ⟨q, rfl⟩ : ∃ q, off = 4 * q := ⟨off / 4, by omega⟩
    have hq : q ≤ 12 := by omega
    interval_cases q <;> decide

/-- Every register stands at its own offset (R22). -/
theorem regAt_offset (r : RegName) : regAt r.offset = some r := by cases r <;> decide

/-- Every register is in the map (R22). -/
theorem mem_regMap (r : RegName) : r ∈ regMap := by cases r <;> decide

/-- Register accesses are granted at any time but under `rst` (R271, R280). -/
theorem State.grant_reg {s : State} (h : s.rst = false) (r : RegName) : s.grant r.addr .word = some (.reg r) := by
  cases r <;>
  simp [State.grant, targetOf, regionOf, RegName.addr, RegName.offset, regAt, regMap, State.lockedOut, h]

/-- What an access reaches lies inside its memory (R62, R63, R69). -/
def Target.Within (c : Config) : Target → Prop
  | .reg _ => True
  | .msgByte i => i < c.msgBytesMax
  | .msgWord i => i + 3 < c.msgBytesMax
  | .pixWord p => p < c.pixWordsMax

@[inherit_doc Target.Within]
theorem targetOf_within {c : Config} {addr : Nat} {n : Size} {t : Target} (h : targetOf c addr n = some t) :
    t.Within c := by
  unfold targetOf at h
  split at h
  · obtain ⟨r, -, rfl⟩ := Option.map_eq_some_iff.mp h
    trivial
  · cases h
  · rename_i i hr
    cases h
    unfold regionOf at hr
    split_ifs at hr <;> simp only [Region.msg.injEq, Region.pix.injEq, reduceCtorEq] at hr
    simp only [Target.Within]
    omega
  · rename_i i hr
    split_ifs at h with hi
    cases h
    exact hi.2
  · rename_i off hr
    split_ifs at h with hi
    cases h
    unfold regionOf at hr
    split_ifs at hr <;> simp only [Region.msg.injEq, Region.pix.injEq, reduceCtorEq] at hr
    simp only [Target.Within]
    omega
  · cases h
  · cases h

/-- Under `rst` nothing is granted (R271). -/
theorem State.grant_of_rst {s : State} (h : s.rst = true) (addr : BitVec 23) (n : Size) : s.grant addr n = none := by
  unfold State.grant
  cases targetOf s.cfg addr.toNat n with
  | none => rfl
  | some t => cases t <;> simp [State.lockedOut, h]

/-- While BUSY = 1 only registers are granted (R72 c, R77). -/
theorem State.grant_of_busy {s : State} (h : s.busy = true) {addr : BitVec 23} {n : Size} {t : Target}
    (hg : s.grant addr n = some t) : ∃ r, t = .reg r := by
  obtain ⟨-, hl⟩ := Option.filter_eq_some_iff.mp hg
  cases t <;> simp_all [State.lockedOut]

/-- A byte of MSGMEM is granted while BUSY = 0 (R71). -/
theorem State.grant_msgByte {s : State} (hc : s.cfg.Ok) (hr : s.rst = false) (hb : s.Idle) {i : Nat}
    (hi : i < s.cfg.msgBytesMax) : s.grant (BitVec.ofNat 23 (msgBase + i)) .byte = some (.msgByte i) := by
  have := hc.2.2.2
  have ht : (BitVec.ofNat 23 (msgBase + i)).toNat = msgBase + i := by
    simp only [BitVec.toNat_ofNat, msgBase]
    omega
  have hz : ¬ msgBase + i < 0x1000 := by simp only [msgBase]; omega
  simp [State.grant, ht, targetOf, regionOf, hz, hi, State.lockedOut, hr, State.busy, hb]

/-- An aligned word of MSGMEM is granted while BUSY = 0 (R71, R72). -/
theorem State.grant_msgWord {s : State} (hc : s.cfg.Ok) (hr : s.rst = false) (hb : s.Idle) {q : Nat}
    (hi : 4 * q + 3 < s.cfg.msgBytesMax) :
    s.grant (BitVec.ofNat 23 (msgBase + 4 * q)) .word = some (.msgWord (4 * q)) := by
  have := hc.2.2.2
  have ht : (BitVec.ofNat 23 (msgBase + 4 * q)).toNat = msgBase + 4 * q := by
    simp only [BitVec.toNat_ofNat, msgBase]
    omega
  have hz : ¬ msgBase + 4 * q < 0x1000 := by simp only [msgBase]; omega
  have hlt : 4 * q < s.cfg.msgBytesMax := by omega
  simp [State.grant, ht, targetOf, regionOf, hz, hi, hlt, State.lockedOut, hr, State.busy, hb]

/-- A word of PIXMEM is granted while BUSY = 0 (R71, R72). -/
theorem State.grant_pixWord {s : State} (hc : s.cfg.Ok) (hr : s.rst = false) (hb : s.Idle) {p : Nat}
    (hp : p < s.cfg.pixWordsMax) :
    s.grant (BitVec.ofNat 23 (pixBase + 4 * p)) .word = some (.pixWord p) := by
  have hM := hc.2.2.2
  have hP := hc.2.1.2
  have ht : (BitVec.ofNat 23 (pixBase + 4 * p)).toNat = pixBase + 4 * p := by
    simp only [BitVec.toNat_ofNat, pixBase]
    omega
  have hz : ¬ pixBase + 4 * p < 0x1000 := by simp only [pixBase]; omega
  have hm : ¬ (msgBase ≤ pixBase + 4 * p ∧ pixBase + 4 * p < msgBase + s.cfg.msgBytesMax) := by
    simp only [pixBase, msgBase]
    omega
  have hx : pixBase ≤ pixBase + 4 * p ∧ pixBase + 4 * p < pixBase + 4 * s.cfg.pixWordsMax := by omega
  simp [State.grant, ht, targetOf, regionOf, hz, hm, hx, State.lockedOut, hr, State.busy, hb]

/-- Which accesses are granted, in the terms of the address map (R71, R72, R77, R271). -/
theorem State.grant_isSome_iff {s : State} (hc : s.cfg.Ok) (hr : s.rst = false) (addr : BitVec 23) (n : Size) :
    (s.grant addr n).isSome = true ↔
      (n = .word ∧ addr.toNat % 4 = 0 ∧ addr.toNat ≤ 0x030) ∨
      (s.busy = false ∧ msgBase ≤ addr.toNat ∧ addr.toNat < msgBase + s.cfg.msgBytesMax ∧
        (n = .byte ∨ (addr.toNat % 4 = 0 ∧ addr.toNat + 3 < msgBase + s.cfg.msgBytesMax))) ∨
      (s.busy = false ∧ pixBase ≤ addr.toNat ∧ addr.toNat < pixBase + 4 * s.cfg.pixWordsMax ∧ n = .word ∧
        addr.toNat % 4 = 0) := by
  have hM := hc.2.2.2
  have hP := hc.2.1.2
  unfold State.grant
  generalize addr.toNat = a
  unfold targetOf regionOf
  split_ifs with h1 h2 h3
  · cases n
    · have : ¬ msgBase ≤ a := by simp only [msgBase]; omega
      have : ¬ pixBase ≤ a := by simp only [pixBase]; omega
      simp [*]
    · have hm : ¬ msgBase ≤ a := by simp only [msgBase]; omega
      have hp : ¬ pixBase ≤ a := by simp only [pixBase]; omega
      have hreg := regAt_isSome_iff a
      cases hra : regAt a with
      | none => simp_all
      | some r =>
        rw [hra] at hreg
        have := hreg.mp rfl
        simp [this, hm, hp, hra, State.lockedOut, hr]
  · have hr0 : ¬ a ≤ 0x030 := by omega
    have hp : ¬ pixBase ≤ a := by simp only [msgBase, pixBase] at *; omega
    cases n
    · simp [State.lockedOut, hr, h2, hp, hr0]
    · have hq : ((a - msgBase) % 4 = 0 ∧ a - msgBase + 3 < s.cfg.msgBytesMax) ↔
          (a % 4 = 0 ∧ a + 3 < msgBase + s.cfg.msgBytesMax) := by
        simp only [msgBase] at *
        omega
      by_cases hc : (a - msgBase) % 4 = 0 ∧ a - msgBase + 3 < s.cfg.msgBytesMax
      · simp only [if_pos hc]
        rw [hq] at hc
        simp [State.lockedOut, hr, h2, hp, hr0, hc]
      · simp only [if_neg hc]
        rw [hq] at hc
        simp [hp, hr0, hc]
  · have hr0 : ¬ a ≤ 0x030 := by omega
    cases n
    · simp
      omega
    · have hq : (a - pixBase) % 4 = 0 ↔ a % 4 = 0 := by
        simp only [pixBase] at *
        omega
      by_cases hc : (a - pixBase) % 4 = 0
      · simp only [if_pos hc]
        rw [hq] at hc
        have hm : ¬ a < msgBase + s.cfg.msgBytesMax := by simp only [msgBase, pixBase] at *; omega
        simp [State.lockedOut, hr, h3, hr0, hc, hm]
      · simp only [if_neg hc]
        rw [hq] at hc
        simp [hr0, hc]
  · have hr0 : ¬ a ≤ 0x030 := by omega
    cases n <;> simp <;> omega

/-! What an access does. -/

theorem State.respond_read (s : State) (addr : BitVec 23) (n : Size) :
    s.respond (.read addr n) = match s.grant addr n with
      | some t => .ok (s.readTarget t)
      | none => .error := rfl

/-- The response to a read of a register. -/
theorem State.respond_readReg {s : State} (h : s.rst = false) (r : RegName) :
    s.respond (.read r.addr .word) = .ok (s.readReg r) := by
  simp only [State.respond, State.grant_reg h, State.readTarget]

/-- What a write of a register does, and the response to it. -/
theorem State.perform_writeReg {s : State} (h : s.rst = false) (r : RegName) (v : Word) :
    s.perform (.write r.addr .word v) = s.writeReg r v ∧ s.respond (.write r.addr .word v) = .ack := by
  simp only [State.perform, State.respond, State.grant_reg h, State.writeTarget, and_self]

/-- A write of a register. -/
theorem State.hostAccess_writeReg {s : State} (h : s.rst = false) (r : RegName) (v : Word) :
    State.hostAccess (.write r.addr .word v) s = { s.writeReg r v with resp := some .ack } := by
  simp only [State.hostAccess, State.perform, State.respond, State.grant_reg h, State.writeTarget]

/-- A read changes nothing but the response (R75). -/
theorem State.hostAccess_read (s : State) (addr : BitVec 23) (n : Size) :
    State.hostAccess (.read addr n) s = { s with resp := some (s.respond (.read addr n)) } := rfl

/-- An access answered ERROR changes nothing but the response (R72). -/
theorem State.hostAccess_of_error {s : State} {a : Access} (h : s.respond a = .error) :
    State.hostAccess a s = { s with resp := some .error } := by
  cases a with
  | read addr n => rw [State.hostAccess_read, h]
  | write addr n v =>
    cases hg : s.grant addr n with
    | none => simp [State.hostAccess, State.perform, State.respond, hg]
    | some t => simp [State.respond, hg] at h

/-- The response to a write, in terms of what is granted. -/
theorem State.respond_eq_error_iff (s : State) (addr : BitVec 23) (n : Size) :
    (s.respond (.read addr n) = .error ↔ ¬ (s.grant addr n).isSome = true) ∧
      ∀ v, s.respond (.write addr n v) = .error ↔ ¬ (s.grant addr n).isSome = true := by
  cases hg : s.grant addr n <;> simp [State.respond, hg]

/-! What a host step leaves alone. -/

/-- A register write changes no memory, no parameter and nothing of the outside world. -/
theorem State.writeReg_frame (s : State) (r : RegName) (v : Word) :
    (s.writeReg r v).cfg = s.cfg ∧ (s.writeReg r v).pix = s.pix ∧ (s.writeReg r v).msg = s.msg ∧
      (s.writeReg r v).rst = s.rst ∧ (s.writeReg r v).host = s.host ∧ (s.writeReg r v).sched = s.sched ∧
      (s.writeReg r v).resp = s.resp := by
  cases r <;> simp only [State.writeReg] <;> (try split) <;> simp

/-- While BUSY = 1 a register write changes at most IRQ_EN, DONE and OVERRUN (R280), and it never sets DONE. -/
theorem State.writeReg_busy {s : State} (h : s.busy = true) (r : RegName) (v : Word) :
    ∃ e d o, (d = true → s.regs.done = true) ∧
      s.writeReg r v = { s with regs := { s.regs with irqEn := e, done := d, overrun := o } } := by
  cases r <;> simp only [State.writeReg, h, if_true, State.dropWrite, State.writeCtrl, State.writeStatus] <;>
    first
    | exact ⟨_, s.regs.done, _, fun h => h, rfl⟩
    | exact ⟨_, s.regs.done && !v.getLsbD 1, _, fun h => (Bool.and_eq_true_iff.mp h).1, rfl⟩

/-- While BUSY = 1 an access changes at most IRQ_EN, DONE and OVERRUN, and the response (R77, R280). -/
theorem State.hostAccess_busy {s : State} (h : s.busy = true) (a : Access) :
    ∃ e d o r, (d = true → s.regs.done = true) ∧
      State.hostAccess a s = { s with regs := { s.regs with irqEn := e, done := d, overrun := o }, resp := r } := by
  cases a with
  | read addr n => exact ⟨_, s.regs.done, _, _, fun h => h, rfl⟩
  | write addr n v =>
    cases hg : s.grant addr n with
    | none =>
      refine ⟨s.regs.irqEn, s.regs.done, s.regs.overrun, some .error, fun h => h, ?_⟩
      simp only [State.hostAccess, State.perform, State.respond, hg]
    | some t =>
      obtain ⟨r, rfl⟩ := State.grant_of_busy h hg
      obtain ⟨e, d, o, hd, hw⟩ := State.writeReg_busy h r v
      refine ⟨e, d, o, some .ack, hd, ?_⟩
      simp only [State.hostAccess, State.perform, State.respond, hg, State.writeTarget, hw]

/-- What a host step does: nothing, or one access, made with the host's list moved on or kept (R70, R103). -/
theorem hostTurn_cases (s : State) :
    hostTurn s = s ∨ ∃ a l, hostTurn s = State.hostAccess a { s with host := l } := by
  unfold hostTurn
  split
  · exact .inl rfl
  · exact .inr ⟨_, _, rfl⟩
  · exact .inr ⟨_, _, rfl⟩

end Sys2Proof.Machine
end

