-- ==== Sys2Proof/Laws/Encoding.lean ====
section
/-! SUPPORT. The fields of a packed command word, and the channel set a CHMASK field carries (spec 30_encoding.md R91,
R93, 41_lsb_engine.md R151). -/

namespace Sys2Proof

/-! The channel set. -/

theorem mem_visitOrder (ch : Channel) : ch ∈ visitOrder := by cases ch <;> decide

/-- The bits of a CHMASK put together from four (R93). -/
theorem chmask_bits (a r g b : Bool) :
    let m := BitVec.ofBool a ++ BitVec.ofBool r ++ BitVec.ofBool g ++ BitVec.ofBool b
    m.getLsbD 0 = b ∧ m.getLsbD 1 = g ∧ m.getLsbD 2 = r ∧ m.getLsbD 3 = a := by
  revert a r g b
  decide

/-- CHMASK designates the channels of the set (R93). -/
theorem getLsbD_chmaskOf (chs : List Channel) (ch : Channel) :
    (chmaskOf chs).getLsbD ch.bitOf = decide (ch ∈ chs) := by
  obtain ⟨hb, hg, hr, ha⟩ := chmask_bits (decide (Channel.a ∈ chs)) (decide (Channel.r ∈ chs))
    (decide (Channel.g ∈ chs)) (decide (Channel.b ∈ chs))
  cases ch
  · exact hr
  · exact hg
  · exact hb
  · exact ha

/-- Two channels with the same place in visit order are the same (R151). -/
theorem visitOrder_antisymm (x y : Channel) (hxy : visitOrder.idxOf x ≤ visitOrder.idxOf y)
    (hyx : visitOrder.idxOf y ≤ visitOrder.idxOf x) : x = y := by
  revert hxy hyx
  cases x <;> cases y <;> decide

/-- The channel list of a channel set's CHMASK is the set in visit order (R151). -/
theorem chlist_chmaskOf {chs : List Channel} (h : ChannelsOk chs) : chlist (chmaskOf chs) = chs := by
  have hperm : (chlist (chmaskOf chs)).Perm chs := by
    refine (List.perm_ext_iff_of_nodup ?_ h.1).mpr fun ch => ?_
    · exact List.Nodup.filter _ (by decide)
    · simp [chlist, getLsbD_chmaskOf, mem_visitOrder]
  refine hperm.eq_of_pairwise (fun x y _ _ => visitOrder_antisymm x y) ?_ h.2
  exact List.Pairwise.filter _ (by decide)

/-! The fields of a packed word (R91). -/

theorem opField_pack (op : BitVec 4) (trav embed : BitVec 1) (mask : BitVec 4) (opnd : Byte) :
    opField (packFields op trav embed mask opnd) = op := by
  unfold opField packFields
  ext i hi
  simp only [BitVec.getElem_extractLsb', BitVec.getLsbD_append]
  repeat' split
  all_goals first
    | (exfalso; omega)
    | (rw [← BitVec.getLsbD_eq_getElem]; congr 1; omega)

theorem chmaskField_pack (op : BitVec 4) (trav embed : BitVec 1) (mask : BitVec 4) (opnd : Byte) :
    chmaskField (packFields op trav embed mask opnd) = mask := by
  unfold chmaskField packFields
  ext i hi
  simp only [BitVec.getElem_extractLsb', BitVec.getLsbD_append]
  repeat' split
  all_goals first
    | (exfalso; omega)
    | (rw [← BitVec.getLsbD_eq_getElem]; congr 1; omega)

theorem opndField_pack (op : BitVec 4) (trav embed : BitVec 1) (mask : BitVec 4) (opnd : Byte) :
    opndField (packFields op trav embed mask opnd) = opnd := by
  unfold opndField packFields
  ext i hi
  simp only [BitVec.getElem_extractLsb', BitVec.getLsbD_append]
  repeat' split
  all_goals first
    | (exfalso; omega)
    | (rw [← BitVec.getLsbD_eq_getElem]; congr 1; omega)

theorem travField_pack (op : BitVec 4) (trav : Trav) (embed : BitVec 1) (mask : BitVec 4) (opnd : Byte) :
    travField (packFields op trav.bit embed mask opnd) = trav := by
  have h : (packFields op trav.bit embed mask opnd).getLsbD 4 = trav.bit.getLsbD 0 := by
    unfold packFields
    simp only [BitVec.getLsbD_append]
    repeat' split
    all_goals first
      | (exfalso; omega)
      | rfl
  rw [travField, h]
  cases trav <;> rfl

theorem embedField_pack (op : BitVec 4) (trav : BitVec 1) (embed : Embed) (mask : BitVec 4) (opnd : Byte) :
    embedField (packFields op trav embed.bit mask opnd) = embed := by
  have h : (packFields op trav embed.bit mask opnd).getLsbD 5 = embed.bit.getLsbD 0 := by
    unfold packFields
    simp only [BitVec.getLsbD_append]
    repeat' split
    all_goals first
      | (exfalso; omega)
      | rfl
  rw [embedField, h]
  cases embed <;> rfl

end Sys2Proof
end

