-- ==== Sys2Proof/Laws/Meanings.lean ====
section
/-! SUPPORT. What each part of a meaning does, said once: one lemma per field for the completions and the phase steps, the
frames of the meanings, and for each meaning what it can answer (spec 41_lsb_engine.md, 40_alphabet.md). -/

namespace Sys2Proof.Machine

/-! One lemma per field. -/

@[simp] theorem encFinish_cfg (s : State) (trav : Trav) (err : ErrCode) (idx val : Word) :
    (encFinish trav err idx val s).cfg = s.cfg := by
  cases trav <;> rfl
@[simp] theorem encFinish_pix (s : State) (trav : Trav) (err : ErrCode) (idx val : Word) :
    (encFinish trav err idx val s).pix = s.pix := by
  cases trav <;> rfl
@[simp] theorem encFinish_msg (s : State) (trav : Trav) (err : ErrCode) (idx val : Word) :
    (encFinish trav err idx val s).msg = s.msg := by
  cases trav <;> rfl
@[simp] theorem encFinish_rst (s : State) (trav : Trav) (err : ErrCode) (idx val : Word) :
    (encFinish trav err idx val s).rst = s.rst := by
  cases trav <;> rfl
@[simp] theorem encFinish_host (s : State) (trav : Trav) (err : ErrCode) (idx val : Word) :
    (encFinish trav err idx val s).host = s.host := by
  cases trav <;> rfl
@[simp] theorem encFinish_sched (s : State) (trav : Trav) (err : ErrCode) (idx val : Word) :
    (encFinish trav err idx val s).sched = s.sched := by
  cases trav <;> rfl
@[simp] theorem encFinish_resp (s : State) (trav : Trav) (err : ErrCode) (idx val : Word) :
    (encFinish trav err idx val s).resp = s.resp := by
  cases trav <;> rfl
@[simp] theorem encFinish_eng (s : State) (trav : Trav) (err : ErrCode) (idx val : Word) :
    (encFinish trav err idx val s).eng = { s.eng with state := .idle } := by
  cases trav <;> rfl
@[simp] theorem encFinish_regs (s : State) (trav : Trav) (err : ErrCode) (idx val : Word) :
    (encFinish trav err idx val s).regs = { s.regs with
      result := if err = .ok then natWord s.eng.need else 0
      capacity := natWord s.eng.cap
      seed := match trav with | .seq => s.regs.seed | .scat => s.pixRead 0
      err := err, errIndex := idx, errValue := val, done := true } := by
  cases trav <;> rfl

@[simp] theorem decFinish_cfg (s : State) (trav : Trav) (err : ErrCode) (idx val : Word) :
    (decFinish trav err idx val s).cfg = s.cfg := by
  cases trav <;> rfl
@[simp] theorem decFinish_pix (s : State) (trav : Trav) (err : ErrCode) (idx val : Word) :
    (decFinish trav err idx val s).pix = s.pix := by
  cases trav <;> rfl
@[simp] theorem decFinish_msg (s : State) (trav : Trav) (err : ErrCode) (idx val : Word) :
    (decFinish trav err idx val s).msg = s.msg := by
  cases trav <;> rfl
@[simp] theorem decFinish_rst (s : State) (trav : Trav) (err : ErrCode) (idx val : Word) :
    (decFinish trav err idx val s).rst = s.rst := by
  cases trav <;> rfl
@[simp] theorem decFinish_host (s : State) (trav : Trav) (err : ErrCode) (idx val : Word) :
    (decFinish trav err idx val s).host = s.host := by
  cases trav <;> rfl
@[simp] theorem decFinish_sched (s : State) (trav : Trav) (err : ErrCode) (idx val : Word) :
    (decFinish trav err idx val s).sched = s.sched := by
  cases trav <;> rfl
@[simp] theorem decFinish_resp (s : State) (trav : Trav) (err : ErrCode) (idx val : Word) :
    (decFinish trav err idx val s).resp = s.resp := by
  cases trav <;> rfl
@[simp] theorem decFinish_eng (s : State) (trav : Trav) (err : ErrCode) (idx val : Word) :
    (decFinish trav err idx val s).eng = { s.eng with state := .idle } := by
  cases trav <;> rfl
@[simp] theorem decFinish_regs (s : State) (trav : Trav) (err : ErrCode) (idx val : Word) :
    (decFinish trav err idx val s).regs = { s.regs with
      msgLen := if err = .ok then natWord s.eng.i else 0
      result := if err = .ok then natWord s.eng.i else 0
      capacity := natWord s.eng.cap
      seed := match trav with | .seq => s.regs.seed | .scat => s.pixRead 0
      err := err, errIndex := idx, errValue := val, done := true } := by
  cases trav <;> rfl

@[simp] theorem capacityDone_cfg (s : State) (trav : Trav) : (capacityDone trav s).cfg = s.cfg := by
  cases trav <;> rfl
@[simp] theorem capacityDone_pix (s : State) (trav : Trav) : (capacityDone trav s).pix = s.pix := by
  cases trav <;> rfl
@[simp] theorem capacityDone_msg (s : State) (trav : Trav) : (capacityDone trav s).msg = s.msg := by
  cases trav <;> rfl
@[simp] theorem capacityDone_rst (s : State) (trav : Trav) : (capacityDone trav s).rst = s.rst := by
  cases trav <;> rfl
@[simp] theorem capacityDone_host (s : State) (trav : Trav) : (capacityDone trav s).host = s.host := by
  cases trav <;> rfl
@[simp] theorem capacityDone_sched (s : State) (trav : Trav) : (capacityDone trav s).sched = s.sched := by
  cases trav <;> rfl
@[simp] theorem capacityDone_resp (s : State) (trav : Trav) : (capacityDone trav s).resp = s.resp := by
  cases trav <;> rfl
@[simp] theorem capacityDone_eng (s : State) (trav : Trav) :
    (capacityDone trav s).eng = { s.eng with state := .idle } := by
  cases trav <;> rfl
@[simp] theorem capacityDone_regs (s : State) (trav : Trav) :
    (capacityDone trav s).regs = { s.regs with
      result := natWord s.eng.cap
      capacity := natWord s.eng.cap
      seed := match trav with | .seq => s.regs.seed | .scat => s.pixRead 0
      err := .ok, errIndex := 0, errValue := 0, done := true } := by
  cases trav <;> rfl

@[simp] theorem State.invalidBuffer_cfg (s : State) (clearsLen : Bool) : (s.invalidBuffer clearsLen).cfg = s.cfg := by
  cases clearsLen <;> rfl
@[simp] theorem State.invalidBuffer_pix (s : State) (clearsLen : Bool) : (s.invalidBuffer clearsLen).pix = s.pix := by
  cases clearsLen <;> rfl
@[simp] theorem State.invalidBuffer_msg (s : State) (clearsLen : Bool) : (s.invalidBuffer clearsLen).msg = s.msg := by
  cases clearsLen <;> rfl
@[simp] theorem State.invalidBuffer_rst (s : State) (clearsLen : Bool) : (s.invalidBuffer clearsLen).rst = s.rst := by
  cases clearsLen <;> rfl
@[simp] theorem State.invalidBuffer_host (s : State) (clearsLen : Bool) :
    (s.invalidBuffer clearsLen).host = s.host := by
  cases clearsLen <;> rfl
@[simp] theorem State.invalidBuffer_sched (s : State) (clearsLen : Bool) :
    (s.invalidBuffer clearsLen).sched = s.sched := by
  cases clearsLen <;> rfl
@[simp] theorem State.invalidBuffer_resp (s : State) (clearsLen : Bool) :
    (s.invalidBuffer clearsLen).resp = s.resp := by
  cases clearsLen <;> rfl
@[simp] theorem State.invalidBuffer_eng (s : State) (clearsLen : Bool) :
    (s.invalidBuffer clearsLen).eng = { s.eng with state := .idle } := by
  cases clearsLen <;> rfl
@[simp] theorem State.invalidBuffer_regs (s : State) (clearsLen : Bool) :
    (s.invalidBuffer clearsLen).regs = { s.regs with
      result := 0
      capacity := 0
      msgLen := if clearsLen then 0 else s.regs.msgLen
      err := .invalidBuffer, errIndex := 0, errValue := s.eng.h ++ s.eng.w, done := true } := by
  cases clearsLen <;> rfl

@[simp] theorem State.illegalCompletion_cfg (s : State) (w : Word) : (s.illegalCompletion w).cfg = s.cfg := rfl
@[simp] theorem State.illegalCompletion_pix (s : State) (w : Word) : (s.illegalCompletion w).pix = s.pix := rfl
@[simp] theorem State.illegalCompletion_msg (s : State) (w : Word) : (s.illegalCompletion w).msg = s.msg := rfl
@[simp] theorem State.illegalCompletion_rst (s : State) (w : Word) : (s.illegalCompletion w).rst = s.rst := rfl
@[simp] theorem State.illegalCompletion_host (s : State) (w : Word) : (s.illegalCompletion w).host = s.host := rfl
@[simp] theorem State.illegalCompletion_sched (s : State) (w : Word) : (s.illegalCompletion w).sched = s.sched := rfl
@[simp] theorem State.illegalCompletion_resp (s : State) (w : Word) : (s.illegalCompletion w).resp = s.resp := rfl
@[simp] theorem State.illegalCompletion_eng (s : State) (w : Word) :
    (s.illegalCompletion w).eng = { s.eng with state := .idle } := rfl
@[simp] theorem State.illegalCompletion_regs (s : State) (w : Word) :
    (s.illegalCompletion w).regs = { s.regs with
      result := 0, err := .illegalCommand, errIndex := 0, errValue := w, done := true } := rfl

@[simp] theorem encCheck_cfg (s : State) (trav : Trav) : (encCheck trav s).cfg = s.cfg := by
  unfold encCheck; (repeat' split) <;> simp
@[simp] theorem encCheck_pix (s : State) (trav : Trav) : (encCheck trav s).pix = s.pix := by
  unfold encCheck; (repeat' split) <;> simp
@[simp] theorem encCheck_msg (s : State) (trav : Trav) : (encCheck trav s).msg = s.msg := by
  unfold encCheck; (repeat' split) <;> simp
@[simp] theorem encCheck_rst (s : State) (trav : Trav) : (encCheck trav s).rst = s.rst := by
  unfold encCheck; (repeat' split) <;> simp
@[simp] theorem encCheck_host (s : State) (trav : Trav) : (encCheck trav s).host = s.host := by
  unfold encCheck; (repeat' split) <;> simp
@[simp] theorem encCheck_sched (s : State) (trav : Trav) : (encCheck trav s).sched = s.sched := by
  unfold encCheck; (repeat' split) <;> simp
@[simp] theorem encCheck_resp (s : State) (trav : Trav) : (encCheck trav s).resp = s.resp := by
  unfold encCheck; (repeat' split) <;> simp

@[simp] theorem encSymbolOk_cfg (s : State) : (encSymbolOk s).cfg = s.cfg := by
  unfold encSymbolOk; dsimp only; split <;> rfl
@[simp] theorem encSymbolOk_pix (s : State) : (encSymbolOk s).pix = s.pix := by
  unfold encSymbolOk; dsimp only; split <;> rfl
@[simp] theorem encSymbolOk_msg (s : State) : (encSymbolOk s).msg = s.msg := by
  unfold encSymbolOk; dsimp only; split <;> rfl
@[simp] theorem encSymbolOk_rst (s : State) : (encSymbolOk s).rst = s.rst := by
  unfold encSymbolOk; dsimp only; split <;> rfl
@[simp] theorem encSymbolOk_host (s : State) : (encSymbolOk s).host = s.host := by
  unfold encSymbolOk; dsimp only; split <;> rfl
@[simp] theorem encSymbolOk_sched (s : State) : (encSymbolOk s).sched = s.sched := by
  unfold encSymbolOk; dsimp only; split <;> rfl
@[simp] theorem encSymbolOk_resp (s : State) : (encSymbolOk s).resp = s.resp := by
  unfold encSymbolOk; dsimp only; split <;> rfl
@[simp] theorem encSymbolOk_regs (s : State) :
    (encSymbolOk s).regs = s.regs := by
  unfold encSymbolOk; dsimp only; split <;> rfl

@[simp] theorem encCapchk_cfg (s : State) (trav : Trav) : (encCapchk trav s).cfg = s.cfg := by
  unfold encCapchk; dsimp only; split <;> simp
@[simp] theorem encCapchk_pix (s : State) (trav : Trav) : (encCapchk trav s).pix = s.pix := by
  unfold encCapchk; dsimp only; split <;> simp
@[simp] theorem encCapchk_msg (s : State) (trav : Trav) : (encCapchk trav s).msg = s.msg := by
  unfold encCapchk; dsimp only; split <;> simp
@[simp] theorem encCapchk_rst (s : State) (trav : Trav) : (encCapchk trav s).rst = s.rst := by
  unfold encCapchk; dsimp only; split <;> simp
@[simp] theorem encCapchk_host (s : State) (trav : Trav) : (encCapchk trav s).host = s.host := by
  unfold encCapchk; dsimp only; split <;> simp
@[simp] theorem encCapchk_sched (s : State) (trav : Trav) : (encCapchk trav s).sched = s.sched := by
  unfold encCapchk; dsimp only; split <;> simp
@[simp] theorem encCapchk_resp (s : State) (trav : Trav) : (encCapchk trav s).resp = s.resp := by
  unfold encCapchk; dsimp only; split <;> simp

@[simp] theorem encTravinit_cfg (s : State) (trav : Trav) : (encTravinit trav s).cfg = s.cfg := by
  cases trav <;> rfl
@[simp] theorem encTravinit_pix (s : State) (trav : Trav) : (encTravinit trav s).pix = s.pix := by
  cases trav <;> rfl
@[simp] theorem encTravinit_msg (s : State) (trav : Trav) : (encTravinit trav s).msg = s.msg := by
  cases trav <;> rfl
@[simp] theorem encTravinit_rst (s : State) (trav : Trav) : (encTravinit trav s).rst = s.rst := by
  cases trav <;> rfl
@[simp] theorem encTravinit_host (s : State) (trav : Trav) : (encTravinit trav s).host = s.host := by
  cases trav <;> rfl
@[simp] theorem encTravinit_sched (s : State) (trav : Trav) : (encTravinit trav s).sched = s.sched := by
  cases trav <;> rfl
@[simp] theorem encTravinit_resp (s : State) (trav : Trav) : (encTravinit trav s).resp = s.resp := by
  cases trav <;> rfl
@[simp] theorem encTravinit_regs (s : State) (trav : Trav) :
    (encTravinit trav s).regs = s.regs := by
  cases trav <;> rfl
@[simp] theorem encTravinit_eng (s : State) (trav : Trav) :
    (encTravinit trav s).eng = { (match trav with | .seq => s.eng | .scat => scatInit (s.pixRead 0) s.eng) with
      t := 0, i := 0, state := .embed } := by
  cases trav <;> rfl

@[simp] theorem decTravinit_cfg (s : State) (trav : Trav) : (decTravinit trav s).cfg = s.cfg := by
  cases trav <;> rfl
@[simp] theorem decTravinit_pix (s : State) (trav : Trav) : (decTravinit trav s).pix = s.pix := by
  cases trav <;> rfl
@[simp] theorem decTravinit_msg (s : State) (trav : Trav) : (decTravinit trav s).msg = s.msg := by
  cases trav <;> rfl
@[simp] theorem decTravinit_rst (s : State) (trav : Trav) : (decTravinit trav s).rst = s.rst := by
  cases trav <;> rfl
@[simp] theorem decTravinit_host (s : State) (trav : Trav) : (decTravinit trav s).host = s.host := by
  cases trav <;> rfl
@[simp] theorem decTravinit_sched (s : State) (trav : Trav) : (decTravinit trav s).sched = s.sched := by
  cases trav <;> rfl
@[simp] theorem decTravinit_resp (s : State) (trav : Trav) : (decTravinit trav s).resp = s.resp := by
  cases trav <;> rfl
@[simp] theorem decTravinit_regs (s : State) (trav : Trav) :
    (decTravinit trav s).regs = s.regs := by
  cases trav <;> rfl
@[simp] theorem decTravinit_eng (s : State) (trav : Trav) :
    (decTravinit trav s).eng = { (match trav with | .seq => s.eng | .scat => scatInit (s.pixRead 0) s.eng) with
      t := 0, i := 0, acc := 0, nb := 0, state := .scan } := by
  cases trav <;> rfl

@[simp] theorem decShift_cfg (s : State) (b : Bool) : (decShift b s).cfg = s.cfg := by
  unfold decShift; dsimp only; split <;> rfl
@[simp] theorem decShift_pix (s : State) (b : Bool) : (decShift b s).pix = s.pix := by
  unfold decShift; dsimp only; split <;> rfl
@[simp] theorem decShift_msg (s : State) (b : Bool) : (decShift b s).msg = s.msg := by
  unfold decShift; dsimp only; split <;> rfl
@[simp] theorem decShift_rst (s : State) (b : Bool) : (decShift b s).rst = s.rst := by
  unfold decShift; dsimp only; split <;> rfl
@[simp] theorem decShift_host (s : State) (b : Bool) : (decShift b s).host = s.host := by
  unfold decShift; dsimp only; split <;> rfl
@[simp] theorem decShift_sched (s : State) (b : Bool) : (decShift b s).sched = s.sched := by
  unfold decShift; dsimp only; split <;> rfl
@[simp] theorem decShift_resp (s : State) (b : Bool) : (decShift b s).resp = s.resp := by
  unfold decShift; dsimp only; split <;> rfl
@[simp] theorem decShift_regs (s : State) (b : Bool) :
    (decShift b s).regs = s.regs := by
  unfold decShift; dsimp only; split <;> rfl
@[simp] theorem decShift_eng (s : State) (b : Bool) :
    (decShift b s).eng = { s.eng with
      acc := shiftIn s.eng.k s.eng.acc b
      nb := s.eng.nb + 1
      t := s.eng.t + 1
      state := if s.eng.nb + 1 = s.eng.k then .decodeCode else s.eng.state } := by
  unfold decShift; dsimp only; split <;> rfl

@[simp] theorem embedSlot_cfg (s : State) (e : Embed) (sl : Slot) (b : Bool) : (embedSlot e sl b s).cfg = s.cfg := rfl
@[simp] theorem embedSlot_msg (s : State) (e : Embed) (sl : Slot) (b : Bool) : (embedSlot e sl b s).msg = s.msg := rfl
@[simp] theorem embedSlot_rst (s : State) (e : Embed) (sl : Slot) (b : Bool) : (embedSlot e sl b s).rst = s.rst := rfl
@[simp] theorem embedSlot_host (s : State) (e : Embed) (sl : Slot) (b : Bool) :
    (embedSlot e sl b s).host = s.host := rfl
@[simp] theorem embedSlot_sched (s : State) (e : Embed) (sl : Slot) (b : Bool) :
    (embedSlot e sl b s).sched = s.sched := rfl
@[simp] theorem embedSlot_resp (s : State) (e : Embed) (sl : Slot) (b : Bool) :
    (embedSlot e sl b s).resp = s.resp := rfl
@[simp] theorem embedSlot_regs (s : State) (e : Embed) (sl : Slot) (b : Bool) :
    (embedSlot e sl b s).regs = s.regs := rfl
@[simp] theorem embedSlot_eng (s : State) (e : Embed) (sl : Slot) (b : Bool) :
    (embedSlot e sl b s).eng = s.eng := rfl
@[simp] theorem embedSlot_pix (s : State) (e : Embed) (sl : Slot) (b : Bool) :
    (embedSlot e sl b s).pix = Memory.writeWord s.pix (4 * sl.p) (setchan (Memory.readWord s.pix (4 * sl.p)) sl.ch
      (embedBit e (chan (Memory.readWord s.pix (4 * sl.p)) sl.ch) b)) := rfl

@[simp] theorem encCount_cfg (s : State) (trav : Trav) : (encCount trav s).cfg = s.cfg := by
  unfold encCount; dsimp only; split <;> simp
@[simp] theorem encCount_pix (s : State) (trav : Trav) : (encCount trav s).pix = s.pix := by
  unfold encCount; dsimp only; split <;> simp
@[simp] theorem encCount_msg (s : State) (trav : Trav) : (encCount trav s).msg = s.msg := by
  unfold encCount; dsimp only; split <;> simp
@[simp] theorem encCount_rst (s : State) (trav : Trav) : (encCount trav s).rst = s.rst := by
  unfold encCount; dsimp only; split <;> simp
@[simp] theorem encCount_host (s : State) (trav : Trav) : (encCount trav s).host = s.host := by
  unfold encCount; dsimp only; split <;> simp
@[simp] theorem encCount_sched (s : State) (trav : Trav) : (encCount trav s).sched = s.sched := by
  unfold encCount; dsimp only; split <;> simp
@[simp] theorem encCount_resp (s : State) (trav : Trav) : (encCount trav s).resp = s.resp := by
  unfold encCount; dsimp only; split <;> simp

/-! The CHECK step's buffer check. -/

/-- On a valid buffer CHECK goes on with the capacity computed (R150, R152). -/
theorem checkTail_of_ok {s : State} (h : bufferOk s.cfg s.W s.H = true) (trav : Trav) (chs : List Channel) :
    checkTail trav chs s = some (setCap trav (captureOperands chs s)) := by
  simp only [checkTail]
  exact if_pos h

/-- On an invalid buffer CHECK ends the command (R152). -/
theorem checkTail_of_bad {s : State} (h : ¬ bufferOk s.cfg s.W s.H = true) (trav : Trav) (chs : List Channel) :
    checkTail trav chs s = none := by
  simp only [checkTail]
  exact if_neg h

/-! What each meaning can answer. -/

/-- NOP answers a next state in CHECK alone (R160). -/
theorem execNop_next {s t : State} (h : execNop s = .next t) : s.eng.state = .check ∧ t = s.complete .ok 0 0 := by
  unfold execNop at h
  split at h
  · exact ⟨‹_›, by simpa using h.symm⟩
  · cases h

/-- CAPACITY answers a next state in CHECK alone: the capacity, or INVALID_BUFFER (R152, R161). -/
theorem execCapacity_next {trav : Trav} {chs : List Channel} {s t : State} (h : execCapacity trav chs s = .next t) :
    s.eng.state = .check ∧
      ((bufferOk s.cfg s.W s.H = true ∧ t = capacityDone trav (setCap trav (captureOperands chs s))) ∨
       (bufferOk s.cfg s.W s.H = false ∧ t = (captureOperands chs s).invalidBuffer false)) := by
  unfold execCapacity at h
  split at h
  · refine ⟨‹_›, ?_⟩
    cases hb : bufferOk s.cfg s.W s.H
    · exact .inr ⟨rfl, by simpa [checkTail, hb] using h.symm⟩
    · exact .inl ⟨rfl, by simpa [checkTail, hb] using h.symm⟩
  · cases h

/-- ENC_SYM answers a next state in CHECK alone (R125). -/
theorem execEncSym_next {sym : Byte} {s t : State} (h : execEncSym sym s = .next t) :
    s.eng.state = .check ∧
      ((∃ c, codeOf s.cfg sym = some c ∧ t = (s.setResult (natWord c)).complete .ok 0 0) ∨
       (codeOf s.cfg sym = none ∧ t = (s.setResult 0).complete .unsupportedCharacter 0 (sym.setWidth 32))) := by
  unfold execEncSym at h
  split at h
  · refine ⟨‹_›, ?_⟩
    split at h
    · exact .inl ⟨_, ‹_›, by simpa using h.symm⟩
    · exact .inr ⟨‹_›, by simpa using h.symm⟩
  · cases h

/-- DEC_SYM answers a next state in CHECK alone (R126). -/
theorem execDecSym_next {code : Byte} {s t : State} (h : execDecSym code s = .next t) :
    s.eng.state = .check ∧
      ((∃ sym, symbolOf s.cfg code.toNat = some sym ∧ t = (s.setResult (sym.setWidth 32)).complete .ok 0 0) ∨
       (symbolOf s.cfg code.toNat = none ∧ t = (s.setResult 0).complete .invalidCode 0 (code.setWidth 32))) := by
  unfold execDecSym at h
  split at h
  · refine ⟨‹_›, ?_⟩
    split at h
    · exact .inl ⟨_, ‹_›, by simpa using h.symm⟩
    · exact .inr ⟨‹_›, by simpa using h.symm⟩
  · cases h

/-- The step of an illegal word answers a next state in CHECK alone (R231). -/
theorem illegalStep_next {s t : State} (h : illegalStep s = .next t) :
    s.eng.state = .check ∧ t = s.illegalCompletion s.eng.cmd := by
  unfold illegalStep at h
  split at h
  · exact ⟨‹_›, by simpa using h.symm⟩
  · cases h

/-- The load at the start of a code changes `E.i` and `E.acc` alone (R175). -/
theorem encLoad_next {s t : State} (h : encLoad s = .ok t) :
    ∃ i acc, t = { s with eng := { s.eng with i := i, acc := acc } } ∧
      (s.eng.t % s.eng.k ≠ 0 → i = s.eng.i ∧ acc = s.eng.acc) ∧
      (s.eng.t % s.eng.k = 0 → i = s.eng.t / s.eng.k ∧
        ((i < s.eng.len.toNat ∧ ∃ c, codeOf s.cfg (s.msgRead i) = some c ∧ acc = BitVec.ofNat 8 c) ∨
         (¬ i < s.eng.len.toNat ∧ acc = 0))) := by
  unfold encLoad at h
  split at h
  · rename_i h0
    dsimp only at h
    split at h
    · split at h
      · split at h
        · cases h
          exact ⟨_, _, rfl, fun h => absurd h0 h, fun _ => ⟨rfl, .inl ⟨‹_›, _, ‹_›, rfl⟩⟩⟩
        · cases h
      · cases h
    · cases h
      exact ⟨_, _, rfl, fun h => absurd h0 h, fun _ => ⟨rfl, .inr ⟨‹_›, rfl⟩⟩⟩
  · cases h
    exact ⟨_, _, rfl, fun _ => ⟨rfl, rfl⟩, fun h => absurd h ‹_›⟩

/-- EMBED answers a next state by a skip or by one slot (R175). -/
theorem encEmbed_next {trav : Trav} {embed : Embed} {s t : State} (h : encEmbed trav embed s = .next t) :
    (travVisit trav s.eng = .skip ∧ t = { s with eng := travAdvance trav s.eng }) ∨
    ∃ sl u, travVisit trav s.eng = .slot sl ∧ sl.p < s.cfg.pixWordsMax ∧
      encLoad { s with eng := travAdvance trav s.eng } = .ok u ∧
      t = encCount trav (embedSlot embed sl (payloadBit u.eng) u) := by
  unfold encEmbed at h
  dsimp only at h
  split at h
  · exact .inl ⟨‹_›, by simpa using h.symm⟩
  · cases h
  · split at h
    · split at h
      · exact .inr ⟨_, _, ‹_›, ‹_›, ‹_›, by simpa using h.symm⟩
      · cases h
    · cases h

/-- VALIDATE answers a next state by one symbol (R172). -/
theorem encValidate_next {trav : Trav} {s t : State} (h : encValidate trav s = .next t) :
    s.eng.i < s.cfg.msgBytesMax ∧
      ((codeOf s.cfg (s.msgRead s.eng.i) = none ∧
          t = encFinish trav .unsupportedCharacter (natWord s.eng.i) ((s.msgRead s.eng.i).setWidth 32) s) ∨
       (codeOf s.cfg (s.msgRead s.eng.i) ≠ none ∧ t = encSymbolOk s)) := by
  unfold encValidate at h
  split at h
  · refine ⟨‹_›, ?_⟩
    split at h
    · exact .inl ⟨‹_›, by simpa using h.symm⟩
    · exact .inr ⟨by simp [*], by simpa using h.symm⟩
  · cases h

/-- The five steps of ENCODE (R170). -/
theorem execEncode_next {trav : Trav} {embed : Embed} {chs : List Channel} {s t : State}
    (h : execEncode trav embed chs s = .next t) :
    (s.eng.state = .check ∧
      ((bufferOk s.cfg s.W s.H = true ∧ t = encCheck trav (setCap trav (captureOperands chs s))) ∨
       (bufferOk s.cfg s.W s.H = false ∧ t = (captureOperands chs s).invalidBuffer false))) ∨
    (s.eng.state = .validate ∧ encValidate trav s = .next t) ∨
    (s.eng.state = .capchk ∧ t = encCapchk trav s) ∨
    (s.eng.state = .travinit ∧ t = encTravinit trav s) ∨
    (s.eng.state = .embed ∧ encEmbed trav embed s = .next t) := by
  unfold execEncode at h
  split at h <;> first
    | cases h; done
    | skip
  · refine .inl ⟨‹_›, ?_⟩
    cases hb : bufferOk s.cfg s.W s.H
    · exact .inr ⟨rfl, by simpa [checkTail, hb] using h.symm⟩
    · exact .inl ⟨rfl, by simpa [checkTail, hb] using h.symm⟩
  · exact .inr (.inl ⟨‹_›, h⟩)
  · exact .inr (.inr (.inl ⟨‹_›, by simpa using h.symm⟩))
  · exact .inr (.inr (.inr (.inl ⟨‹_›, by simpa using h.symm⟩)))
  · exact .inr (.inr (.inr (.inr ⟨‹_›, h⟩)))

/-- SCAN answers a next state by the end of the slots, by a skip or by one slot (R183, R185). -/
theorem decScan_next {trav : Trav} {s t : State} (h : decScan trav s = .next t) :
    (s.eng.t = s.eng.cap ∧ t = decFinish trav .noPayloadFound (natWord s.eng.i) 0 s) ∨
    (s.eng.t ≠ s.eng.cap ∧
      ((travVisit trav s.eng = .skip ∧ t = { s with eng := travAdvance trav s.eng }) ∨
       ∃ sl, travVisit trav s.eng = .slot sl ∧ sl.p < s.cfg.pixWordsMax ∧
         t = decShift (slotBit sl s) { s with eng := travAdvance trav s.eng })) := by
  unfold decScan at h
  dsimp only at h
  split at h
  · exact .inl ⟨‹_›, by simpa using h.symm⟩
  · refine .inr ⟨‹_›, ?_⟩
    split at h
    · exact .inl ⟨‹_›, by simpa using h.symm⟩
    · cases h
    · split at h
      · exact .inr ⟨_, ‹_›, ‹_›, by simpa using h.symm⟩
      · cases h

/-- DECODE_CODE answers a next state by one of three completions or by one symbol stored (R184, R187). -/
theorem decCode_next {trav : Trav} {s t : State} (h : decCode trav s = .next t) :
    (∃ err idx val, t = decFinish trav err idx val { s with eng := { s.eng with acc := 0, nb := 0 } } ∧
      ((err = .ok ∧ idx = 0 ∧ val = 0 ∧ s.eng.acc = 0) ∨
       (err = .invalidCode ∧ idx = natWord s.eng.i ∧ val = s.eng.acc.setWidth 32 ∧ s.eng.acc ≠ 0 ∧
         symbolOf s.cfg s.eng.acc.toNat = none) ∨
       (err = .msgLength ∧ idx = natWord s.eng.i ∧ val = s.eng.acc.setWidth 32 ∧ s.eng.acc ≠ 0 ∧
         s.eng.i = s.cfg.msgBytesMax))) ∨
    ∃ sym, s.eng.acc ≠ 0 ∧ symbolOf s.cfg s.eng.acc.toNat = some sym ∧ s.eng.i < s.cfg.msgBytesMax ∧
      t = { s with
        msg := Memory.write s.msg s.eng.i sym
        eng := { s.eng with acc := 0, nb := 0, i := s.eng.i + 1, state := .scan } } := by
  unfold decCode at h
  dsimp only at h
  split at h
  · exact .inl ⟨_, _, _, by simpa using h.symm, .inl ⟨rfl, rfl, rfl, ‹_›⟩⟩
  · split at h
    · exact .inl ⟨.invalidCode, _, _, by simpa using h.symm, .inr (.inl ⟨rfl, rfl, rfl, ‹_›, ‹_›⟩)⟩
    · split at h
      · exact .inl ⟨.msgLength, _, _, by simpa using h.symm, .inr (.inr ⟨rfl, rfl, rfl, ‹_›, ‹_›⟩)⟩
      · split at h
        · exact .inr ⟨_, ‹_›, ‹_›, ‹_›, by simpa [State.msgWrite] using h.symm⟩
        · cases h

/-- The four steps of DECODE (R180). -/
theorem execDecode_next {trav : Trav} {chs : List Channel} {s t : State} (h : execDecode trav chs s = .next t) :
    (s.eng.state = .check ∧
      ((bufferOk s.cfg s.W s.H = true ∧ t = (setCap trav (captureOperands chs s)).toPhase .travinit) ∨
       (bufferOk s.cfg s.W s.H = false ∧ t = (captureOperands chs s).invalidBuffer true))) ∨
    (s.eng.state = .travinit ∧ t = decTravinit trav s) ∨
    (s.eng.state = .scan ∧ decScan trav s = .next t) ∨
    (s.eng.state = .decodeCode ∧ decCode trav s = .next t) := by
  unfold execDecode at h
  split at h <;> first
    | cases h; done
    | skip
  · refine .inl ⟨‹_›, ?_⟩
    cases hb : bufferOk s.cfg s.W s.H
    · exact .inr ⟨rfl, by simpa [checkTail, hb] using h.symm⟩
    · exact .inl ⟨rfl, by simpa [checkTail, hb] using h.symm⟩
  · exact .inr (.inl ⟨‹_›, by simpa using h.symm⟩)
  · exact .inr (.inr (.inl ⟨‹_›, h⟩))
  · exact .inr (.inr (.inr ⟨‹_›, h⟩))

end Sys2Proof.Machine
end

