-- ==== Sys2Proof/Laws/PerInstr.lean ====
section
/-! SUPPORT. One law per command, as syntax: the word of a command sets only the bits its OP allows, and it is in the
command's own row of the opcode map (spec 30_encoding.md R97, R101). -/

namespace Sys2Proof.Laws.EncodeLegal

/-- The word of the command is legal, and it encodes the row of the opcode map that has the command's mnemonic. -/
def Statement (i : Instr) : Prop :=
  legal (encode i) = true ∧ ∃ r ∈ opcodeTable, r.mnemonic = i.mnemonic ∧ r.encodes (encode i) = true

theorem nop : Statement .nop := ⟨by decide, ⟨_, .head _, rfl, by decide⟩⟩

theorem capacity (trav : Trav) (chs : List Channel) : Statement (.capacity trav chs) := by
  simp only [Statement, Sys2Proof.encode]
  generalize chmaskOf chs = mask
  refine ⟨?_, ⟨_, .tail _ (.head _), rfl, ?_⟩⟩ <;> cases trav <;> revert mask <;> decide +kernel

theorem encode (trav : Trav) (embed : Embed) (chs : List Channel) : Statement (.encode trav embed chs) := by
  simp only [Statement, Sys2Proof.encode]
  generalize chmaskOf chs = mask
  refine ⟨?_, ⟨_, .tail _ (.tail _ (.head _)), rfl, ?_⟩⟩ <;> cases trav <;> cases embed <;> revert mask <;>
    decide +kernel

theorem decode (trav : Trav) (chs : List Channel) : Statement (.decode trav chs) := by
  simp only [Statement, Sys2Proof.encode]
  generalize chmaskOf chs = mask
  refine ⟨?_, ⟨_, .tail _ (.tail _ (.tail _ (.head _))), rfl, ?_⟩⟩ <;> cases trav <;> revert mask <;> decide +kernel

theorem encSym (sym : Byte) : Statement (.encSym sym) := by
  simp only [Statement, Sys2Proof.encode]
  refine ⟨?_, ⟨_, .tail _ (.tail _ (.tail _ (.tail _ (.head _)))), rfl, ?_⟩⟩ <;> revert sym <;> decide +kernel

theorem decSym (code : Byte) : Statement (.decSym code) := by
  simp only [Statement, Sys2Proof.encode]
  refine ⟨?_, ⟨_, .tail _ (.tail _ (.tail _ (.tail _ (.tail _ (.head _))))), rfl, ?_⟩⟩ <;> revert code <;>
    decide +kernel

end Sys2Proof.Laws.EncodeLegal
end

