-- ==== Sys2Proof/Laws/Traversal.lean ====
section
/-! SUPPORT. The traversals in a running command: what a visit finds, how the generator moves, and what the load at the
start of a code finds (spec 41_lsb_engine.md R154, R155, R175; 42_scatter.md R202 to R206). -/

namespace Sys2Proof.Machine

/-- Below the capacity a sequential visit names a slot of the buffer (R154, R155). -/
theorem travVisit_seq {chs : List Channel} {s : State} (hc : Captured .seq chs s) (hlt : s.eng.t < s.eng.cap) :
    ∃ sl, travVisit .seq s.eng = .slot sl ∧ sl.p < s.W * s.H ∧ seqSlot chs.length chs s.eng.t = some sl := by
  rw [hc.cap] at hlt
  obtain ⟨sl, hs, hp⟩ := seqSlot_of_lt hlt
  exact ⟨sl, by simp only [travVisit, hc.nc, hc.chans, hs], hp, hs⟩

/-- A scatter visit skips or names a slot of the buffer outside pixel 0 (R202, R205). -/
theorem travVisit_scat {chs : List Channel} {s : State} (hc : Captured .scat chs s) (hg : GenAt s) :
    (travVisit .scat s.eng = .skip ∧ ¬ s.eng.x < s.eng.M) ∨
    (s.eng.x < s.eng.M ∧ ∃ sl, travVisit .scat s.eng = .slot sl ∧ 1 ≤ sl.p ∧ sl.p < s.W * s.H ∧
      scatSlot chs.length chs s.eng.x = some sl) := by
  by_cases hx : s.eng.x < s.eng.M
  · have hx' := hx
    rw [hg.M, hc.cap] at hx'
    obtain ⟨sl, hs, h1, hp⟩ := scatSlot_of_lt hx'
    refine .inr ⟨hx, sl, ?_, h1, hp, hs⟩
    simp only [travVisit, hx, if_true, hc.nc, hc.chans, hs]
  · exact .inl ⟨by simp only [travVisit, hx, if_false], hx⟩

/-- What a visit below the capacity finds, under either traversal. -/
theorem travVisit_cases {trav : Trav} {chs : List Channel} {s : State} (hc : Captured trav chs s)
    (ht : TravAt trav s) (hlt : s.eng.t < s.eng.cap) :
    (trav = .scat ∧ travVisit trav s.eng = .skip ∧ ¬ s.eng.x < s.eng.M) ∨
    (∃ sl, travVisit trav s.eng = .slot sl ∧ sl.p < s.W * s.H ∧
      (trav = .scat → 1 ≤ sl.p ∧ s.eng.x < s.eng.M)) := by
  cases trav with
  | seq =>
    obtain ⟨sl, h1, h2, -⟩ := travVisit_seq hc hlt
    exact .inr ⟨sl, h1, h2, nofun⟩
  | scat =>
    rcases travVisit_scat hc (ht rfl) with ⟨h1, h2⟩ | ⟨hx, sl, h1, h2, h3, -⟩
    · exact .inl ⟨rfl, h1, h2⟩
    · exact .inr ⟨sl, h1, h3, fun _ => ⟨h2, hx⟩⟩

/-- A slot of a valid buffer is a word of PIXMEM (R152). -/
theorem Captured.pix_lt {trav : Trav} {chs : List Channel} {s : State} (hc : Captured trav chs s) {p : Nat}
    (h : p < s.W * s.H) : p < s.cfg.pixWordsMax :=
  Nat.lt_of_lt_of_le h ((bufferOk_iff _ _ _).mp hc.buffer).2.2

/-- TRAVINIT puts the generator at its start (R204). -/
theorem genAt_scatInit {chs : List Channel} {s t : State} (hc : Captured .scat chs s)
    (he : t.eng.seed = s.pixRead 0 ∧ t.eng.M = (s.eng.w.toNat * s.eng.h.toNat - 1) * s.eng.nc ∧
      t.eng.m = genExponent t.eng.M ∧ t.eng.a = genMul t.eng.m ∧ t.eng.c = genInc t.eng.seed t.eng.m ∧
      t.eng.x = genStart t.eng.seed t.eng.m ∧ t.eng.g = 0 ∧ t.eng.t = 0)
    (hcap : t.eng.cap = s.eng.cap) (hp : t.pix = s.pix) : GenAt t := by
  obtain ⟨h1, h2, h3, h4, h5, h6, h7, h8⟩ := he
  refine ⟨by rw [h1]; simp only [State.pixRead, hp], ?_, h3, h4, h5, ?_, ?_⟩
  · rw [h2, hcap, hc.cap, hc.w, hc.h, hc.nc]
    rfl
  · rw [h6, h7, h3]
    rfl
  · rw [h8, h7]
    rfl

/-- A draw keeps the generator on its sequence (R205): `E.t` counts the accepted draws. -/
theorem genAt_draw {s t : State} (hg : GenAt s)
    (he : t.eng.seed = s.eng.seed ∧ t.eng.M = s.eng.M ∧ t.eng.m = s.eng.m ∧ t.eng.a = s.eng.a ∧ t.eng.c = s.eng.c ∧
      t.eng.cap = s.eng.cap ∧ t.eng.x = (draw s.eng).x ∧ t.eng.g = s.eng.g + 1)
    (ht : t.eng.t = s.eng.t + if s.eng.x < s.eng.M then 1 else 0) (hp : t.pixRead 0 = s.pixRead 0) : GenAt t := by
  obtain ⟨h1, h2, h3, h4, h5, h6, h7, h8⟩ := he
  refine ⟨by rw [h1, hp, hg.seed], by rw [h2, h6, hg.M], by rw [h3, h2, hg.m], by rw [h4, h3, hg.a],
    by rw [h5, h1, h3, hg.c], ?_, ?_⟩
  · rw [h7, h8, h1, h2]
    show genNext s.eng.a s.eng.c s.eng.m s.eng.x = genNext _ _ _ _
    rw [hg.a, hg.c, hg.x, hg.m]
  · rw [ht, h8, h1, h2, acceptedDraws_succ, ← hg.t, ← hg.x]

/-- The end of the payload of a valid message: the code of every symbol exists and fits `E.acc` (R5, R156). -/
theorem payloadCode_eq {s : State} {len j c : Nat} (hj : j < len) (h : codeOf s.cfg (s.msgRead j) = some c) :
    payloadCode s len j = c := by simp [payloadCode, hj, h]

/-- Inside a running ENCODE the load finds the code of the payload stream (R156, R175). -/
theorem encLoad_of_run {trav : Trav} {embed : Embed} {chs : List Channel} {s : State} (hok : s.cfg.Ok)
    (hr : EncodeRuns trav embed chs s) (hf : EncodeFits s)
    (hm : s.eng.t % s.eng.k ≠ 0 →
      s.eng.i = s.eng.t / s.eng.k ∧ s.eng.acc.toNat = payloadCode s s.eng.len.toNat s.eng.i) :
    ∃ acc, encLoad s = .ok { s with eng := { s.eng with i := s.eng.t / s.eng.k, acc := acc } } ∧
      acc.toNat = payloadCode s s.eng.len.toNat (s.eng.t / s.eng.k) := by
  unfold encLoad
  by_cases h0 : s.eng.t % s.eng.k = 0
  · rw [if_pos h0]
    dsimp only
    by_cases hl : s.eng.t / s.eng.k < s.eng.len.toNat
    · rw [if_pos hl, if_pos (Nat.lt_of_lt_of_le hl hr.len)]
      obtain ⟨c, hc⟩ := Option.isSome_iff_exists.mp (hf.valid _ hl)
      have hb := code_bounds hok hc
      refine ⟨BitVec.ofNat 8 c, by rw [hc], ?_⟩
      rw [payloadCode_eq hl hc, BitVec.toNat_ofNat, Nat.mod_eq_of_lt (by omega)]
    · rw [if_neg hl]
      exact ⟨0, rfl, by simp [payloadCode, hl]⟩
  · rw [if_neg h0]
    obtain ⟨h1, h2⟩ := hm h0
    exact ⟨s.eng.acc, by rw [← h1], by rw [← h1, h2]⟩

/-- The read-modify-write of one slot, byte by byte (R66). -/
theorem read_embedSlot {s : State} (h : Memory.wf s.pix) (e : Embed) (sl : Slot) (b : Bool) (a : Nat) :
    Memory.read (embedSlot e sl b s).pix a =
      if a = pixByteAddr sl.p sl.ch then embedBit e (Memory.read s.pix a) b else Memory.read s.pix a := by
  rw [embedSlot_pix, Memory.read_write_setchan h, chan_readWord]
  split
  · subst ‹a = _›
    rfl
  · rfl

/-- The read-modify-write of a slot of one pixel leaves every other pixel alone (R66). -/
theorem pixRead_embedSlot_other {s : State} (h : Memory.wf s.pix) (e : Embed) (sl : Slot) (b : Bool) {p : Nat}
    (hp : p ≠ sl.p) : (embedSlot e sl b s).pixRead p = s.pixRead p := by
  simp only [State.pixRead, embedSlot_pix]
  exact Memory.readWord_writeWord_other h _ (by omega)

/-- A new bit enters the accumulator below the code width (R183). -/
theorem shiftIn_toNat {k nb : Nat} {acc : Byte} (hk : k ≤ 8) (hnb : nb < k) (ha : acc.toNat < 2 ^ nb) (b : Bool) :
    (shiftIn k acc b).toNat = 2 * acc.toNat + b.toNat ∧ (shiftIn k acc b).toNat < 2 ^ (nb + 1) := by
  have h1 : 2 ^ (nb + 1) ≤ 2 ^ k := Nat.pow_le_pow_right (by decide) hnb
  have h2 : 2 ^ k ≤ 2 ^ 8 := Nat.pow_le_pow_right (by decide) hk
  have h3 : 2 ^ (nb + 1) = 2 * 2 ^ nb := by rw [Nat.pow_succ, Nat.mul_comm]
  have hb := Bool.toNat_le b
  unfold shiftIn
  rw [BitVec.toNat_ofNat, Nat.mod_eq_of_lt (b := 2 ^ k) (by omega), Nat.mod_eq_of_lt (b := 2 ^ 8) (by omega)]
  exact ⟨rfl, by omega⟩

end Sys2Proof.Machine
end

