-- ==== Sys2Proof/Laws/Step.lean ====
section
/-! SUPPORT. What a step is, by the turn taken, and how runs of steps compose (spec 10_state.md R41, 20_memory.md R78,
70_reset_and_hazards.md R270, R271, R285). -/

namespace Sys2Proof.Machine

/-- With nothing scheduled, taking the turn off changes nothing. -/
theorem popTurn_of_nil {s : State} (h : s.sched = []) : popTurn s = s := by
  cases s
  simp only at h
  subst h
  rfl

/-- A turn taken off leaves the block as it is. -/
theorem popTurn_busy (s : State) : (popTurn s).busy = s.busy := rfl

/-! One step, by the turn. -/

/-- The engine's turn with a command running (R41). -/
theorem step_engine {s : State} (h : nextTurn s = .engine) (hb : s.busy = true) (hr : s.rst = false) :
    step s = engineStep (popTurn s) := by
  simp only [step, agentsStep, h, takeTurn, engineTurn, popTurn_busy, hb, popTurn_rst, hr, Bool.not_false,
    Bool.and_self, if_true]

/-- The engine's turn with none (R41, R271). -/
theorem step_engine_idle {s : State} (h : nextTurn s = .engine) (hb : s.busy = false ∨ s.rst = true) :
    step s = .next (popTurn s) := by
  have : (s.busy && !s.rst) = false := by
    rcases hb with hb | hb <;> simp [hb]
  simp only [step, agentsStep, h, takeTurn, engineTurn, popTurn_busy, popTurn_rst, this, Bool.false_eq_true, if_false]

/-- The host's turn (R70). -/
theorem step_host {s : State} (h : nextTurn s = .host) : step s = .next (hostTurn (popTurn s)) := by
  simp only [step, agentsStep, h, takeTurn]

/-- The reset pin is asserted (R270). -/
theorem step_assertRst {s : State} (h : nextTurn s = .assertRst) : step s = .next (assertReset (popTurn s)) := by
  simp only [step, agentsStep, h, takeTurn]

/-- The reset pin is released (R271). -/
theorem step_releaseRst {s : State} (h : nextTurn s = .releaseRst) : step s = .next (releaseReset (popTurn s)) := by
  simp only [step, agentsStep, h, takeTurn]

/-- With only the engine moving, a step is the engine's (R285: it needs only to be scheduled). -/
theorem step_quiet {s : State} (h : s.Quiet) (hb : s.busy = true) : step s = engineStep s := by
  have hn : nextTurn s = .engine := by simp [nextTurn, h.2.2, defaultTurn, hb, h.1]
  rw [step_engine hn hb h.1, popTurn_of_nil h.2.2]

/-- The engine changes nothing of the outside world, and no parameter, when it takes a step (R41). -/
theorem engineStep_outside {s t : State} (h : engineStep s = .next t) :
    t.cfg = s.cfg ∧ t.rst = s.rst ∧ t.host = s.host ∧ t.sched = s.sched ∧ t.resp = s.resp := by
  unfold engineStep at h
  split at h
  · rename_i i _
    cases i with
    | nop => obtain ⟨-, rfl⟩ := execNop_next h; simp
    | encSym => obtain ⟨-, ⟨_, _, rfl⟩ | ⟨_, rfl⟩⟩ := execEncSym_next h <;> simp
    | decSym => obtain ⟨-, ⟨_, _, rfl⟩ | ⟨_, rfl⟩⟩ := execDecSym_next h <;> simp
    | capacity => obtain ⟨-, ⟨_, rfl⟩ | ⟨_, rfl⟩⟩ := execCapacity_next h <;> simp
    | decode =>
      rcases execDecode_next h with ⟨-, ⟨_, rfl⟩ | ⟨_, rfl⟩⟩ | ⟨_, rfl⟩ | ⟨_, h⟩ | ⟨-, h⟩
      · simp
      · simp
      · simp
      · rcases decScan_next h with ⟨_, rfl⟩ | ⟨_, ⟨_, rfl⟩ | ⟨_, _, _, rfl⟩⟩ <;> simp
      · rcases decCode_next h with ⟨_, _, _, rfl, _⟩ | ⟨_, _, _, _, rfl⟩ <;> simp
    | encode =>
      rcases execEncode_next h with ⟨-, ⟨_, rfl⟩ | ⟨_, rfl⟩⟩ | ⟨_, h⟩ | ⟨_, rfl⟩ | ⟨_, rfl⟩ | ⟨-, h⟩
      · simp
      · simp
      · rcases encValidate_next h with ⟨_, ⟨_, rfl⟩ | ⟨_, rfl⟩⟩ <;> simp
      · simp
      · simp
      · rcases encEmbed_next h with ⟨_, rfl⟩ | ⟨_, _, _, _, hl, rfl⟩
        · simp
        · obtain ⟨_, _, rfl, _⟩ := encLoad_next hl
          simp
  · obtain ⟨-, rfl⟩ := illegalStep_next h
    simp

/-- So the engine alone stays alone. -/
theorem engineStep_quiet {s t : State} (h : engineStep s = .next t) (hq : s.Quiet) : t.Quiet := by
  obtain ⟨-, h1, h2, h3, -⟩ := engineStep_outside h
  exact ⟨h1.trans hq.1, h2.trans hq.2.1, h3.trans hq.2.2⟩

/-! Runs. -/

/-- A run of one step more. -/
theorem runSteps_succ {s t : State} (h : step s = .next t) (n : Nat) : runSteps (n + 1) s = runSteps n t := by
  simp only [runSteps, h]

/-- Runs compose. -/
theorem runSteps_add {s t : State} {m : Nat} (h : runSteps m s = .next t) (n : Nat) :
    runSteps (m + n) s = runSteps n t := by
  induction m generalizing s with
  | zero =>
    simp only [runSteps, Host.Outcome.next.injEq] at h
    subst h
    rw [Nat.zero_add]
  | succ m ih =>
    rw [Nat.succ_add]
    simp only [runSteps] at h ⊢
    split at h
    · exact ih h
    · cases h
    · cases h

/-- A command that takes one step and is then idle completes in one step (R285). -/
theorem completesIn_one {s t : State} (h : step s = .next t) (ht : t.Idle) (hs : ¬ s.Idle) : CompletesIn 1 s t := by
  refine ⟨by simp only [runSteps, h], ht, fun m hm => ?_⟩
  obtain rfl : m = 0 := by omega
  exact ⟨s, rfl, hs⟩

/-- One busy step before a completion. -/
theorem completesIn_succ {s t u : State} {n : Nat} (h : step s = .next t) (hs : ¬ s.Idle) (ht : CompletesIn n t u) :
    CompletesIn (n + 1) s u := by
  refine ⟨(runSteps_succ h n).trans ht.1, ht.2.1, fun m hm => ?_⟩
  cases m with
  | zero => exact ⟨s, rfl, hs⟩
  | succ m =>
    obtain ⟨v, hv, hi⟩ := ht.2.2 m (by omega)
    exact ⟨v, (runSteps_succ h m).trans hv, hi⟩

end Sys2Proof.Machine
end

