-- ==== Sys2Proof/Tests/Slice0.lean ====
section
/-! SUPPORT. The model's own tests: ill-formed commands, words written out from the encodings, one step of each command
with the result the spec's examples give, and, for every statement with hypotheses, a state and operands that meet them. -/

namespace Sys2Proof.Tests

-- One kernel check at a time.
set_option Elab.async false

open Sys2Proof Sys2Proof.Machine

/-! WellFormed. -/

theorem test_wellFormed_refuses_a_channel_twice : ¬ (Instr.encode .seq .repl [.r, .r]).WellFormed := by decide
theorem test_wellFormed_refuses_another_order : ¬ (Instr.capacity .scat [.g, .r]).WellFormed := by decide
theorem test_wellFormed_refuses_blue_after_alpha : ¬ (Instr.decode .seq [.r, .a, .b]).WellFormed := by decide
theorem test_wellFormed_takes_all_channels : (Instr.decode .scat [.r, .g, .b, .a]).WellFormed := by decide
theorem test_wellFormed_takes_none : (Instr.encode .seq .matching []).WellFormed := by decide

/-! Decode: words written out from the patterns of R101, bits 31 to 0. -/

theorem test_decode_nop : decode 0b00000000000000000000000000000000 = .ok .nop := by decide
-- 0000 0000 0000 0000 0000 CCCC 000T 0001, CHMASK 0b0111, TRAV 1 (R93, R94, R161: 0x00000711)
theorem test_decode_capacity : decode 0b00000000000000000000011100010001 = .ok (.capacity .scat [.r, .g, .b]) := by
  decide
-- 0000 0000 0000 0000 0000 CCCC 00ET 0010 (R102: ENCODE scat, match, RGB is 0x00000732)
theorem test_decode_encode :
    decode 0b00000000000000000000011100110010 = .ok (.encode .scat .matching [.r, .g, .b]) := by decide
theorem test_decode_encode_seq_alpha :
    decode 0b00000000000000000000100000100010 = .ok (.encode .seq .matching [.a]) := by decide
theorem test_decode_decode : decode 0b00000000000000000000010100000011 = .ok (.decode .seq [.r, .b]) := by decide
-- 0000 0000 OOOO OOOO 0000 0000 0000 0100 (R125: ENC_SYM 'H')
theorem test_decode_encSym : decode 0b00000000010010000000000000000100 = .ok (.encSym 0x48) := by decide
-- R126: DEC_SYM 0x29
theorem test_decode_decSym : decode 0b00000000001010010000000000000101 = .ok (.decSym 0x29) := by decide
theorem test_decode_reserved_op : decode 0x0000000F = .error .reservedOp := by decide
theorem test_decode_reserved_bit : decode 0x01000001 = .error .reservedBit := by decide
theorem test_decode_embed_on_decode : decode 0x00000723 = .error .unusedField := by decide
theorem test_decode_operand_on_nop : decode 0x00010000 = .error .unusedField := by decide
theorem test_encode_encode : encode (.encode .scat .matching [.r, .g, .b]) = 0x00000732 := by decide
theorem test_encode_encSym : encode (.encSym 0x48) = 0x00480004 := by decide
theorem test_decodeTableWord : decodeTableWord 32 0x00290005 = some (.decSym 0x29) := by decide
theorem test_decodeTableWord_refuses : decodeTableWord 32 0x00000046 = none := by decide
-- R102: the spelling order of the letters does not matter
theorem test_assemble : assemble "ENCODE".toList ["scat".toList, "match".toList, "GBR".toList] =
    some (.encode .scat .matching [.r, .g, .b]) := by decide
theorem test_assemble_character : assemble "ENC_SYM".toList ["'H'".toList] = some (.encSym 0x48) := by decide

/-! Small states. -/

/-- The next state of a result, where there is one. -/
def nextOf : Result → Option State
  | .next s => some s
  | _ => none

/-- The state after `n` steps; the state itself where they do not complete. -/
def after (n : Nat) (s : State) : State := (nextOf (runSteps n s)).getD s

theorem runSteps_after {n : Nat} {s : State} (h : (nextOf (runSteps n s)).isSome = true) :
    runSteps n s = .next (after n s) := by
  unfold after
  cases hr : runSteps n s with
  | next t => rfl
  | fault f => simp [hr, nextOf] at h
  | refused r => simp [hr, nextOf] at h

/-- The reference block with a buffer of this size and these designated operands, in CHECK. -/
def refCheck (w h : BitVec 16) (cmd : Word) : State :=
  ({ State.reset with regs := { Regs.reset with width := w, height := h } } : State).accept cmd

/-! One step of each command. -/

-- R160: `RUN NOP` leaves ERR = 0 and DONE = 1
theorem test_nop : (nextOf (execNop (refCheck 0 0 0))).map (fun t => (t.regs.err, t.regs.done, t.eng.state)) =
    some (.ok, true, .idle) := by decide +kernel
-- R161: W = 14, H = 1: 42 for sequential RGB, 39 for scatter
theorem test_capacity_seq : (nextOf (step ((refCheck 14 1 0).withFetchWord 32 0x00000701))).map (·.regs.result) =
    some 42 := by decide +kernel
theorem test_capacity_scat : (nextOf (step ((refCheck 14 1 0).withFetchWord 32 0x00000711))).map (·.regs.capacity) =
    some 39 := by decide +kernel
-- R125: ENC_SYM 'H' gives 41; a byte outside the table is UNSUPPORTED_CHARACTER
theorem test_encSym : (nextOf (step ((refCheck 0 0 0).withFetchWord 32 0x00480004))).map (·.regs.result) =
    some 41 := by decide +kernel
theorem test_encSym_unsupported : (nextOf (execEncSym 0x7F (refCheck 0 0 0))).map (fun t => (t.regs.err, t.regs.errValue)) =
    some (.unsupportedCharacter, 0x7F) := by decide +kernel
-- R126: DEC_SYM 0x29 gives 'H'; DEC_SYM 0 is INVALID_CODE
theorem test_decSym : (nextOf (step ((refCheck 0 0 0).withFetchWord 32 0x00290005))).map (·.regs.result) =
    some 0x48 := by decide +kernel
theorem test_decSym_terminator : (nextOf (execDecSym 0 (refCheck 0 0 0))).map (fun t => (t.regs.err, t.regs.result)) =
    some (.invalidCode, 0) := by decide +kernel
-- R152: ERR_VALUE is H in 31:16 and W in 15:0
theorem test_encode_invalid_buffer : (nextOf (execEncode .seq .repl [.r] (refCheck 3 0 0))).map
    (fun t => (t.regs.err, t.regs.errValue)) = some (.invalidBuffer, 0x00000003) := by decide +kernel
-- R158, R175: LSB matching of bit 0 into 255 gives 254, in the designated channel alone
theorem test_encode_embed : (nextOf (execEncode .seq .matching [.g] { refCheck 2 1 0x00000222 with
    pix := [(0, 0xFF), (1, 0xFF)]
    eng := { Engine.reset with state := .embed, w := 2, h := 1, k := 7, chs := [.g], nc := 1, cap := 2, need := 7 } })).map
    (fun t => (t.pixRead 0, t.eng.t)) = some (0x0000FEFF, 1) := by decide +kernel
-- R184: a zero group ends the message
theorem test_decode_terminator : (nextOf (execDecode .seq [.g] { refCheck 2 1 0x00000203 with
    eng := { Engine.reset with state := .decodeCode, k := 7, nb := 7, i := 5 } })).map
    (fun t => (t.regs.err, t.regs.msgLen, t.regs.result)) = some (.ok, 5, 5) := by decide +kernel
-- R183: the LSB of the visited slot enters the accumulator
theorem test_decode_scan : (nextOf (execDecode .seq [.g] { refCheck 2 1 0x00000203 with
    pix := [(1, 0x01)]
    eng := { Engine.reset with state := .scan, w := 2, h := 1, k := 7, chs := [.g], nc := 1, cap := 2, acc := 2 } })).map
    (fun t => (t.eng.acc, t.eng.nb, t.eng.t)) = some (5, 1, 1) := by decide +kernel
-- R270: reset while a command runs
theorem test_reset_abandons : (nextOf (step { refCheck 14 1 0x00000701 with sched := [.assertRst] })).map
    (fun t => (t.busy, t.regs.done, t.regs.width)) = some (false, false, 0) := by decide +kernel

/-! A small block for the witnesses: 'A' and 'B' have codes 1 and 2, so K = 2; 2 by 2 pixels; pixel 0 holds 6, so under
scatter over two channels (M = 6, m = 3) the first two draws are 6 and 7, which are rejected. -/

def tiny : Config := ⟨[(0x41, 1), (0x42, 2)], 4, 4⟩

def base : State :=
  { State.powerOn tiny [(0, 6), (6, 0xFF), (9, 1)] [(0, 0x42), (1, 0x43)] with
    regs := { Regs.reset with width := 2, height := 2, msgLen := 1 } }

/-- The block in the CHECK of a command word. -/
def checking (w : Word) : State := base.accept w

/-- ENCODE scat, match, RG; ENCODE seq, repl, RG; DECODE scat, RG; DECODE seq, RG. -/
def encScat (n : Nat) : State := after n (checking 0x00000632)
@[inherit_doc encScat]
def encSeq (n : Nat) : State := after n (checking 0x00000602)
@[inherit_doc encScat]
def decScat (n : Nat) : State := after n (checking 0x00000613)
@[inherit_doc encScat]
def decSeq (n : Nat) : State := after n (checking 0x00000603)

/-- The invariant but for the phase, as one decidable statement. -/
abbrev Sound (s : State) : Prop :=
  s.cfg.Ok ∧ (Memory.wf s.pix ∧ Memory.wf s.msg) ∧ Memory.Below s.pix (4 * s.cfg.pixWordsMax) ∧
    Memory.Below s.msg s.cfg.msgBytesMax ∧ (s.rst = true → s.regs = Regs.reset ∧ s.eng = Engine.reset) ∧
    s.eng.cmd = s.regs.cmd ∧ (s.busy = true → s.regs.done = false)

theorem inv_of_sound {s : State} (h : Sound s) (hp : PhaseOk s) : Inv s := by
  obtain ⟨h1, ⟨h2, h3⟩, h4, h5, h6, h7, h8⟩ := h
  exact ⟨h1, h2, h3, h4, h5, h6, h7, h8, hp⟩

theorem inv_of_resting {s : State} (h : Sound s ∧ (s.eng.state = .idle ∨ s.eng.state = .check)) : Inv s :=
  inv_of_sound h.1 (by rcases h.2 with hp | hp <;> simp [PhaseOk, hp])

/-- `Captured` as one decidable statement. -/
abbrev CapturedD (trav : Trav) (chs : List Channel) (s : State) : Prop :=
  (s.eng.w = s.regs.width ∧ s.eng.h = s.regs.height ∧ s.eng.len = s.regs.msgLen) ∧
    s.eng.k = codeWidth s.cfg ∧ (s.eng.chs = chs ∧ s.eng.nc = chs.length) ∧ bufferOk s.cfg s.W s.H = true ∧
    s.eng.cap = capacityBits trav s.W s.H chs.length

theorem captured_of {trav : Trav} {chs : List Channel} {s : State} (h : CapturedD trav chs s) : Captured trav chs s :=
  ⟨h.1.1, h.1.2.1, h.1.2.2, h.2.1, h.2.2.1.1, h.2.2.1.2, h.2.2.2.1, h.2.2.2.2⟩

/-- `GenAt` as one decidable statement. -/
abbrev GenAtD (s : State) : Prop :=
  (s.eng.seed = s.pixRead 0 ∧ s.eng.M = s.eng.cap) ∧ (s.eng.m = genExponent s.eng.M ∧ s.eng.a = genMul s.eng.m) ∧
    s.eng.c = genInc s.eng.seed s.eng.m ∧ s.eng.x = genDraw s.eng.seed s.eng.M s.eng.g ∧
    s.eng.t = acceptedDraws s.eng.seed s.eng.M s.eng.g

theorem genAt_of {s : State} (h : GenAtD s) : GenAt s :=
  ⟨h.1.1, h.1.2, h.2.1.1, h.2.1.2, h.2.2.1, h.2.2.2.1, h.2.2.2.2⟩

/-- A state in EMBED that has the invariant. -/
theorem inv_of_embed {s : State} (trav : Trav) (embed : Embed) (chs : List Channel)
    (hs : Sound s) (h : s.eng.state = .embed ∧ decode s.eng.cmd = .ok (.encode trav embed chs) ∧ CapturedD trav chs s)
    (hf : s.eng.len.toNat ≤ s.cfg.msgBytesMax ∧ MappedBelow s s.eng.len.toNat ∧
      s.eng.need = s.eng.k * (s.eng.len.toNat + 1) ∧ s.eng.need ≤ s.eng.cap)
    (hg : trav = .scat → GenAtD s) (ht : s.eng.t < s.eng.need ∧ (s.eng.t % s.eng.k ≠ 0 →
        s.eng.i = s.eng.t / s.eng.k ∧ s.eng.acc.toNat = payloadCode s s.eng.len.toNat s.eng.i)) : Inv s := by
  refine inv_of_sound hs ?_
  rw [PhaseOk, h.1]
  exact ⟨trav, embed, chs, ⟨h.2.1, captured_of h.2.2, hf.1⟩, ⟨hf.2.1, hf.2.2.1, hf.2.2.2⟩, fun ht => genAt_of (hg ht),
    ht⟩

/-- A state in SCAN that has the invariant. -/
theorem inv_of_scan {s : State} (trav : Trav) (chs : List Channel)
    (hs : Sound s) (h : s.eng.state = .scan ∧ decode s.eng.cmd = .ok (.decode trav chs) ∧ CapturedD trav chs s)
    (hg : trav = .scat → GenAtD s) (ht : s.eng.t ≤ s.eng.cap ∧ s.eng.nb < s.eng.k ∧
      s.eng.t = s.eng.i * s.eng.k + s.eng.nb ∧ s.eng.i ≤ s.cfg.msgBytesMax ∧ s.eng.acc.toNat < 2 ^ s.eng.nb) :
    Inv s := by
  refine inv_of_sound hs ?_
  rw [PhaseOk, h.1]
  exact ⟨trav, chs, ⟨h.2.1, captured_of h.2.2⟩, fun ht => genAt_of (hg ht), ht⟩

/-- In EMBED under scatter, where the next draw is rejected. -/
theorem inv_embed_skip : Inv (encScat 4) :=
  inv_of_embed .scat .matching [.r, .g] (by decide +kernel) (by decide +kernel) (by decide +kernel) (fun _ => by decide +kernel) (by decide +kernel)

/-- In EMBED under the sequential traversal, at the first bit. -/
theorem inv_embed_first : Inv (encSeq 4) :=
  inv_of_embed .seq .repl [.r, .g] (by decide +kernel) (by decide +kernel) (by decide +kernel) nofun (by decide +kernel)

/-- In EMBED under the sequential traversal, at the last bit. -/
theorem inv_embed_last : Inv (encSeq 7) :=
  inv_of_embed .seq .repl [.r, .g] (by decide +kernel) (by decide +kernel) (by decide +kernel) nofun (by decide +kernel)

/-- In SCAN under scatter, where the next draw is rejected. -/
theorem inv_scan_skip : Inv (decScat 2) :=
  inv_of_scan .scat [.r, .g] (by decide +kernel) (by decide +kernel) (fun _ => by decide +kernel) (by decide +kernel)

/-- In SCAN under the sequential traversal, at the first slot. -/
theorem inv_scan_first : Inv (decSeq 2) :=
  inv_of_scan .seq [.r, .g] (by decide +kernel) (by decide +kernel) nofun (by decide +kernel)

/-- In SCAN with no slot at all: DECODE seq, none. -/
theorem inv_scan_end : Inv (after 2 (checking 0x00000003)) :=
  inv_of_scan .seq [] (by decide +kernel) (by decide +kernel) nofun (by decide +kernel)

theorem inv_base : Inv base := inv_of_resting (by decide +kernel)

theorem completesIn_of {n : Nat} {s : State} (h : (∀ m < n + 1, (nextOf (runSteps m s)).isSome = true) ∧
    (after n s).Idle ∧ ∀ m < n, ¬ (after m s).Idle) : CompletesIn n s (after n s) :=
  ⟨runSteps_after (h.1 n (by omega)), h.2.1,
    fun m hm => ⟨after m s, runSteps_after (h.1 m (by omega)), h.2.2 m hm⟩⟩

/-! What the hypotheses of the statements are met by, in the order of the statements. -/

-- The encodings.
theorem test_witness_EncodedCommandDecodesBack : (Instr.encode .scat .matching [.r, .g, .b, .a]).WellFormed := by decide
theorem test_witness_DecodeReadsTheFieldsOfLegalWords :
    legal 0x00000006 = false ∧ (legal 0 = true ∧ (0 : Word).extractLsb' 0 4 = 0) ∧
    (legal 0x00000F11 = true ∧ (0x00000F11 : Word).extractLsb' 0 4 = 1) ∧
    (legal 0x00000F32 = true ∧ (0x00000F32 : Word).extractLsb' 0 4 = 2) ∧
    (legal 0x00000F13 = true ∧ (0x00000F13 : Word).extractLsb' 0 4 = 3) ∧
    (legal 0x00FF0004 = true ∧ (0x00FF0004 : Word).extractLsb' 0 4 = 4) ∧
    (legal 0x00FF0005 = true ∧ (0x00FF0005 : Word).extractLsb' 0 4 = 5) := by decide
theorem test_witness_LegalWordsSetOnlyAllowedBits : legal 0 = true ∧ (0 : Word).extractLsb' 0 4 = 0 := by decide
theorem test_witness_OpcodeRowsPartitionLegalWords :
    [(0 : Word), 0x00000F11, 0x00000F32, 0x00000F13, 0x00FF0004, 0x00FF0005].all
      (fun w => opcodeTable.any fun r => r.encodes w) = true := by decide
theorem test_witness_IllegalWordsAreNamed :
    6 ≤ ((0x00000006 : Word).extractLsb' 0 4).toNat ∧ (0x80000005 : Word) &&& 0xFF00F0C0 ≠ 0 ∧
    ((0x00010003 : Word) &&& 0xFF00F0C0 = 0 ∧ (0x00010003 : Word) &&& ~~~ allowedMask 3 ≠ 0) := by decide
theorem test_witness_SpellingsAssemble :
    (Instr.decSym 0xFF).WellFormed ∧ ChannelsOk [.r, .b] ∧ [Channel.b, .r].Perm [.r, .b] ∧ [Channel.b, .r] ≠ [] ∧
    0x20 ≤ ' '.toNat ∧ '~'.toNat ≤ 0x7E := by
  decide

-- The step.
theorem test_witness_StepRunsTheDecodedCommand :
    (nextTurn (checking 0x00000711) = .engine ∧ (checking 0x00000711).busy = true ∧ (checking 0x00000711).rst = false ∧
      decode (checking 0x00000711).eng.cmd = .ok (.capacity .scat [.r, .g, .b])) ∧
    (nextTurn { base with sched := [.engine] } = .engine ∧ ({ base with sched := [.engine] } : State).Idle) ∧
    nextTurn { base with host := [.access (.read 0x00C .word)] } = .host ∧
    (nextTurn { checking 0 with host := [.wait], sched := [.host] } = .host ∧ (checking 0).rst = false ∧
      (checking 0).busy = true) ∧
    decode 0x00480004 = .ok (.encSym 0x48) := by decide +kernel
theorem test_witness_IllegalWordCompletes :
    (checking 0x00000046).rst = false ∧
    (checking 0x00000046).eng.state = .check ∧ decode (checking 0x00000046).eng.cmd = .error .reservedOp := by
  decide +kernel

-- Reset.
theorem test_witness_RegistersAfterReset :
    tiny.Ok ∧ RegName.seed ∈ regMap ∧ RegName.seed ≠ .id ∧ RegName.seed ≠ .alphaInfo := by decide +kernel
theorem test_witness_AssertedResetKeepsMemories :
    ({ encSeq 6 with sched := [.assertRst, .releaseRst] } : State).sched = .assertRst :: [.releaseRst] := rfl
theorem test_witness_ResetLineBlocksTheBlock :
    let s := { assertReset (encSeq 6) with sched := [.releaseRst, .engine] }
    Inv s ∧ s.sched = .releaseRst :: [.engine] ∧ s.rst = true ∧ 3 < s.cfg.msgBytesMax :=
  ⟨inv_of_resting (by decide +kernel), by decide +kernel⟩

-- The bus: the block idle, for RegisterReadsShowTheirFields, MsgWordsAreLittleEndian, HostStoresReadBack,
-- StatusWriteClearsWrittenOnes, CtrlWriteSetsIrqEnable, CmdWriteAcceptsOrDrops, IdleOperandWritesTakeEffect and
-- ReadOnlyRegistersIgnoreWrites; and busy, for CmdWriteAcceptsOrDrops and BusyDropsOperandWrites.
theorem test_witness_bus_idle :
    base.cfg.Ok ∧ base.rst = false ∧ base.Idle ∧ base.busy = false ∧ Memory.wf base.msg ∧ Memory.wf base.pix ∧
    4 * 0 + 3 < base.cfg.msgBytesMax ∧ 3 < base.cfg.pixWordsMax ∧
    1 < base.W ∧ 1 < base.H ∧ base.W * base.H ≤ base.cfg.pixWordsMax := by decide +kernel
theorem test_witness_bus_busy : (checking 0).cfg.Ok ∧ (checking 0).rst = false ∧ (checking 0).busy = true := by
  decide +kernel
/-- BusErrorsAreExactlyTheIllegalAccesses, at the ends of each range: the last register and the first reserved offset,
the last byte of MSGMEM and the next, the last word of PIXMEM and the next, and a memory while BUSY. -/
theorem test_witness_BusErrorsAreExactlyTheIllegalAccesses :
    base.respond (.read 0x030 .word) = .ok 0 ∧ base.respond (.read 0x034 .word) = .error ∧
    base.respond (.read 0x030 .byte) = .error ∧ base.respond (.read 0x032 .word) = .error ∧
    base.respond (.read 0x100003 .byte) = .ok 0 ∧ base.respond (.read 0x100004 .byte) = .error ∧
    base.respond (.read 0x100000 .word) = .ok 0x00004342 ∧ base.respond (.read 0x100001 .word) = .error ∧
    base.respond (.read 0x40000C .word) = .ok 0 ∧ base.respond (.read 0x400010 .word) = .error ∧
    base.respond (.read 0x400000 .byte) = .error ∧ (checking 0).respond (.read 0x400000 .word) = .error := by
  decide +kernel
theorem test_witness_BusyHostCannotReachTheCommand :
    (checking 0).busy = true ∧ 0x1000 ≤ (0x100000 : BitVec 23).toNat := by decide +kernel

-- The alphabet mapper.
theorem test_witness_CodeWidthIsLeast : tiny.Ok ∧ 1 ≤ 2 ∧ maxCode tiny + 1 ≤ 2 ^ 2 := by decide +kernel
theorem test_witness_InverseLookupInvertsLookup :
    tiny.Ok ∧ symbolOf tiny 2 = some 0x42 ∧ codeOf tiny 0x42 = some 2 ∧ maxCode tiny < 3 := by decide +kernel
theorem test_witness_SymbolCommandsRoundTrip :
    base.cfg.Ok ∧ codeOf base.cfg 0x42 = some 2 ∧ (checking 0x00420004).eng.state = .check ∧
    (checking 0x00020005).eng.state = .check ∧ (checking 0x00020005).cfg = (checking 0x00420004).cfg := by decide +kernel
theorem test_witness_EncSymGivesTheCode :
    (checking 0).eng.state = .check ∧ codeOf (checking 0).cfg 0x41 = some 1 ∧ codeOf (checking 0).cfg 0x43 = none := by
  decide +kernel
theorem test_witness_DecSymGivesTheSymbol :
    (checking 0).eng.state = .check ∧ symbolOf (checking 0).cfg (2 : Byte).toNat = some 0x42 ∧
    symbolOf (checking 0).cfg (3 : Byte).toNat = none ∧
    ((checking 0).cfg.Ok ∧ maxCode (checking 0).cfg < (0xFF : Byte).toNat) := by decide +kernel

-- NOP, CAPACITY and the CHECK of ENCODE and DECODE: a buffer of exactly PIX_WORDS_MAX words (for
-- CapacityReportsTheSlotCount, EncodeCheckTail and DecodeCheckTail), and one word more.
theorem test_witness_NopOnlyCompletes : (checking 0).eng.state = .check := by decide +kernel
theorem test_witness_valid_buffer :
    (checking 0).eng.state = .check ∧ 1 ≤ (checking 0).W ∧ 1 ≤ (checking 0).H ∧
    (checking 0).W * (checking 0).H = (checking 0).cfg.pixWordsMax := by decide +kernel
theorem test_witness_InvalidBufferCompletesInCheck :
    let s := { checking 0 with regs := { base.regs with width := 5, height := 1 } }
    let z := { checking 0 with regs := { base.regs with height := 0 } }
    s.eng.state = .check ∧ ¬ (1 ≤ s.W ∧ 1 ≤ s.H ∧ s.W * s.H ≤ s.cfg.pixWordsMax) ∧
    z.eng.state = .check ∧ ¬ (1 ≤ z.W ∧ 1 ≤ z.H ∧ z.W * z.H ≤ z.cfg.pixWordsMax) := by decide +kernel
theorem test_witness_EncodeCheckTail :
    let long := { checking 0 with regs := { base.regs with msgLen := 5 } }
    let full := { checking 0 with regs := { base.regs with msgLen := 4 } }
    let none := { checking 0 with regs := { base.regs with msgLen := 0 } }
    long.cfg.msgBytesMax < long.L ∧ (full.L ≤ full.cfg.msgBytesMax ∧ full.L ≠ 0) ∧
    (none.L ≤ none.cfg.msgBytesMax ∧ none.L = 0) := by decide +kernel

-- The phases of ENCODE.
theorem test_witness_EncodeValidatesOneSymbol :
    let last := encSeq 1
    let bad := after 2 (({ base with regs := { base.regs with msgLen := 2 } } : State).accept 0x00000602)
    (last.eng.state = .validate ∧ last.eng.i < last.eng.len.toNat ∧ last.eng.i < last.cfg.msgBytesMax ∧
      codeOf last.cfg (last.msgRead last.eng.i) ≠ none) ∧
    (bad.eng.state = .validate ∧ bad.eng.i < bad.eng.len.toNat ∧ bad.eng.i < bad.cfg.msgBytesMax ∧
      codeOf bad.cfg (bad.msgRead bad.eng.i) = none) := by decide +kernel
/-- CAPCHK with exactly enough slots (one channel, four bits) and with none. -/
theorem test_witness_EncodeComparesNeedWithCapacity :
    let exact := after 2 (checking 0x00000402)
    let none := after 2 (checking 0x00000002)
    (exact.eng.state = .capchk ∧ exact.eng.k * (exact.eng.len.toNat + 1) = exact.eng.cap) ∧
    (none.eng.state = .capchk ∧ none.eng.cap < none.eng.k * (none.eng.len.toNat + 1)) := by decide +kernel
theorem test_witness_TravinitSetsUpTheTraversal :
    (encScat 3).eng.state = .travinit ∧ (decSeq 1).eng.state = .travinit := by decide +kernel
theorem test_witness_EncodeEmbedsOneBit :
    (Inv (encScat 4) ∧ (encScat 4).eng.state = .embed ∧
      decode (encScat 4).eng.cmd = .ok (.encode .scat .matching [.r, .g]) ∧ travVisit .scat (encScat 4).eng = .skip) ∧
    (Inv (encSeq 4) ∧ (encSeq 4).eng.state = .embed ∧ decode (encSeq 4).eng.cmd = .ok (.encode .seq .repl [.r, .g]) ∧
      travVisit .seq (encSeq 4).eng = .slot ⟨0, .r⟩ ∧ (encSeq 4).eng.t + 1 < (encSeq 4).eng.need) ∧
    (Inv (encSeq 7) ∧ (encSeq 7).eng.state = .embed ∧ decode (encSeq 7).eng.cmd = .ok (.encode .seq .repl [.r, .g]) ∧
      travVisit .seq (encSeq 7).eng = .slot ⟨1, .g⟩ ∧ (encSeq 7).eng.t + 1 = (encSeq 7).eng.need) :=
  ⟨⟨inv_embed_skip, by decide +kernel⟩, ⟨inv_embed_first, by decide +kernel⟩, ⟨inv_embed_last, by decide +kernel⟩⟩
theorem test_witness_EncodeStoresOneChannelByte :
    Memory.wf (encSeq 4).pix ∧ (nextOf (exec (.encode .seq .repl [.r, .g]) (encSeq 4))).isSome = true ∧
    (encSeq 4).eng.state = .embed ∧ travVisit .seq (encSeq 4).eng = .slot ⟨0, .r⟩ ∧
    (nextOf (exec (.encode .scat .matching [.r, .g]) (encScat 4))).isSome = true ∧
    travVisit .scat (encScat 4).eng = .skip := by decide +kernel

-- The phases of DECODE.
theorem test_witness_DecodeScansOneBit :
    (Inv (after 2 (checking 0x00000003)) ∧ (after 2 (checking 0x00000003)).eng.state = .scan ∧
      decode (after 2 (checking 0x00000003)).eng.cmd = .ok (.decode .seq []) ∧
      (after 2 (checking 0x00000003)).eng.t = (after 2 (checking 0x00000003)).eng.cap) ∧
    (Inv (decScat 2) ∧ (decScat 2).eng.state = .scan ∧ decode (decScat 2).eng.cmd = .ok (.decode .scat [.r, .g]) ∧
      (decScat 2).eng.t ≠ (decScat 2).eng.cap ∧ travVisit .scat (decScat 2).eng = .skip) ∧
    (Inv (decSeq 2) ∧ (decSeq 2).eng.state = .scan ∧ decode (decSeq 2).eng.cmd = .ok (.decode .seq [.r, .g]) ∧
      (decSeq 2).eng.t ≠ (decSeq 2).eng.cap ∧ travVisit .seq (decSeq 2).eng = .slot ⟨0, .r⟩) :=
  ⟨⟨inv_scan_end, by decide +kernel⟩, ⟨inv_scan_skip, by decide +kernel⟩, ⟨inv_scan_first, by decide +kernel⟩⟩
/-- The four outcomes of a group: the terminator, a code without a symbol, the output full, and a symbol stored. -/
theorem test_witness_DecodeLooksUpOneGroup :
    let group := fun (acc : Byte) (i : Nat) =>
      ({ decSeq 4 with eng := { (decSeq 4).eng with acc := acc, i := i } } : State)
    (decSeq 4).eng.state = .decodeCode ∧ (group 0 4).eng.i ≤ (group 0 4).cfg.msgBytesMax ∧
    symbolOf (group 3 4).cfg (group 3 4).eng.acc.toNat = none ∧
    (symbolOf (group 2 4).cfg (group 2 4).eng.acc.toNat = some 0x42 ∧ (group 2 4).eng.i = (group 2 4).cfg.msgBytesMax) ∧
    (group 2 3).eng.i < (group 2 3).cfg.msgBytesMax := by decide +kernel
theorem test_witness_DecodeStoresOneMessageByte :
    let s := { decSeq 4 with eng := { (decSeq 4).eng with acc := 2 } }
    Memory.wf s.msg ∧ s.eng.state = .decodeCode ∧
    (nextOf (exec (.decode .seq [.r, .g]) s)).map (·.eng.state) = some .scan := by decide +kernel

-- The traversals.
theorem test_witness_SlotNumbersNameDistinctBytes :
    ChannelsOk [.r, .g] ∧ (7 < 4 * [Channel.r, .g].length ∧ 6 < 4 * [Channel.r, .g].length) ∧
    (5 < (4 - 1) * [Channel.r, .g].length ∧ 4 < (4 - 1) * [Channel.r, .g].length) := by decide
theorem test_witness_GeneratorHasFullPeriod : 1 ≤ 1 ∧ (0 : Nat) < 2 ^ genExponent 1 := by decide +kernel

-- The whole machine.
theorem test_witness_OnlyEmbedWritesPixelsOnlyDecodeWritesMessages :
    let s := { decSeq 4 with eng := { (decSeq 4).eng with acc := 2 } }
    (nextOf (exec (.encode .seq .repl [.r, .g]) (encSeq 4))).map (fun t => decide (t.pix ≠ (encSeq 4).pix)) = some true ∧
    (nextOf (exec (.decode .seq [.r, .g]) { s with msg := [] })).map (fun t => decide (t.msg ≠ [])) = some true ∧
    (nextOf (exec (.decode .seq []) (after 2 (checking 0x00000003)))).map
      (fun t => decide (t.regs.msgLen ≠ base.regs.msgLen)) = some true := by decide +kernel
theorem test_witness_ResultsChangeOnlyAtCompletion :
    (nextOf (engineStep (encSeq 4))).map (·.busy) = some true ∧
    (nextOf (engineStep (checking 0))).map (·.busy) = some false ∧
    (nextOf (engineStep (checking 6))).map (·.regs.err) = some .illegalCommand ∧
    (checking 6).regs.err ≠ .illegalCommand := by decide +kernel
theorem test_witness_InvariantHoldsAtReset :
    tiny.Ok ∧ Memory.wf [(15, 1)] ∧ Memory.wf [(3, 1)] ∧ Memory.Below [(15, 1)] (4 * tiny.pixWordsMax) ∧
    Memory.Below [(3, 1)] tiny.msgBytesMax := by decide +kernel
theorem test_witness_InvariantIsKeptAndNothingFaults : Inv (encScat 4) ∧ Inv (decScat 2) ∧ Inv base :=
  ⟨inv_embed_skip, inv_scan_skip, inv_base⟩
/-- Also for DrawCountStaysInRange. -/
theorem test_witness_EngineRegistersStayInRange :
    Inv (encScat 4) ∧ Engine.InRange (encScat 4).eng ∧ (nextOf (step (encScat 4))).isSome = true := by
  have h : ((encScat 4).eng.k < 2 ^ 4 ∧ (encScat 4).eng.chs.length ≤ 4 ∧ (encScat 4).eng.nc ≤ 4) ∧
      ((encScat 4).eng.cap ≤ 2 ^ 22 ∧ (encScat 4).eng.need ≤ 8 * (2 ^ 20 + 1) ∧ (encScat 4).eng.i ≤ 2 ^ 20) ∧
      ((encScat 4).eng.t ≤ 2 ^ 22 ∧ (encScat 4).eng.nb ≤ 8 ∧ (encScat 4).eng.M ≤ 2 ^ 22) ∧
      ((encScat 4).eng.m ≤ 22 ∧ (encScat 4).eng.a < 2 ^ 22 ∧ (encScat 4).eng.c < 2 ^ 22) ∧
      (encScat 4).eng.x < 2 ^ 22 ∧ (encScat 4).eng.g ≤ 2 ^ 22 ∧ (nextOf (step (encScat 4))).isSome = true := by
    decide +kernel
  obtain ⟨⟨h1, h2, h3⟩, ⟨h4, h5, h6⟩, ⟨h7, h8, h9⟩, ⟨h10, h11, h12⟩, h13, h14⟩ := h
  exact ⟨inv_embed_skip, ⟨h1, h2, h3, h4, h5, h6, h7, h8, h9, h10, h11, h12, h13, h14.1⟩, h14.2⟩
/-- ENCODE of the empty message into no slot: CHECK, then CAPCHK, host turns before, between and after. -/
theorem test_witness_InterleavingDoesNotChangeTheOutcome :
    let s := { (({ base with regs := { base.regs with msgLen := 0 } } : State).accept 0x00000002) with
      host := [.access (.write 0x010 .word 7), .wait, .access (.write 0x400000 .word 9)] }
    s.rst = false ∧ (∀ x ∈ [Turn.host, .engine, .host], x = .host ∨ x = .engine) ∧
    [Turn.host, .engine, .host].count .engine = 1 ∧
    (∀ m < 2, (nextOf (runSteps m { s with sched := List.replicate 2 .engine })).map (·.busy) = some true) ∧
    (nextOf (runSteps 2 { s with sched := List.replicate 2 .engine })).map (·.busy) = some false := by decide +kernel

-- Whole commands: the block idle, and a message of one symbol that fits both traversals, for
-- EncodeReportsTheFirstFailure, EncodeWritesThePayloadAndNothingElse, SequentialRoundTrip, ScatterRoundTrip,
-- SequentialStepCounts and ScatterStepBounds.
theorem test_witness_whole_commands :
    Inv base ∧ base.Quiet ∧ base.Idle ∧ ChannelsOk [.r, .g] ∧ bufferOk base.cfg base.W base.H = true ∧
    base.L ≤ base.cfg.msgBytesMax ∧ MappedBelow base base.L ∧
    codeWidth base.cfg * (base.L + 1) ≤ base.W * base.H * [Channel.r, .g].length ∧
    codeWidth base.cfg * (base.L + 1) ≤ (base.W * base.H - 1) * [Channel.r, .g].length ∧
    codeWidth base.cfg * (base.L + 1) ≤ capacityBits .scat base.W base.H [Channel.r, .g].length :=
  ⟨inv_base, by decide +kernel⟩
/-- The four failures of ENCODE: no buffer, a message too long, a second symbol without a code, and no slot. -/
theorem test_witness_EncodeReportsTheFirstFailure :
    let noBuffer := { base with regs := { base.regs with width := 0 } }
    let long := { base with regs := { base.regs with msgLen := 5 } }
    let unmapped := { base with regs := { base.regs with msgLen := 2 } }
    (Inv noBuffer ∧ (noBuffer.Quiet ∧ noBuffer.Idle) ∧ ChannelsOk [] ∧ bufferOk noBuffer.cfg noBuffer.W noBuffer.H = false) ∧
    (Inv long ∧ (long.Quiet ∧ long.Idle) ∧ bufferOk long.cfg long.W long.H = true ∧ long.cfg.msgBytesMax < long.L) ∧
    (Inv unmapped ∧ (unmapped.Quiet ∧ unmapped.Idle) ∧ bufferOk unmapped.cfg unmapped.W unmapped.H = true ∧
      unmapped.L ≤ unmapped.cfg.msgBytesMax ∧ 1 < unmapped.L ∧ MappedBelow unmapped 1 ∧
      codeOf unmapped.cfg (unmapped.msgRead 1) = none) ∧
    MappedBelow base base.L ∧ capacityBits .seq base.W base.H 0 < codeWidth base.cfg * (base.L + 1) :=
  ⟨⟨inv_of_resting (by decide +kernel), by decide +kernel⟩,
    ⟨inv_of_resting (by decide +kernel), by decide +kernel⟩,
    ⟨inv_of_resting (by decide +kernel), by decide +kernel⟩, by decide +kernel⟩
/-- The state the round trips decode in: that in which the ENCODE has completed, after 8 steps (R285). -/
theorem test_witness_SequentialRoundTrip :
    CompletesIn 8 (base.issue (.encode .seq .repl [.r, .g])) (encSeq 8) ∧ Inv (encSeq 8) ∧ (encSeq 8).Quiet ∧
    (encSeq 8).Idle :=
  ⟨completesIn_of (by decide +kernel),
    inv_of_resting (by decide +kernel), by decide +kernel⟩
/-- The same under scatter, after 10 steps: the first two draws are rejected. -/
theorem test_witness_ScatterRoundTrip :
    CompletesIn 10 (base.issue (.encode .scat .matching [.r, .g])) (encScat 10) ∧ Inv (encScat 10) ∧
    (encScat 10).Quiet ∧ (encScat 10).Idle :=
  ⟨completesIn_of (by decide +kernel),
    inv_of_resting (by decide +kernel), by decide +kernel⟩
/-- The first two visited LSBs are 0: DECODE seq, B of a buffer that is not zero, and DECODE scat, R of a zero buffer; and,
of the zero buffer under either traversal, too few slots. -/
theorem test_witness_ZeroBufferDecodesToEmptyMessage :
    let z := { base with pix := [] }
    (Inv base ∧ (base.Quiet ∧ base.Idle ∧ ChannelsOk [.b] ∧ bufferOk base.cfg base.W base.H = true ∧
      codeWidth base.cfg ≤ capacityBits .seq base.W base.H [Channel.b].length) ∧
      ∀ j < codeWidth base.cfg, ∀ sl,
        VisitsAt .seq (base.pixRead 0) (capacityBits .seq base.W base.H [Channel.b].length) [.b] j sl →
        (chan (base.pixRead sl.p) sl.ch).getLsbD 0 = false) ∧
    (Inv z ∧ (z.Quiet ∧ z.Idle ∧ ChannelsOk [.r] ∧ bufferOk z.cfg z.W z.H = true ∧
      (∀ p < z.W * z.H, z.pixRead p = 0) ∧ codeWidth z.cfg ≤ capacityBits .scat z.W z.H [Channel.r].length ∧
      capacityBits .scat z.W z.H 0 < codeWidth z.cfg ∧ capacityBits .seq z.W z.H 0 < codeWidth z.cfg) ∧
      ∀ j < codeWidth z.cfg, ∀ sl,
        VisitsAt .scat (z.pixRead 0) (capacityBits .scat z.W z.H [Channel.r].length) [.r] j sl →
        (chan (z.pixRead sl.p) sl.ch).getLsbD 0 = false) := by
  have hseq : ∀ j < codeWidth base.cfg,
      ((seqSlot 1 [.b] j).all fun sl => !(chan (base.pixRead sl.p) sl.ch).getLsbD 0) = true := by decide +kernel
  refine ⟨⟨inv_base, by decide +kernel, fun j hj sl h => ?_⟩, inv_of_resting (by decide +kernel), by decide +kernel,
    fun j _ sl _ => ?_⟩
  · have hs := hseq j hj
    rw [show seqSlot 1 [.b] j = some sl from h] at hs
    simpa using hs
  · have hz : ∀ ch, (chan (wordOf 0 0 0 0) ch).getLsbD 0 = false := by intro ch; cases ch <;> decide
    exact hz sl.ch

end Sys2Proof.Tests
end

section
/-! PROOFS. The code width (spec 00_scope.md R6). -/

namespace Sys2Proof.Machine

/-- No width at least 1 that holds `N + 1` codes is below `K` (R6). -/
theorem codeWidth_le_of_holds {c : Config} {e : Nat} (he : 1 ≤ e) (h : maxCode c + 1 ≤ 2 ^ e) : codeWidth c ≤ e :=
  Nat.max_le.mpr ⟨he, ceilLog2_le h⟩

theorem maxCode_reference : maxCode Config.reference = 95 := by decide +kernel

theorem codeWidth_reference : codeWidth Config.reference = 7 := by
  rw [codeWidth, maxCode_reference]
  decide

/-- Settles O24: `K` holds the `N + 1` codes, and every other width that does is at least `K`. -/
theorem codeWidthIsLeast : Obligations.CodeWidthIsLeast := by
  refine ⟨fun c hc => ?_, maxCode_reference, codeWidth_reference⟩
  exact ⟨codeWidth_pos c, codeWidth_le hc, maxCode_lt_two_pow c, fun _ => codeWidth_le_of_holds⟩

end Sys2Proof.Machine
end

section
/-! PROOFS. The frame of ENCODE (spec 41_lsb_engine.md R170 to R177): what the engine, the registers, the two memories
and the outside world keep in each of its phases. -/

namespace Sys2Proof.Machine

/-! The engine and the registers after each part of a step. -/

/-- A traversal moves nothing in the engine but the generator's `E.x` and `E.g` (R155, R205). -/
theorem travAdvance_eq (trav : Trav) (e : Engine) :
    travAdvance trav e = { e with x := (travAdvance trav e).x, g := (travAdvance trav e).g } := by
  cases trav <;> rfl

@[simp] theorem encSymbolOk_eng (s : State) :
    (encSymbolOk s).eng = { s.eng with
      i := s.eng.i + 1
      state := if s.eng.i + 1 = s.eng.len.toNat then .capchk else s.eng.state } := by
  unfold encSymbolOk; dsimp only; split <;> rfl
@[simp] theorem encCapchk_eng (s : State) (trav : Trav) :
    (encCapchk trav s).eng = { s.eng with
      need := s.eng.k * (s.eng.len.toNat + 1)
      state := if s.eng.cap < s.eng.k * (s.eng.len.toNat + 1) then .idle else .travinit } := by
  unfold encCapchk; dsimp only; split <;> simp
@[simp] theorem encCount_eng (s : State) (trav : Trav) :
    (encCount trav s).eng = { s.eng with
      t := s.eng.t + 1
      state := if s.eng.t + 1 = s.eng.need then .idle else s.eng.state } := by
  unfold encCount; dsimp only; split <;> simp
@[simp] theorem encCheck_eng (s : State) (trav : Trav) :
    (encCheck trav s).eng = { s.eng with
      state := if s.cfg.msgBytesMax < s.eng.len.toNat then .idle
        else if s.eng.len = 0 then .capchk else .validate } := by
  unfold encCheck; (repeat' split) <;> simp

/-- The registers after a step from registers `r`: as they were, or the command has completed and the registers of its
outcome alone are written (R170, R232). -/
def WritesOnlyOutcome (r : Regs) (t : State) : Prop :=
  t.regs = r ∨ (t.Idle ∧ t.regs = { r with
    done := t.regs.done, err := t.regs.err, capacity := t.regs.capacity, result := t.regs.result
    errIndex := t.regs.errIndex, errValue := t.regs.errValue, seed := t.regs.seed })

theorem encFinish_writesOnlyOutcome (s : State) (trav : Trav) (err : ErrCode) (idx val : Word) :
    WritesOnlyOutcome s.regs (encFinish trav err idx val s) := .inr (by simp)

theorem encCheck_writesOnlyOutcome (s : State) (trav : Trav) : WritesOnlyOutcome s.regs (encCheck trav s) := by
  unfold encCheck
  split
  · exact encFinish_writesOnlyOutcome ..
  · split <;> exact .inl rfl

theorem encCapchk_writesOnlyOutcome (s : State) (trav : Trav) : WritesOnlyOutcome s.regs (encCapchk trav s) := by
  unfold encCapchk
  dsimp only
  split
  · exact encFinish_writesOnlyOutcome { s with eng := _ } ..
  · exact .inl rfl

theorem encCount_writesOnlyOutcome (s : State) (trav : Trav) : WritesOnlyOutcome s.regs (encCount trav s) := by
  unfold encCount
  dsimp only
  split
  · exact encFinish_writesOnlyOutcome { s with eng := _ } ..
  · exact .inl rfl

theorem invalidBuffer_writesOnlyOutcome (s : State) : WritesOnlyOutcome s.regs (s.invalidBuffer false) :=
  .inr (by simp)

/-! What one step of ENCODE can do, said once. -/

/-- The steps of ENCODE, one constructor per outcome of a phase (R170 to R175). -/
inductive EncodeStep (trav : Trav) (embed : Embed) (chs : List Channel) (s : State) : State → Prop
  | checked : s.eng.state = .check →
      EncodeStep trav embed chs s (encCheck trav (setCap trav (captureOperands chs s)))
  | badBuffer : s.eng.state = .check → EncodeStep trav embed chs s ((captureOperands chs s).invalidBuffer false)
  | unmapped (idx val : Word) : s.eng.state = .validate →
      EncodeStep trav embed chs s (encFinish trav .unsupportedCharacter idx val s)
  | mapped : s.eng.state = .validate → EncodeStep trav embed chs s (encSymbolOk s)
  | compared : s.eng.state = .capchk → EncodeStep trav embed chs s (encCapchk trav s)
  | started : s.eng.state = .travinit → EncodeStep trav embed chs s (encTravinit trav s)
  | skipped : s.eng.state = .embed → travVisit trav s.eng = .skip →
      EncodeStep trav embed chs s { s with eng := travAdvance trav s.eng }
  | stored (sl : Slot) (b : Bool) (i : Nat) (acc : Byte) : s.eng.state = .embed → travVisit trav s.eng = .slot sl →
      EncodeStep trav embed chs s
        (encCount trav (embedSlot embed sl b { s with eng := { travAdvance trav s.eng with i := i, acc := acc } }))

theorem encodeStep_of_execEncode {trav : Trav} {embed : Embed} {chs : List Channel} {s t : State}
    (h : execEncode trav embed chs s = .next t) : EncodeStep trav embed chs s t := by
  rcases execEncode_next h with ⟨hs, ⟨-, rfl⟩ | ⟨-, rfl⟩⟩ | ⟨hs, hv⟩ | ⟨hs, rfl⟩ | ⟨hs, rfl⟩ | ⟨hs, he⟩
  · exact .checked hs
  · exact .badBuffer hs
  · rcases encValidate_next hv with ⟨-, ⟨-, rfl⟩ | ⟨-, rfl⟩⟩
    · exact .unmapped _ _ hs
    · exact .mapped hs
  · exact .compared hs
  · exact .started hs
  · rcases encEmbed_next he with ⟨hskip, rfl⟩ | ⟨sl, u, hslot, -, hload, rfl⟩
    · exact .skipped hs hskip
    · obtain ⟨i, acc, rfl, -, -⟩ := encLoad_next hload
      exact .stored sl _ i acc hs hslot

section EncodeStep
variable {trav : Trav} {embed : Embed} {chs : List Channel} {s t : State}

/-! What every step of ENCODE keeps. -/

/-- No step writes MSGMEM or CMD's latched word, nor touches the parameters and the outside world (R83, R176). -/
theorem EncodeStep.keeps_context (h : EncodeStep trav embed chs s t) :
    t.msg = s.msg ∧ t.eng.cmd = s.eng.cmd ∧ t.cfg = s.cfg ∧ t.rst = s.rst ∧ t.host = s.host ∧ t.sched = s.sched ∧
      t.resp = s.resp := by
  cases h with
  | checked => simp
  | badBuffer => simp
  | unmapped => simp
  | mapped => simp
  | compared => simp
  | started => cases trav <;> simp [scatInit]
  | skipped => rw [travAdvance_eq]; simp
  | stored => rw [travAdvance_eq]; simp

theorem EncodeStep.writesOnlyOutcome (h : EncodeStep trav embed chs s t) : WritesOnlyOutcome s.regs t := by
  cases h with
  | checked => exact encCheck_writesOnlyOutcome (setCap trav (captureOperands chs s)) trav
  | badBuffer => exact invalidBuffer_writesOnlyOutcome (captureOperands chs s)
  | unmapped => exact encFinish_writesOnlyOutcome ..
  | mapped => exact .inl (encSymbolOk_regs s)
  | compared => exact encCapchk_writesOnlyOutcome s trav
  | started => exact .inl (encTravinit_regs s trav)
  | skipped => exact .inl rfl
  | stored sl b i acc => exact encCount_writesOnlyOutcome (embedSlot embed sl b { s with eng := _ }) trav

/-! What the phases keep in the engine. -/

/-- After CHECK the captured operands stay (R150). -/
theorem EncodeStep.keeps_captured (h : EncodeStep trav embed chs s t) (hs : s.eng.state ≠ .check) :
    t.eng.w = s.eng.w ∧ t.eng.h = s.eng.h ∧ t.eng.len = s.eng.len ∧ t.eng.k = s.eng.k ∧ t.eng.chs = s.eng.chs ∧
      t.eng.nc = s.eng.nc ∧ t.eng.cap = s.eng.cap ∧ t.eng.nb = s.eng.nb := by
  cases h with
  | checked hc => exact absurd hc hs
  | badBuffer hc => exact absurd hc hs
  | unmapped => simp
  | mapped => simp
  | compared => simp
  | started => cases trav <;> simp [scatInit]
  | skipped => rw [travAdvance_eq]; simp
  | stored => rw [travAdvance_eq]; simp

/-- EMBED keeps the payload's size and the generator's parameters (R175, R205). -/
theorem EncodeStep.keeps_generator (h : EncodeStep trav embed chs s t) (hs : s.eng.state = .embed) :
    t.eng.need = s.eng.need ∧ t.eng.seed = s.eng.seed ∧ t.eng.M = s.eng.M ∧ t.eng.m = s.eng.m ∧ t.eng.a = s.eng.a ∧
      t.eng.c = s.eng.c := by
  cases h with
  | skipped => rw [travAdvance_eq]; simp
  | stored => rw [travAdvance_eq]; simp
  | _ =>
    rename_i hother
    cases hs.symm.trans hother

/-! What the phases keep in PIXMEM. -/

/-- A step that visits no slot stores nothing (R176). -/
theorem EncodeStep.pix_eq (h : EncodeStep trav embed chs s t)
    (hs : s.eng.state ≠ .embed ∨ ∀ sl, travVisit trav s.eng ≠ .slot sl) : t.pix = s.pix := by
  cases h with
  | stored sl b i acc he hslot =>
    rcases hs with hne | hnone
    · exact absurd he hne
    · exact absurd hslot (hnone sl)
  | skipped => rfl
  | _ => simp

/-- A visit stores in the byte of its slot alone (R66, R175). -/
theorem EncodeStep.pix_other (h : EncodeStep trav embed chs s t) (hwf : Memory.wf s.pix) {sl : Slot}
    (hslot : travVisit trav s.eng = .slot sl) {a : Nat} (ha : a ≠ pixByteAddr sl.p sl.ch) :
    Memory.read t.pix a = Memory.read s.pix a := by
  cases h with
  | stored sl' b i acc he hslot' =>
    obtain rfl : sl' = sl := by simpa [hslot] using hslot'.symm
    rw [encCount_pix]
    exact (read_embedSlot (s := { s with eng := _ }) hwf embed sl' b a).trans (if_neg ha)
  | skipped => rfl
  | _ => simp

end EncodeStep

/-- A write of outcome registers alone keeps the operand and control registers. -/
theorem WritesOnlyOutcome.keeps_operands {r : Regs} {t : State} (h : WritesOnlyOutcome r t) :
    t.regs.cmd = r.cmd ∧ t.regs.width = r.width ∧ t.regs.height = r.height ∧ t.regs.msgLen = r.msgLen ∧
      t.regs.irqEn = r.irqEn ∧ t.regs.overrun = r.overrun := by
  rcases h with h | ⟨-, h⟩
  · simp [h]
  · rw [h]; simp

/-- While the command runs no register is written. -/
theorem WritesOnlyOutcome.regs_eq {r : Regs} {t : State} (h : WritesOnlyOutcome r t) (ht : ¬ t.Idle) : t.regs = r :=
  h.elim id fun hi => absurd hi.1 ht

/-- The byte order of a pixel word, and what a set channel leaves alone (R12). -/
theorem chan_bits_and_setchan (w : Word) :
    chan w .b = w.extractLsb' 0 8 ∧ chan w .g = w.extractLsb' 8 8 ∧ chan w .r = w.extractLsb' 16 8 ∧
      chan w .a = w.extractLsb' 24 8 ∧
      ∀ ch v, chan (setchan w ch v) ch = v ∧ ∀ ch', ch' ≠ ch → chan (setchan w ch v) ch' = chan w ch' := by
  refine ⟨rfl, rfl, rfl, rfl, fun ch v => ⟨?_, fun ch' hne => ?_⟩⟩
  · rw [chan_setchan, if_pos rfl]
  · rw [chan_setchan, if_neg hne]

/-- Settles O37: every step of ENCODE is an `EncodeStep`, and what it keeps is read off case by case. -/
theorem encodeStoresOneChannelByte : Obligations.EncodeStoresOneChannelByte := by
  refine ⟨chan_bits_and_setchan, fun s p ch => (chan_readWord s.pix p ch).symm, ?_⟩
  intro s t trav embed chs hwf hexec
  have hstep : EncodeStep trav embed chs s t := encodeStep_of_execEncode hexec
  obtain ⟨hmsg, hcmd, houtside⟩ := hstep.keeps_context
  have hregs := hstep.writesOnlyOutcome
  obtain ⟨h1, h2, h3, h4, h5, h6⟩ := hregs.keeps_operands
  exact ⟨fun sl _ hslot a ha => hstep.pix_other hwf hslot ha, fun hs a => by rw [hstep.pix_eq hs],
    fun a => by rw [hmsg], h1, h2, h3, h4, h5, h6, hcmd, hregs.regs_eq, hstep.keeps_captured, hstep.keeps_generator,
    houtside⟩

end Sys2Proof.Machine
end

section
/-! PROOFS. What one step of the engine can do, whatever command runs, said once (spec 10_state.md R41, 41_lsb_engine.md
R150 to R185, 40_alphabet.md R125, R126, 60_exceptions.md R231); and that results are written at completion alone
(R232). -/

namespace Sys2Proof.Machine

/-- The steps of the engine, one constructor per outcome of a command's phase. NOP, ENC_SYM and DEC_SYM have one
constructor, which leaves open what they answer. -/
inductive EngineStep (s : State) : State → Prop
  | illegal (r : Reject) : decode s.eng.cmd = .error r → s.eng.state = .check →
      EngineStep s (s.illegalCompletion s.eng.cmd)
  | answered (v val : Word) (err : ErrCode) : s.eng.state = .check → err ≠ .illegalCommand →
      EngineStep s ((s.setResult v).complete err 0 val)
  | counted (trav : Trav) (chs : List Channel) : decode s.eng.cmd = .ok (.capacity trav chs) → s.eng.state = .check →
      bufferOk s.cfg s.W s.H = true → EngineStep s (capacityDone trav (setCap trav (captureOperands chs s)))
  | badBuffer (i : Instr) (chs : List Channel) (clearsLen : Bool) : decode s.eng.cmd = .ok i → i.channels = chs →
      s.eng.state = .check → EngineStep s ((captureOperands chs s).invalidBuffer clearsLen)
  | encChecked (trav : Trav) (embed : Embed) (chs : List Channel) :
      decode s.eng.cmd = .ok (.encode trav embed chs) → s.eng.state = .check → bufferOk s.cfg s.W s.H = true →
      EngineStep s (encCheck trav (setCap trav (captureOperands chs s)))
  | encUnmapped (trav : Trav) (idx val : Word) : s.eng.state = .validate →
      EngineStep s (encFinish trav .unsupportedCharacter idx val s)
  | encMapped : s.eng.state = .validate → codeOf s.cfg (s.msgRead s.eng.i) ≠ none → EngineStep s (encSymbolOk s)
  | encCompared (trav : Trav) : s.eng.state = .capchk → EngineStep s (encCapchk trav s)
  | encStarted (trav : Trav) (embed : Embed) (chs : List Channel) : decode s.eng.cmd = .ok (.encode trav embed chs) →
      s.eng.state = .travinit → EngineStep s (encTravinit trav s)
  | encSkipped (trav : Trav) (embed : Embed) (chs : List Channel) : decode s.eng.cmd = .ok (.encode trav embed chs) →
      s.eng.state = .embed → travVisit trav s.eng = .skip → EngineStep s { s with eng := travAdvance trav s.eng }
  | encStored (trav : Trav) (embed : Embed) (chs : List Channel) (sl : Slot) (b : Bool) (i : Nat) (acc : Byte) :
      decode s.eng.cmd = .ok (.encode trav embed chs) → s.eng.state = .embed → travVisit trav s.eng = .slot sl →
      sl.p < s.cfg.pixWordsMax →
      encLoad { s with eng := travAdvance trav s.eng } =
        .ok { s with eng := { travAdvance trav s.eng with i := i, acc := acc } } →
      EngineStep s
        (encCount trav (embedSlot embed sl b { s with eng := { travAdvance trav s.eng with i := i, acc := acc } }))
  | decChecked (trav : Trav) (chs : List Channel) : decode s.eng.cmd = .ok (.decode trav chs) →
      s.eng.state = .check → bufferOk s.cfg s.W s.H = true →
      EngineStep s ((setCap trav (captureOperands chs s)).toPhase .travinit)
  | decStarted (trav : Trav) (chs : List Channel) : decode s.eng.cmd = .ok (.decode trav chs) →
      s.eng.state = .travinit → EngineStep s (decTravinit trav s)
  | decExhausted (trav : Trav) (idx : Word) : s.eng.state = .scan → s.eng.t = s.eng.cap →
      EngineStep s (decFinish trav .noPayloadFound idx 0 s)
  | decSkipped (trav : Trav) (chs : List Channel) : decode s.eng.cmd = .ok (.decode trav chs) →
      s.eng.state = .scan → s.eng.t ≠ s.eng.cap → travVisit trav s.eng = .skip →
      EngineStep s { s with eng := travAdvance trav s.eng }
  | decShifted (trav : Trav) (chs : List Channel) (sl : Slot) (b : Bool) :
      decode s.eng.cmd = .ok (.decode trav chs) → s.eng.state = .scan → s.eng.t ≠ s.eng.cap →
      travVisit trav s.eng = .slot sl → EngineStep s (decShift b { s with eng := travAdvance trav s.eng })
  | decEnded (trav : Trav) (err : ErrCode) (idx val : Word) : s.eng.state = .decodeCode → err ≠ .illegalCommand →
      EngineStep s (decFinish trav err idx val { s with eng := { s.eng with acc := 0, nb := 0 } })
  | decSymbol (trav : Trav) (chs : List Channel) (sym : Byte) : decode s.eng.cmd = .ok (.decode trav chs) →
      s.eng.state = .decodeCode → s.eng.i < s.cfg.msgBytesMax →
      EngineStep s { s with
        msg := Memory.write s.msg s.eng.i sym
        eng := { s.eng with acc := 0, nb := 0, i := s.eng.i + 1, state := .scan } }

theorem engineStep_of_ok {s : State} {i : Instr} (h : decode s.eng.cmd = .ok i) : engineStep s = exec i s := by
  simp only [engineStep, h]

theorem engineStep_of_error {s : State} {r : Reject} (h : decode s.eng.cmd = .error r) :
    engineStep s = illegalStep s := by
  simp only [engineStep, h]

theorem EngineStep.of_encode {trav : Trav} {embed : Embed} {chs : List Channel} {s t : State}
    (hc : decode s.eng.cmd = .ok (.encode trav embed chs)) (h : execEncode trav embed chs s = .next t) :
    EngineStep s t := by
  rcases execEncode_next h with ⟨hs, ⟨hb, rfl⟩ | ⟨-, rfl⟩⟩ | ⟨hs, hv⟩ | ⟨hs, rfl⟩ | ⟨hs, rfl⟩ | ⟨hs, he⟩
  · exact .encChecked _ _ _ hc hs hb
  · exact .badBuffer _ chs _ hc rfl hs
  · rcases encValidate_next hv with ⟨-, ⟨-, rfl⟩ | ⟨hm, rfl⟩⟩
    · exact .encUnmapped _ _ _ hs
    · exact .encMapped hs hm
  · exact .encCompared _ hs
  · exact .encStarted _ _ _ hc hs
  · rcases encEmbed_next he with ⟨hskip, rfl⟩ | ⟨sl, u, hslot, hp, hload, rfl⟩
    · exact .encSkipped _ _ _ hc hs hskip
    · obtain ⟨i, acc, rfl, -, -⟩ := encLoad_next hload
      exact .encStored _ _ _ sl _ i acc hc hs hslot hp hload

theorem EngineStep.of_decode {trav : Trav} {chs : List Channel} {s t : State}
    (hc : decode s.eng.cmd = .ok (.decode trav chs)) (h : execDecode trav chs s = .next t) : EngineStep s t := by
  rcases execDecode_next h with ⟨hs, ⟨hb, rfl⟩ | ⟨-, rfl⟩⟩ | ⟨hs, rfl⟩ | ⟨hs, h⟩ | ⟨hs, h⟩
  · exact .decChecked _ _ hc hs hb
  · exact .badBuffer _ chs _ hc rfl hs
  · exact .decStarted _ _ hc hs
  · rcases decScan_next h with ⟨ht, rfl⟩ | ⟨ht, ⟨hskip, rfl⟩ | ⟨sl, hslot, -, rfl⟩⟩
    · exact .decExhausted _ _ hs ht
    · exact .decSkipped _ _ hc hs ht hskip
    · exact .decShifted _ _ sl _ hc hs ht hslot
  · rcases decCode_next h with ⟨err, idx, val, rfl, herr⟩ | ⟨sym, -, -, hi, rfl⟩
    · refine .decEnded _ _ _ _ hs ?_
      rcases herr with ⟨rfl, -⟩ | ⟨rfl, -⟩ | ⟨rfl, -⟩ <;> decide
    · exact .decSymbol _ _ sym hc hs hi

/-- Every step the engine takes is one of these. -/
theorem EngineStep.of_engineStep {s t : State} (h : engineStep s = .next t) : EngineStep s t := by
  cases hc : decode s.eng.cmd with
  | error r =>
    rw [engineStep_of_error hc] at h
    obtain ⟨hs, rfl⟩ := illegalStep_next h
    exact .illegal r hc hs
  | ok i =>
    rw [engineStep_of_ok hc] at h
    cases i with
    | nop =>
      obtain ⟨hs, rfl⟩ := execNop_next h
      exact .answered s.regs.result 0 .ok hs (by decide)
    | capacity trav chs =>
      obtain ⟨hs, ⟨hb, rfl⟩ | ⟨-, rfl⟩⟩ := execCapacity_next h
      · exact .counted trav chs hc hs hb
      · exact .badBuffer _ chs _ hc rfl hs
    | encode trav embed chs => exact .of_encode hc h
    | decode trav chs => exact .of_decode hc h
    | encSym sym =>
      obtain ⟨hs, ⟨c, -, rfl⟩ | ⟨-, rfl⟩⟩ := execEncSym_next h
      · exact .answered _ _ .ok hs (by decide)
      · exact .answered _ _ .unsupportedCharacter hs (by decide)
    | decSym code =>
      obtain ⟨hs, ⟨sym, -, rfl⟩ | ⟨-, rfl⟩⟩ := execDecSym_next h
      · exact .answered _ _ .ok hs (by decide)
      · exact .answered _ _ .invalidCode hs (by decide)

/-! The registers. -/

/-- The registers after a step of a running command: as they were and BUSY = 1, or those of a completion, which is an
ILLEGAL_COMMAND for an illegal word alone (R31, R231, R232). -/
def RunsOrCompletes (s t : State) : Prop :=
  (t.busy = true ∧ t.regs = s.regs) ∨
  (t.Idle ∧ t.regs.done = true ∧ t.regs.cmd = s.regs.cmd ∧
    (t.regs.err = .illegalCommand → ∃ r, decode s.eng.cmd = .error r))

theorem RunsOrCompletes.of_encFinish {s u : State} {trav : Trav} {err : ErrCode} {idx val : Word}
    (hu : u.regs = s.regs) (herr : err ≠ .illegalCommand) : RunsOrCompletes s (encFinish trav err idx val u) :=
  .inr (by simp [hu, herr])

theorem RunsOrCompletes.of_decFinish {s u : State} {trav : Trav} {err : ErrCode} {idx val : Word}
    (hu : u.regs = s.regs) (herr : err ≠ .illegalCommand) : RunsOrCompletes s (decFinish trav err idx val u) :=
  .inr (by simp [hu, herr])

theorem RunsOrCompletes.of_regs {s t : State} (ht : t.eng.state ≠ .idle) (hr : t.regs = s.regs) :
    RunsOrCompletes s t := .inl ⟨(State.busy_eq_true t).mpr ht, hr⟩

@[simp] theorem travAdvance_state (trav : Trav) (e : Engine) : (travAdvance trav e).state = e.state := by
  cases trav <;> rfl

theorem EngineStep.runsOrCompletes {s t : State} (h : EngineStep s t) : RunsOrCompletes s t := by
  cases h with
  | illegal r hc hs => exact .inr ⟨rfl, rfl, rfl, fun _ => ⟨r, hc⟩⟩
  | answered v val err hs herr => exact .inr ⟨rfl, rfl, rfl, fun h => absurd h herr⟩
  | counted trav chs hc hs hb => exact .inr (by simp)
  | badBuffer i chs clearsLen hc hchs hs => exact .inr (by simp)
  | encChecked trav embed chs hc hs hb =>
    unfold encCheck
    split
    · exact .of_encFinish rfl (by decide)
    · split <;> exact .of_regs nofun rfl
  | encUnmapped trav idx val hs => exact .of_encFinish rfl (by decide)
  | encMapped hs hm =>
    refine .of_regs ?_ (encSymbolOk_regs s)
    rw [encSymbolOk_eng, hs]
    dsimp only
    split <;> decide
  | encCompared trav hs =>
    unfold encCapchk
    dsimp only
    split
    · exact .of_encFinish rfl (by decide)
    · exact .of_regs nofun rfl
  | encStarted trav embed chs hc hs => exact .of_regs (by simp) (encTravinit_regs s trav)
  | encSkipped trav embed chs hc hs hv => exact .of_regs (by simp [hs]) rfl
  | encStored trav embed chs sl b i acc hc hs hv hp hl =>
    unfold encCount
    dsimp only
    split
    · exact .of_encFinish rfl (by decide)
    · exact .of_regs (by simp [hs]) rfl
  | decChecked trav chs hc hs hb => exact .of_regs nofun rfl
  | decStarted trav chs hc hs => exact .of_regs (by simp) (decTravinit_regs s trav)
  | decExhausted trav idx hs ht => exact .of_decFinish rfl (by decide)
  | decSkipped trav chs hc hs ht hv => exact .of_regs (by simp [hs]) rfl
  | decShifted trav chs sl b hc hs ht hv =>
    refine .of_regs ?_ (by simp)
    simp only [decShift_eng, travAdvance_state, hs]
    split <;> decide
  | decEnded trav err idx val hs herr => exact .of_decFinish rfl herr
  | decSymbol trav chs sym hc hs hi => exact .of_regs nofun rfl

/-- Settles O47: every engine step runs on with the registers as they were, or completes. -/
theorem resultsChangeOnlyAtCompletion : Obligations.ResultsChangeOnlyAtCompletion := by
  intro s t h
  rcases (EngineStep.of_engineStep h).runsOrCompletes with ⟨hb, hr⟩ | ⟨hi, hd, -, hill⟩
  · refine ⟨fun _ => hr, fun hb' => ?_, fun ht hs => ?_⟩
    · rw [hb] at hb'
      cases hb'
    · rw [hr] at ht
      exact absurd ht hs
  · have hb : t.busy = false := (State.busy_eq_false t).mpr hi
    refine ⟨fun hb' => ?_, fun _ => ⟨hi, hd, by simp [State.irq, hd]⟩, fun ht _ => ⟨hb, hill ht⟩⟩
    rw [hb] at hb'
    cases hb'

end Sys2Proof.Machine
end

section
/-! PROOFS. What a phase says of the operands is kept by whatever keeps the operands (spec 10_state.md R41, R42). -/

namespace Sys2Proof.Machine

/-- The operand registers, the command and what CHECK captured are the same in both states (R150). -/
structure SameOperands (s t : State) : Prop where
  cfg : t.cfg = s.cfg
  width : t.regs.width = s.regs.width
  height : t.regs.height = s.regs.height
  msgLen : t.regs.msgLen = s.regs.msgLen
  cmd : t.eng.cmd = s.eng.cmd
  w : t.eng.w = s.eng.w
  h : t.eng.h = s.eng.h
  len : t.eng.len = s.eng.len
  k : t.eng.k = s.eng.k
  chs : t.eng.chs = s.eng.chs
  nc : t.eng.nc = s.eng.nc
  cap : t.eng.cap = s.eng.cap

section
variable {s t : State} {trav : Trav} {embed : Embed} {chs : List Channel}

theorem SameOperands.captured (h : SameOperands s t) (hc : Captured trav chs s) : Captured trav chs t where
  w := by rw [h.w, h.width, hc.w]
  h := by rw [h.h, h.height, hc.h]
  len := by rw [h.len, h.msgLen, hc.len]
  k := by rw [h.k, h.cfg, hc.k]
  chans := by rw [h.chs, hc.chans]
  nc := by rw [h.nc, hc.nc]
  buffer := by rw [h.cfg, State.W, State.H, h.width, h.height]; exact hc.buffer
  cap := by rw [h.cap, State.W, State.H, h.width, h.height]; exact hc.cap

theorem SameOperands.encodeRuns (h : SameOperands s t) (hr : EncodeRuns trav embed chs s) :
    EncodeRuns trav embed chs t where
  cmd := by rw [h.cmd, hr.cmd]
  captured := h.captured hr.captured
  len := by rw [h.len, h.cfg]; exact hr.len

theorem SameOperands.decodeRuns (h : SameOperands s t) (hr : DecodeRuns trav chs s) : DecodeRuns trav chs t where
  cmd := by rw [h.cmd, hr.cmd]
  captured := h.captured hr.captured

theorem SameOperands.mappedBelow (h : SameOperands s t) (hm : t.msg = s.msg) {n : Nat} (hv : MappedBelow s n) :
    MappedBelow t n := by
  intro j hj
  rw [h.cfg, State.msgRead, hm]
  exact hv j hj

theorem SameOperands.encodeFits (h : SameOperands s t) (hm : t.msg = s.msg) (hn : t.eng.need = s.eng.need)
    (hf : EncodeFits s) : EncodeFits t where
  valid := by rw [h.len]; exact h.mappedBelow hm hf.valid
  need := by rw [hn, h.k, h.len, hf.need]
  fits := by rw [hn, h.cap]; exact hf.fits

theorem SameOperands.payloadCode (h : SameOperands s t) (hm : t.msg = s.msg) (len j : Nat) :
    payloadCode t len j = payloadCode s len j := by
  simp only [Machine.payloadCode, h.cfg, State.msgRead, hm]

/-- The generator is where it was when the engine is as it was (R203). -/
theorem GenAt.congr (hg : GenAt s) (he : t.eng = s.eng) (hp : t.pix = s.pix) : GenAt t where
  seed := by rw [he, hg.seed, State.pixRead, State.pixRead, hp]
  M := by rw [he, hg.M]
  m := by rw [he, hg.m]
  a := by rw [he, hg.a]
  c := by rw [he, hg.c]
  x := by rw [he, hg.x]
  t := by rw [he, hg.t]

end

/-! The invariant outside the engine's steps. -/

theorem SameCommandView.sameOperands {s t : State} (h : SameCommandView s t) : SameOperands s t := by
  have hr := h.regs
  have he := h.eng
  exact ⟨h.cfg.symm, by rw [← hr], by rw [← hr], by rw [← hr], by rw [he], by rw [he], by rw [he], by rw [he],
    by rw [he], by rw [he], by rw [he], by rw [he]⟩

/-- What the phase says is about what a running command reads and writes (R42, R280). -/
theorem SameCommandView.phaseOk {s t : State} (h : SameCommandView s t) (hp : PhaseOk s) : PhaseOk t := by
  have ho := h.sameOperands
  have he := h.eng.symm
  have hm := h.msg.symm
  have hn : t.eng.need = s.eng.need := by rw [he]
  have htrav : ∀ {trav}, TravAt trav s → TravAt trav t := fun hg htr => (hg htr).congr he h.pix.symm
  unfold PhaseOk at hp ⊢
  rw [he]
  cases hs : s.eng.state <;> rw [hs] at hp <;> dsimp only at hp ⊢
  case validate =>
    obtain ⟨trav, embed, chs, hr, hi, hv⟩ := hp
    exact ⟨trav, embed, chs, ho.encodeRuns hr, by rwa [he], by rw [he]; exact ho.mappedBelow hm hv⟩
  case capchk =>
    obtain ⟨trav, embed, chs, hr, hv⟩ := hp
    exact ⟨trav, embed, chs, ho.encodeRuns hr, by rw [he]; exact ho.mappedBelow hm hv⟩
  case travinit =>
    rcases hp with ⟨trav, embed, chs, hr, hf⟩ | ⟨trav, chs, hr⟩
    · exact .inl ⟨trav, embed, chs, ho.encodeRuns hr, ho.encodeFits hm hn hf⟩
    · exact .inr ⟨trav, chs, ho.decodeRuns hr⟩
  case embed =>
    obtain ⟨trav, embed, chs, hr, hf, hg, ht⟩ := hp
    refine ⟨trav, embed, chs, ho.encodeRuns hr, ho.encodeFits hm hn hf, htrav hg, ?_⟩
    rw [he, ho.payloadCode hm]
    exact ht
  case scan =>
    obtain ⟨trav, chs, hr, hg, ht⟩ := hp
    refine ⟨trav, chs, ho.decodeRuns hr, htrav hg, ?_⟩
    rw [he, ho.cfg]
    exact ht
  case decodeCode =>
    obtain ⟨trav, chs, hr, hg, ht⟩ := hp
    refine ⟨trav, chs, ho.decodeRuns hr, htrav hg, ?_⟩
    rw [he, ho.cfg]
    exact ht

theorem PhaseOk.of_idle {s : State} (h : s.Idle) : PhaseOk s := by
  simp only [PhaseOk, h]

theorem PhaseOk.of_check {s : State} (h : s.eng.state = .check) : PhaseOk s := by
  simp only [PhaseOk, h]

/-- The invariant does not depend on IRQ_EN, OVERRUN and the outside world (R280), nor on a DONE that is not set. -/
theorem SameCommandView.inv {s t : State} (h : SameCommandView s t) (hi : Inv s)
    (hr : s.rst = true → t.regs = s.regs) (hd : t.regs.done = true → s.regs.done = true) : Inv t where
  cfg := h.cfg ▸ hi.cfg
  pixWf := h.pix ▸ hi.pixWf
  msgWf := h.msg ▸ hi.msgWf
  pixBelow := by rw [← h.pix, ← h.cfg]; exact hi.pixBelow
  msgBelow := by rw [← h.msg, ← h.cfg]; exact hi.msgBelow
  inReset := by
    rw [← h.rst, ← h.eng]
    exact fun hrst => ⟨(hr hrst).trans (hi.inReset hrst).1, (hi.inReset hrst).2⟩
  latched := by rw [← h.eng, ← h.regs]; exact hi.latched
  running := by
    rw [State.busy, ← h.eng]
    intro hb
    cases hdone : t.regs.done with
    | false => rfl
    | true =>
      have := hi.running hb
      rw [hd hdone] at this
      cases this
  phase := h.phaseOk hi.phase

/-- A turn taken off the schedule is nothing to a command. -/
theorem sameCommandView_popTurn (s : State) : SameCommandView s (popTurn s) := ⟨rfl, rfl, rfl, rfl, rfl, rfl⟩

theorem Inv.popTurn {s : State} (hi : Inv s) : Inv (popTurn s) :=
  (sameCommandView_popTurn s).inv hi (fun _ => rfl) id

/-- The host's list is nothing to a command. -/
theorem Inv.withHost {s : State} (hi : Inv s) (l : List HostOp) : Inv { s with host := l } :=
  SameCommandView.inv (s := s) ⟨rfl, rfl, rfl, rfl, rfl, rfl⟩ hi (fun _ => rfl) id

/-- Asserting `rst` keeps the memories and leaves the registers of a block in reset (R270). -/
theorem Inv.assertReset {s : State} (hi : Inv s) : Inv (assertReset s) where
  cfg := hi.cfg
  pixWf := hi.pixWf
  msgWf := hi.msgWf
  pixBelow := hi.pixBelow
  msgBelow := hi.msgBelow
  inReset := fun _ => ⟨rfl, rfl⟩
  latched := rfl
  running := nofun
  phase := .of_idle rfl

/-- A released block is idle, or was not in reset (R271). -/
theorem Inv.releaseReset {s : State} (hi : Inv s) : Inv (releaseReset s) := by
  cases hr : s.rst with
  | false =>
    exact SameCommandView.inv (s := s) ⟨rfl, rfl, rfl, rfl, hr, rfl⟩ hi (fun _ => rfl) id
  | true =>
    obtain ⟨-, heng⟩ := hi.inReset hr
    exact ⟨hi.cfg, hi.pixWf, hi.msgWf, hi.pixBelow, hi.msgBelow, nofun, hi.latched, hi.running,
      .of_idle (show s.eng.state = .idle by rw [heng]; rfl)⟩

/-- Settles O48: the block is idle, its registers all at reset. -/
theorem invariantHoldsAtReset : Obligations.InvariantHoldsAtReset := by
  have powerOn : ∀ (cfg : Config) (pix msg : Memory), cfg.Ok → Memory.wf pix → Memory.wf msg →
      Memory.Below pix (4 * cfg.pixWordsMax) → Memory.Below msg cfg.msgBytesMax → Inv (State.powerOn cfg pix msg) :=
    fun cfg pix msg hc hp hm hpb hmb => ⟨hc, hp, hm, hpb, hmb, nofun, rfl, nofun, .of_idle rfl⟩
  exact ⟨powerOn, powerOn _ [] [] (by decide +kernel) (by decide) (by decide) nofun nofun⟩

end Sys2Proof.Machine
end

section
/-! PROOFS. The invariant under the host's steps (spec 20_memory.md R69 to R77, 70_reset_and_hazards.md R271, R280). -/

namespace Sys2Proof.Machine

/-- Under `rst` no command runs (R271). -/
theorem Inv.rst_of_busy {s : State} (hi : Inv s) (hb : s.busy = true) : s.rst = false := by
  cases hr : s.rst with
  | false => rfl
  | true =>
    rw [State.busy, (hi.inReset hr).2] at hb
    cases hb

/-- The bus response is nothing to a command. -/
theorem Inv.withResp {s : State} (hi : Inv s) (r : Option Response) : Inv { s with resp := r } :=
  SameCommandView.inv (s := s) ⟨rfl, rfl, rfl, rfl, rfl, rfl⟩ hi (fun _ => rfl) id

/-- A register write while no command runs: CMD starts one, the rest is an idle block's (R32 to R35). -/
theorem Inv.writeReg {s : State} (hi : Inv s) (hr : s.rst = false) (hb : s.busy = false) (r : RegName) (v : Word) :
    Inv (s.writeReg r v) := by
  obtain ⟨hcfg, hpix, hmsg, hrst, -⟩ := s.writeReg_frame r v
  have hidle : s.eng.state = .idle := (State.busy_eq_false s).mp hb
  refine ⟨by rw [hcfg]; exact hi.cfg, by rw [hpix]; exact hi.pixWf, by rw [hmsg]; exact hi.msgWf,
    by rw [hpix, hcfg]; exact hi.pixBelow, by rw [hmsg, hcfg]; exact hi.msgBelow, fun h => ?_, ?_, ?_, ?_⟩
  · rw [hrst, hr] at h
    cases h
  · cases r <;> simp [State.writeReg, hb, hi.latched]
  · cases r <;> simp [State.writeReg, State.busy, hidle]
  · cases r with
    | cmd => exact .of_check (by simp [State.writeReg, hb])
    | _ => exact .of_idle (by simp [State.writeReg, hb, hidle])

/-- A store to MSGMEM inside its size, while no command runs (R63). -/
theorem Inv.withMsg {s : State} (hi : Inv s) (hb : s.busy = false) {m : Memory} (hwf : Memory.wf m)
    (hm : Memory.Below m s.cfg.msgBytesMax) : Inv { s with msg := m } :=
  ⟨hi.cfg, hi.pixWf, hwf, hi.pixBelow, hm, hi.inReset, hi.latched, hi.running,
    .of_idle ((State.busy_eq_false s).mp hb)⟩

/-- A store to PIXMEM inside its size, while no command runs (R62). -/
theorem Inv.withPix {s : State} (hi : Inv s) (hb : s.busy = false) {m : Memory} (hwf : Memory.wf m)
    (hm : Memory.Below m (4 * s.cfg.pixWordsMax)) : Inv { s with pix := m } :=
  ⟨hi.cfg, hwf, hi.msgWf, hm, hi.msgBelow, hi.inReset, hi.latched, hi.running,
    .of_idle ((State.busy_eq_false s).mp hb)⟩

/-- A granted write while no command runs (R70). -/
theorem Inv.writeTarget {s : State} (hi : Inv s) (hr : s.rst = false) (hb : s.busy = false) (v : Word) {g : Target}
    (hg : g.Within s.cfg) : Inv (s.writeTarget v g) := by
  cases g with
  | reg r => exact hi.writeReg hr hb r v
  | msgByte i => exact hi.withMsg hb (Memory.wf_write hi.msgWf i _) (Memory.below_write hi.msgBelow hg _)
  | msgWord i => exact hi.withMsg hb (Memory.wf_writeWord hi.msgWf i v) (Memory.below_writeWord hi.msgBelow hg v)
  | pixWord p =>
    have hp : p < s.cfg.pixWordsMax := hg
    exact hi.withPix hb (Memory.wf_writeWord hi.pixWf _ v) (Memory.below_writeWord hi.pixBelow (by omega) v)

/-- While a command runs an access is nothing to it (R77, R280). -/
theorem sameCommandView_hostAccess {s : State} (hb : s.busy = true) (a : Access) :
    SameCommandView s (State.hostAccess a s) := by
  obtain ⟨e, d, o, r, -, h⟩ := State.hostAccess_busy hb a
  rw [h]
  exact ⟨rfl, rfl, rfl, rfl, rfl, rfl⟩

theorem Inv.perform {s : State} (hi : Inv s) (hb : s.busy = false) (a : Access) : Inv (s.perform a) := by
  cases a with
  | read addr n => exact hi
  | write addr n v =>
    cases hg : s.grant addr n with
    | none => simpa only [State.perform, hg] using hi
    | some g =>
      have hr : s.rst = false := by
        cases hr : s.rst with
        | false => rfl
        | true =>
          rw [State.grant_of_rst hr] at hg
          cases hg
      simpa only [State.perform, hg] using
        hi.writeTarget hr hb v (targetOf_within (Option.filter_eq_some_iff.mp hg).1)

/-- Every access keeps the invariant. -/
theorem Inv.hostAccess {s : State} (hi : Inv s) (a : Access) : Inv (State.hostAccess a s) := by
  cases hb : s.busy with
  | false => exact (hi.perform hb a).withResp _
  | true =>
    obtain ⟨e, d, o, r, hd, h⟩ := State.hostAccess_busy hb a
    refine (sameCommandView_hostAccess hb a).inv hi (fun hr => ?_) ?_
    · rw [hi.rst_of_busy hb] at hr
      cases hr
    · rw [h]
      exact hd

/-- Every turn of the host keeps the invariant. -/
theorem Inv.hostTurn {s : State} (hi : Inv s) : Inv (hostTurn s) := by
  rcases hostTurn_cases s with h | ⟨a, l, h⟩ <;> rw [h]
  · exact hi
  · exact (hi.withHost l).hostAccess a

end Sys2Proof.Machine
end

section
/-! PROOFS. The invariant under the engine's steps (spec 10_state.md R42, 41_lsb_engine.md R150 to R185, 42_scatter.md
R201 to R206). -/

namespace Sys2Proof.Machine

/-! What every step of the engine keeps, and what it can store. -/

section EngineStep
variable {s t : State}

/-- No step of the engine changes the parameters or the command's word (R43, R81). -/
theorem EngineStep.keeps_command (h : EngineStep s t) : t.cfg = s.cfg ∧ t.rst = s.rst ∧ t.eng.cmd = s.eng.cmd := by
  cases h with
  | encStarted trav => cases trav <;> simp [scatInit]
  | decStarted trav => cases trav <;> simp [scatInit]
  | encSkipped => rw [travAdvance_eq]; simp
  | decSkipped => rw [travAdvance_eq]; simp
  | decShifted => rw [travAdvance_eq]; simp
  | encStored => rw [travAdvance_eq]; simp
  | _ => simp

/-- After CHECK no step of the engine changes what was captured (R150). -/
theorem EngineStep.keeps_captured (h : EngineStep s t) (hs : s.eng.state ≠ .check) :
    t.eng.w = s.eng.w ∧ t.eng.h = s.eng.h ∧ t.eng.len = s.eng.len ∧ t.eng.k = s.eng.k ∧ t.eng.chs = s.eng.chs ∧
      t.eng.nc = s.eng.nc ∧ t.eng.cap = s.eng.cap := by
  cases h with
  | encStarted trav => cases trav <;> simp [scatInit]
  | decStarted trav => cases trav <;> simp [scatInit]
  | encSkipped => rw [travAdvance_eq]; simp
  | decSkipped => rw [travAdvance_eq]; simp
  | decShifted => rw [travAdvance_eq]; simp
  | encStored => rw [travAdvance_eq]; simp
  | illegal r hc hcheck => exact absurd hcheck hs
  | answered v val err hcheck => exact absurd hcheck hs
  | counted trav chs hc hcheck => exact absurd hcheck hs
  | badBuffer i chs clearsLen hc hchs hcheck => exact absurd hcheck hs
  | encChecked trav embed chs hc hcheck => exact absurd hcheck hs
  | decChecked trav chs hc hcheck => exact absurd hcheck hs
  | _ => simp

/-- While the command runs on, no step after CHECK changes its operands. -/
theorem EngineStep.sameOperands (h : EngineStep s t) (hs : s.eng.state ≠ .check) (ht : t.busy = true) :
    SameOperands s t := by
  obtain ⟨hcfg, -, hcmd⟩ := h.keeps_command
  obtain ⟨h1, h2, h3, h4, h5, h6, h7⟩ := h.keeps_captured hs
  have hr : t.regs = s.regs := by
    rcases h.runsOrCompletes with ⟨-, hr⟩ | ⟨hidle, -⟩
    · exact hr
    · exact absurd hidle ((State.busy_eq_true t).mp ht)
  exact ⟨hcfg, by rw [hr], by rw [hr], by rw [hr], hcmd, h1, h2, h3, h4, h5, h6, h7⟩

/-- PIXMEM after a step of the engine: as it was, or one word of it stored (R62, R176). -/
theorem EngineStep.pix_cases (h : EngineStep s t) :
    t.pix = s.pix ∨ ∃ p v, p < s.cfg.pixWordsMax ∧ t.pix = Memory.writeWord s.pix (4 * p) v := by
  cases h with
  | encStored trav embed chs sl b i acc hc hs hv hp hl => exact .inr ⟨sl.p, _, hp, encCount_pix _ trav⟩
  | _ => exact .inl (by simp)

/-- MSGMEM after a step of the engine: as it was, or one byte of it stored (R63, R184). -/
theorem EngineStep.msg_cases (h : EngineStep s t) :
    t.msg = s.msg ∨ ∃ i b, i < s.cfg.msgBytesMax ∧ t.msg = Memory.write s.msg i b := by
  cases h with
  | decSymbol trav chs sym hc hs hi => exact .inr ⟨_, sym, hi, rfl⟩
  | _ => exact .inl (by simp)

end EngineStep

/-! What the invariant says in each phase, for the command that runs. -/

section Phase
variable {s : State} {trav : Trav} {embed : Embed} {chs : List Channel}

theorem Inv.inValidate (hi : Inv s) (hs : s.eng.state = .validate) : InValidate s := by
  simpa only [PhaseOk, hs] using hi.phase

theorem Inv.inCapchk (hi : Inv s) (hs : s.eng.state = .capchk) : InCapchk s := by
  simpa only [PhaseOk, hs] using hi.phase

theorem Inv.inTravinit (hi : Inv s) (hs : s.eng.state = .travinit) : InTravinit s := by
  simpa only [PhaseOk, hs] using hi.phase

theorem Inv.inEmbed (hi : Inv s) (hs : s.eng.state = .embed) : InEmbed s := by
  simpa only [PhaseOk, hs] using hi.phase

theorem Inv.inScan (hi : Inv s) (hs : s.eng.state = .scan) : InScan s := by
  simpa only [PhaseOk, hs] using hi.phase

theorem Inv.inDecodeCode (hi : Inv s) (hs : s.eng.state = .decodeCode) : InDecodeCode s := by
  simpa only [PhaseOk, hs] using hi.phase

theorem Inv.encode_travinit (hi : Inv s) (hs : s.eng.state = .travinit)
    (hc : decode s.eng.cmd = .ok (.encode trav embed chs)) : EncodeRuns trav embed chs s ∧ EncodeFits s := by
  rcases hi.inTravinit hs with ⟨trav', embed', chs', hr, hf⟩ | ⟨trav', chs', hr⟩
  · obtain ⟨rfl, rfl, rfl⟩ : trav' = trav ∧ embed' = embed ∧ chs' = chs := by simpa [hc] using hr.cmd.symm
    exact ⟨hr, hf⟩
  · cases hc.symm.trans hr.cmd

theorem Inv.decode_travinit (hi : Inv s) (hs : s.eng.state = .travinit)
    (hc : decode s.eng.cmd = .ok (.decode trav chs)) : DecodeRuns trav chs s := by
  rcases hi.inTravinit hs with ⟨trav', embed', chs', hr, hf⟩ | ⟨trav', chs', hr⟩
  · cases hc.symm.trans hr.cmd
  · obtain ⟨rfl, rfl⟩ : trav' = trav ∧ chs' = chs := by simpa [hc] using hr.cmd.symm
    exact hr

/-- ENCODE in EMBED, for the command that runs (R175). -/
structure EmbedAt (trav : Trav) (embed : Embed) (chs : List Channel) (s : State) : Prop where
  runs : EncodeRuns trav embed chs s
  fits : EncodeFits s
  trav : TravAt trav s
  t : s.eng.t < s.eng.need
  code : s.eng.t % s.eng.k ≠ 0 →
    s.eng.i = s.eng.t / s.eng.k ∧ s.eng.acc.toNat = payloadCode s s.eng.len.toNat s.eng.i

/-- DECODE in SCAN, for the command that runs (R183). -/
structure ScanAt (trav : Trav) (chs : List Channel) (s : State) : Prop where
  runs : DecodeRuns trav chs s
  trav : TravAt trav s
  t_le : s.eng.t ≤ s.eng.cap
  nb : s.eng.nb < s.eng.k
  t : s.eng.t = s.eng.i * s.eng.k + s.eng.nb
  i : s.eng.i ≤ s.cfg.msgBytesMax
  acc : s.eng.acc.toNat < 2 ^ s.eng.nb

theorem EmbedAt.inEmbed (h : EmbedAt trav embed chs s) : InEmbed s :=
  ⟨trav, embed, chs, h.runs, h.fits, h.trav, h.t, h.code⟩

theorem ScanAt.inScan (h : ScanAt trav chs s) : InScan s :=
  ⟨trav, chs, h.runs, h.trav, h.t_le, h.nb, h.t, h.i, h.acc⟩

theorem Inv.embedAt (hi : Inv s) (hs : s.eng.state = .embed) (hc : decode s.eng.cmd = .ok (.encode trav embed chs)) :
    EmbedAt trav embed chs s := by
  obtain ⟨trav', embed', chs', hr, hf, hg, ht, hcode⟩ := hi.inEmbed hs
  obtain ⟨rfl, rfl, rfl⟩ : trav' = trav ∧ embed' = embed ∧ chs' = chs := by simpa [hc] using hr.cmd.symm
  exact ⟨hr, hf, hg, ht, hcode⟩

theorem Inv.scanAt (hi : Inv s) (hs : s.eng.state = .scan) (hc : decode s.eng.cmd = .ok (.decode trav chs)) :
    ScanAt trav chs s := by
  obtain ⟨trav', chs', hr, hg, hle, hnb, ht, hmax, hacc⟩ := hi.inScan hs
  obtain ⟨rfl, rfl⟩ : trav' = trav ∧ chs' = chs := by simpa [hc] using hr.cmd.symm
  exact ⟨hr, hg, hle, hnb, ht, hmax, hacc⟩

/-- A running command's code width (R6). -/
theorem Captured.k_bounds (hc : Captured trav chs s) (hok : s.cfg.Ok) : 1 ≤ s.eng.k ∧ s.eng.k ≤ 8 := by
  rw [hc.k]
  exact ⟨codeWidth_pos _, codeWidth_le hok⟩

/-- The operands CHECK captures on a valid buffer (R150). -/
theorem captured_of_check (hb : bufferOk s.cfg s.W s.H = true) (p : Phase) :
    Captured trav chs ((setCap trav (captureOperands chs s)).toPhase p) :=
  ⟨rfl, rfl, rfl, rfl, rfl, rfl, hb, rfl⟩

end Phase

/-! The steps of ENCODE. -/

section Encode
variable {s : State} {trav : Trav} {embed : Embed} {chs : List Channel}

theorem phaseOk_encCheck (hc : decode s.eng.cmd = .ok (.encode trav embed chs))
    (hb : bufferOk s.cfg s.W s.H = true) : PhaseOk (encCheck trav (setCap trav (captureOperands chs s))) := by
  unfold encCheck
  split
  · exact .of_idle (by simp)
  · have hlen : s.L ≤ s.cfg.msgBytesMax := Nat.le_of_not_lt ‹_›
    split
    · rename_i h0
      have hL : s.L = 0 := congrArg BitVec.toNat h0
      refine ⟨trav, embed, chs, ⟨hc, captured_of_check hb .capchk, hlen⟩, fun j hj => ?_⟩
      exact absurd (show j < s.L from hj) (by omega)
    · rename_i h0
      have hL : 0 < s.L := Nat.pos_of_ne_zero fun h => h0 (BitVec.eq_of_toNat_eq h)
      exact ⟨trav, embed, chs, ⟨hc, captured_of_check hb .validate, hlen⟩, hL, nofun⟩

theorem phaseOk_encSymbolOk (hv : InValidate s) (hs : s.eng.state = .validate)
    (hm : codeOf s.cfg (s.msgRead s.eng.i) ≠ none) (ho : SameOperands s (encSymbolOk s)) :
    PhaseOk (encSymbolOk s) := by
  obtain ⟨trav, embed, chs, hr, hlt, hmap⟩ := hv
  have hmap' : MappedBelow s (s.eng.i + 1) := by
    intro j hj
    rcases Nat.lt_succ_iff_lt_or_eq.mp hj with hj | rfl
    · exact hmap j hj
    · exact Option.isSome_iff_ne_none.mpr hm
  have hmap'' := ho.mappedBelow (encSymbolOk_msg s) hmap'
  unfold PhaseOk
  by_cases hlast : s.eng.i + 1 = s.eng.len.toNat
  · rw [show (encSymbolOk s).eng.state = .capchk by simp [hlast]]
    exact ⟨trav, embed, chs, ho.encodeRuns hr, by rwa [ho.len, ← hlast]⟩
  · rw [show (encSymbolOk s).eng.state = .validate by simp [hlast, hs]]
    refine ⟨trav, embed, chs, ho.encodeRuns hr, ?_, ?_⟩
    · simp
      omega
    · simpa using hmap''

theorem phaseOk_encCapchk (hv : InCapchk s) (trav : Trav)
    (ho : (encCapchk trav s).busy = true → SameOperands s (encCapchk trav s)) : PhaseOk (encCapchk trav s) := by
  obtain ⟨trav', embed, chs, hr, hmap⟩ := hv
  by_cases hfit : s.eng.cap < s.eng.k * (s.eng.len.toNat + 1)
  · exact .of_idle (by simp [hfit])
  · have hstate : (encCapchk trav s).eng.state = .travinit := by simp [hfit]
    have ho := ho (by rw [State.busy, hstate]; rfl)
    have hneed : (encCapchk trav s).eng.need = s.eng.k * (s.eng.len.toNat + 1) := by simp
    unfold PhaseOk
    rw [hstate]
    refine .inl ⟨trav', embed, chs, ho.encodeRuns hr, ?_, ?_, ?_⟩
    · rw [ho.len]
      exact ho.mappedBelow (encCapchk_msg s trav) hmap
    · rw [hneed, ho.k, ho.len]
    · rw [hneed, ho.cap]
      exact Nat.le_of_not_lt hfit

end Encode

/-! The traversal's part of a step. -/

section Traversal
variable {s : State} {trav : Trav} {chs : List Channel}

/-- Only a rejected draw is a skip (R155, R205). -/
theorem travVisit_skip {e : Engine} (h : travVisit trav e = .skip) : trav = .scat ∧ ¬ e.x < e.M := by
  cases trav with
  | seq =>
    simp only [travVisit] at h
    split at h <;> cases h
  | scat =>
    refine ⟨rfl, fun hx => ?_⟩
    simp only [travVisit, hx, if_true] at h
    split at h <;> cases h

/-- A draw that is skipped leaves `E.t` the count of the accepted ones (R205). -/
theorem genAt_skip (hg : GenAt s) (hx : ¬ s.eng.x < s.eng.M) : GenAt { s with eng := draw s.eng } :=
  genAt_draw hg ⟨rfl, rfl, rfl, rfl, rfl, rfl, rfl, rfl⟩ (by simp [draw, hx]) rfl

/-- A scatter slot that is visited is an accepted draw's, and not in pixel 0 (R202, R205). -/
theorem scat_slot_bounds (hc : Captured .scat chs s) (hg : GenAt s) {sl : Slot}
    (hv : travVisit .scat s.eng = .slot sl) : s.eng.x < s.eng.M ∧ 1 ≤ sl.p := by
  rcases travVisit_scat hc hg with ⟨hskip, -⟩ | ⟨hx, sl', hv', h1, -⟩
  · cases hskip.symm.trans hv
  · obtain rfl : sl' = sl := by simpa [hv] using hv'.symm
    exact ⟨hx, h1⟩

theorem sameOperands_travAdvance (s : State) (trav : Trav) :
    SameOperands s { s with eng := travAdvance trav s.eng } := by
  rw [travAdvance_eq]
  exact ⟨rfl, rfl, rfl, rfl, rfl, rfl, rfl, rfl, rfl, rfl, rfl, rfl⟩

end Traversal

/-! The steps of ENCODE that traverse. -/

section Encode
variable {s t : State} {trav : Trav} {embed : Embed} {chs : List Channel}

theorem phaseOk_encTravinit (hok : s.cfg.Ok) (hr : EncodeRuns trav embed chs s) (hf : EncodeFits s)
    (ho : SameOperands s (encTravinit trav s)) : PhaseOk (encTravinit trav s) := by
  have hneed : (encTravinit trav s).eng.need = s.eng.need := by cases trav <;> rfl
  have hpos : 0 < s.eng.need := by
    rw [hf.need]
    exact Nat.mul_pos (hr.captured.k_bounds hok).1 (Nat.succ_pos _)
  unfold PhaseOk
  rw [show (encTravinit trav s).eng.state = .embed by simp]
  refine ⟨trav, embed, chs, ho.encodeRuns hr, ho.encodeFits (encTravinit_msg s trav) hneed hf, ?_, ?_, ?_⟩
  · rintro rfl
    exact genAt_scatInit hr.captured ⟨rfl, rfl, rfl, rfl, rfl, rfl, rfl, rfl⟩ rfl rfl
  · rw [hneed]
    simpa using hpos
  · simp

/-- A rejected draw leaves ENCODE where it is in the payload (R175, R205). -/
theorem EmbedAt.skip (h : EmbedAt .scat embed chs s) (hx : ¬ s.eng.x < s.eng.M) :
    EmbedAt .scat embed chs { s with eng := draw s.eng } where
  runs := (sameOperands_travAdvance s .scat).encodeRuns h.runs
  fits := (sameOperands_travAdvance s .scat).encodeFits rfl rfl h.fits
  trav := fun _ => genAt_skip (h.trav rfl) hx
  t := h.t
  code := h.code

/-- Inside a code the quotient of `E.t` stays (R156, R175). -/
theorem succ_div_of_mod_ne_zero {t k : Nat} (h : (t + 1) % k ≠ 0) : (t + 1) / k = t / k := by
  rw [Nat.succ_div, if_neg (fun hd => h (Nat.mod_eq_zero_of_dvd hd)), Nat.add_zero]

/-- EMBED finds the code of the payload stream at `E.t` (R156, R174, R175). -/
theorem EmbedAt.exists_load (h : EmbedAt trav embed chs s) (hok : s.cfg.Ok) :
    ∃ acc, encLoad { s with eng := travAdvance trav s.eng } =
        .ok { s with eng := { travAdvance trav s.eng with i := s.eng.t / s.eng.k, acc := acc } } ∧
      acc.toNat = payloadCode s s.eng.len.toNat (s.eng.t / s.eng.k) := by
  have ho := sameOperands_travAdvance s trav
  have hr := ho.encodeRuns h.runs
  cases trav <;>
  exact encLoad_of_run (s := { s with eng := travAdvance _ s.eng }) hok hr (ho.encodeFits rfl rfl h.fits) h.code

/-- What EMBED loads before it stores a bit is that code. -/
theorem EmbedAt.load (h : EmbedAt trav embed chs s) (hok : s.cfg.Ok) {i : Nat} {acc : Byte}
    (hl : encLoad { s with eng := travAdvance trav s.eng } =
      .ok { s with eng := { travAdvance trav s.eng with i := i, acc := acc } }) :
    i = s.eng.t / s.eng.k ∧ acc.toNat = payloadCode s s.eng.len.toNat i := by
  obtain ⟨acc', hl', hacc⟩ := h.exists_load hok
  rw [hl] at hl'
  simp only [Except.ok.injEq, State.mk.injEq, Engine.mk.injEq, true_and, and_true] at hl'
  obtain ⟨rfl, rfl⟩ := hl'
  exact ⟨rfl, hacc⟩

/-- After a stored bit that is not the last, ENCODE stands one further in the payload (R175). -/
theorem EmbedAt.store (h : EmbedAt trav embed chs s) (hok : s.cfg.Ok) (hwf : Memory.wf s.pix) {sl : Slot}
    (hv : travVisit trav s.eng = .slot sl) {b : Bool} {i : Nat} {acc : Byte}
    (hl : encLoad { s with eng := travAdvance trav s.eng } =
      .ok { s with eng := { travAdvance trav s.eng with i := i, acc := acc } })
    (ht : t = encCount trav (embedSlot embed sl b { s with eng := { travAdvance trav s.eng with i := i, acc := acc } }))
    (ho : SameOperands s t) (hlast : s.eng.t + 1 ≠ s.eng.need) : EmbedAt trav embed chs t := by
  obtain ⟨hi, hacc⟩ := h.load hok hl
  rw [travAdvance_eq] at ht
  have heng := congrArg State.eng ht
  rw [encCount_eng] at heng
  have hmsg : t.msg = s.msg := by rw [ht]; simp
  obtain ⟨hneed, htt, hti, htacc⟩ :
      t.eng.need = s.eng.need ∧ t.eng.t = s.eng.t + 1 ∧ t.eng.i = i ∧ t.eng.acc = acc := by
    rw [heng]
    exact ⟨rfl, rfl, rfl, rfl⟩
  refine ⟨ho.encodeRuns h.runs, ho.encodeFits hmsg hneed h.fits, ?_, ?_, fun hmod => ?_⟩
  · rintro rfl
    obtain ⟨hx, hp⟩ := scat_slot_bounds h.runs.captured (h.trav rfl) hv
    refine genAt_draw (h.trav rfl) ?_ (by rw [htt, if_pos hx]) ?_
    · rw [heng]
      exact ⟨rfl, rfl, rfl, rfl, rfl, rfl, rfl, rfl⟩
    · rw [State.pixRead, ht, encCount_pix]
      exact pixRead_embedSlot_other (s := { s with eng := _ }) hwf embed sl b (by omega)
  · have := h.t
    rw [htt, hneed]
    omega
  · rw [htt, ho.k] at hmod ⊢
    rw [succ_div_of_mod_ne_zero hmod, ho.payloadCode hmsg, ho.len, hti, htacc]
    exact ⟨hi, hacc⟩

end Encode

/-! The steps of DECODE. -/

section Decode
variable {s t : State} {trav : Trav} {chs : List Channel}

theorem phaseOk_decTravinit (hok : s.cfg.Ok) (hr : DecodeRuns trav chs s)
    (ho : SameOperands s (decTravinit trav s)) : PhaseOk (decTravinit trav s) := by
  have hk : 0 < s.eng.k := (hr.captured.k_bounds hok).1
  unfold PhaseOk
  rw [show (decTravinit trav s).eng.state = .scan by simp]
  refine ⟨trav, chs, ho.decodeRuns hr, ?_, ?_⟩
  · rintro rfl
    exact genAt_scatInit hr.captured ⟨rfl, rfl, rfl, rfl, rfl, rfl, rfl, rfl⟩ rfl rfl
  · rw [ho.k]
    simpa using hk

/-- A rejected draw leaves DECODE where it is in the payload (R183, R205). -/
theorem ScanAt.skip (h : ScanAt .scat chs s) (hx : ¬ s.eng.x < s.eng.M) :
    ScanAt .scat chs { s with eng := draw s.eng } where
  runs := (sameOperands_travAdvance s .scat).decodeRuns h.runs
  trav := fun _ => genAt_skip (h.trav rfl) hx
  t_le := h.t_le
  nb := h.nb
  t := h.t
  i := h.i
  acc := h.acc

/-- A bit that enters the accumulator makes a whole group, or one more bit of it (R183). -/
theorem ScanAt.shift (h : ScanAt trav chs s) (hok : s.cfg.Ok) (hs : s.eng.state = .scan) (hne : s.eng.t ≠ s.eng.cap)
    {sl : Slot} (hv : travVisit trav s.eng = .slot sl) {b : Bool}
    (ht : t = decShift b { s with eng := travAdvance trav s.eng }) (ho : SameOperands s t) : PhaseOk t := by
  have hshift := (shiftIn_toNat (h.runs.captured.k_bounds hok).2 h.nb h.acc b).2
  have heng := congrArg State.eng ht
  rw [decShift_eng, travAdvance_eq] at heng
  obtain ⟨hnb, htt, hti, htacc⟩ : t.eng.nb = s.eng.nb + 1 ∧ t.eng.t = s.eng.t + 1 ∧ t.eng.i = s.eng.i ∧
      t.eng.acc = shiftIn s.eng.k s.eng.acc b := by
    rw [heng]
    exact ⟨rfl, rfl, rfl, rfl⟩
  have hgen : TravAt trav t := by
    rintro rfl
    obtain ⟨hx, -⟩ := scat_slot_bounds h.runs.captured (h.trav rfl) hv
    refine genAt_draw (h.trav rfl) ?_ (by rw [htt, if_pos hx]) ?_
    · rw [heng]
      exact ⟨rfl, rfl, rfl, rfl, rfl, rfl, rfl, rfl⟩
    · rw [State.pixRead, ht, decShift_pix]
      rfl
  have hle := h.t_le
  have hlt := h.nb
  have htle : t.eng.t ≤ t.eng.cap := by
    rw [htt, ho.cap]
    omega
  have hsplit : t.eng.t = t.eng.i * t.eng.k + t.eng.nb := by rw [htt, hti, ho.k, hnb, h.t, Nat.add_assoc]
  have hmax : t.eng.i ≤ t.cfg.msgBytesMax := by rw [hti, ho.cfg]; exact h.i
  have hacc : t.eng.acc.toNat < 2 ^ t.eng.nb := by rwa [htacc, hnb]
  unfold PhaseOk
  by_cases hfull : s.eng.nb + 1 = s.eng.k
  · rw [show t.eng.state = .decodeCode by simp [heng, hfull]]
    have hk : t.eng.nb = t.eng.k := by rw [hnb, ho.k, hfull]
    exact ⟨trav, chs, ho.decodeRuns h.runs, hgen, htle, hk, hsplit, hmax, hk ▸ hacc⟩
  · rw [show t.eng.state = .scan by simp [heng, hfull, hs]]
    exact ScanAt.inScan ⟨ho.decodeRuns h.runs, hgen, htle, by rw [hnb, ho.k]; omega, hsplit, hmax, hacc⟩

/-- A stored symbol ends its group (R184). -/
theorem phaseOk_decSymbol (hok : s.cfg.Ok) (h : InDecodeCode s) (hlt : s.eng.i < s.cfg.msgBytesMax) (m : Memory) :
    PhaseOk { s with
      msg := m
      eng := { s.eng with acc := 0, nb := 0, i := s.eng.i + 1, state := .scan } } := by
  obtain ⟨trav, chs, hr, hg, hle, hnb, ht, -, -⟩ := h
  have ho : SameOperands s { s with
      msg := m
      eng := { s.eng with acc := 0, nb := 0, i := s.eng.i + 1, state := .scan } } :=
    ⟨rfl, rfl, rfl, rfl, rfl, rfl, rfl, rfl, rfl, rfl, rfl, rfl⟩
  refine ScanAt.inScan ⟨ho.decodeRuns hr, fun htr => ?_, hle, (hr.captured.k_bounds hok).1, ?_, hlt, ?_⟩
  · have hgen := hg htr
    exact ⟨hgen.seed, hgen.M, hgen.m, hgen.a, hgen.c, hgen.x, hgen.t⟩
  · show s.eng.t = (s.eng.i + 1) * s.eng.k + 0
    rw [ht, hnb, Nat.succ_mul, Nat.add_zero]
  · exact Nat.one_pos

end Decode

/-! Every step. -/

/-- What the new phase says holds after every step of the engine (R42). -/
theorem EngineStep.phaseOk {s t : State} (h : EngineStep s t) (hi : Inv s) : PhaseOk t := by
  have hops : s.eng.state ≠ .check → t.busy = true → SameOperands s t := h.sameOperands
  cases h with
  | illegal r hc hs => exact .of_idle rfl
  | answered v val err hs herr => exact .of_idle rfl
  | counted trav chs hc hs hb => exact .of_idle (by simp)
  | badBuffer i chs clearsLen hc hchs hs => exact .of_idle (by simp)
  | encChecked trav embed chs hc hs hb => exact phaseOk_encCheck hc hb
  | encUnmapped trav idx val hs => exact .of_idle (by simp)
  | encMapped hs hm =>
    refine phaseOk_encSymbolOk (hi.inValidate hs) hs hm (hops (by simp [hs]) ?_)
    simp only [State.busy, encSymbolOk_eng, hs]
    split <;> decide
  | encCompared trav hs => exact phaseOk_encCapchk (hi.inCapchk hs) trav (hops (by simp [hs]))
  | encStarted trav embed chs hc hs =>
    obtain ⟨hr, hf⟩ := hi.encode_travinit hs hc
    exact phaseOk_encTravinit hi.cfg hr hf (hops (by simp [hs]) (by simp [State.busy]))
  | encSkipped trav embed chs hc hs hv =>
    obtain ⟨rfl, hx⟩ := travVisit_skip hv
    unfold PhaseOk
    rw [show (travAdvance .scat s.eng).state = .embed from hs]
    exact ((hi.embedAt hs hc).skip hx).inEmbed
  | encStored trav embed chs sl b i acc hc hs hv hp hl =>
    by_cases hlast : s.eng.t + 1 = s.eng.need
    · refine .of_idle ?_
      rw [State.Idle, encCount_eng, travAdvance_eq]
      exact if_pos hlast
    · have hstate : (encCount trav (embedSlot embed sl b { s with
          eng := { travAdvance trav s.eng with i := i, acc := acc } })).eng.state = .embed := by
        rw [encCount_eng, travAdvance_eq]
        exact (if_neg hlast).trans hs
      have ho := hops (by simp [hs]) (by rw [State.busy, hstate]; rfl)
      unfold PhaseOk
      rw [hstate]
      exact ((hi.embedAt hs hc).store hi.cfg hi.pixWf hv hl rfl ho hlast).inEmbed
  | decChecked trav chs hc hs hb => exact .inr ⟨trav, chs, hc, captured_of_check hb .travinit⟩
  | decStarted trav chs hc hs =>
    exact phaseOk_decTravinit hi.cfg (hi.decode_travinit hs hc) (hops (by simp [hs]) (by simp [State.busy]))
  | decExhausted trav idx hs ht => exact .of_idle (by simp)
  | decSkipped trav chs hc hs hne hv =>
    obtain ⟨rfl, hx⟩ := travVisit_skip hv
    unfold PhaseOk
    rw [show (travAdvance .scat s.eng).state = .scan from hs]
    exact ((hi.scanAt hs hc).skip hx).inScan
  | decShifted trav chs sl b hc hs hne hv =>
    refine (hi.scanAt hs hc).shift hi.cfg hs hne hv rfl (hops (by simp [hs]) ?_)
    simp only [State.busy, decShift_eng, travAdvance_state, hs]
    split <;> decide
  | decEnded trav err idx val hs herr => exact .of_idle (by simp)
  | decSymbol trav chs sym hc hs hlt => exact phaseOk_decSymbol hi.cfg (hi.inDecodeCode hs) hlt _

/-- Every step of the engine keeps the invariant. -/
theorem EngineStep.inv {s t : State} (h : EngineStep s t) (hi : Inv s) (hb : s.busy = true) : Inv t := by
  obtain ⟨hcfg, hrst, hcmd⟩ := h.keeps_command
  have hpix : Memory.wf t.pix ∧ Memory.Below t.pix (4 * s.cfg.pixWordsMax) := by
    rcases h.pix_cases with hp | ⟨p, v, hlt, hp⟩ <;> rw [hp]
    · exact ⟨hi.pixWf, hi.pixBelow⟩
    · exact ⟨Memory.wf_writeWord hi.pixWf _ v, Memory.below_writeWord hi.pixBelow (by omega) v⟩
  have hmsg : Memory.wf t.msg ∧ Memory.Below t.msg s.cfg.msgBytesMax := by
    rcases h.msg_cases with hm | ⟨i, b, hlt, hm⟩ <;> rw [hm]
    · exact ⟨hi.msgWf, hi.msgBelow⟩
    · exact ⟨Memory.wf_write hi.msgWf i b, Memory.below_write hi.msgBelow hlt b⟩
  refine ⟨hcfg ▸ hi.cfg, hpix.1, hmsg.1, hcfg ▸ hpix.2, hcfg ▸ hmsg.2, fun hr => ?_, ?_, fun hb' => ?_, h.phaseOk hi⟩
  · rw [hrst, hi.rst_of_busy hb] at hr
    cases hr
  · rcases h.runsOrCompletes with ⟨-, hr⟩ | ⟨-, -, hr, -⟩ <;> rw [hcmd, hr, hi.latched]
  · rcases h.runsOrCompletes with ⟨-, hr⟩ | ⟨hidle, -⟩
    · rw [hr, hi.running hb]
    · exact absurd hidle ((State.busy_eq_true t).mp hb')

end Sys2Proof.Machine
end

section
/-! PROOFS. No step faults: a running command always has a step, and every step keeps the invariant (spec 10_state.md R41,
20_memory.md R62, R63, 41_lsb_engine.md R174, R175). -/

namespace Sys2Proof.Machine

/-- Every command has a step in CHECK (R150). -/
theorem exec_check {s : State} (hs : s.eng.state = .check) (i : Instr) : ∃ t, exec i s = .next t := by
  cases i with
  | nop => simp only [exec, execNop, hs]; exact ⟨_, rfl⟩
  | encSym sym =>
    simp only [exec, execEncSym, hs]
    split <;> exact ⟨_, rfl⟩
  | decSym code =>
    simp only [exec, execDecSym, hs]
    split <;> exact ⟨_, rfl⟩
  | capacity trav chs =>
    simp only [exec, execCapacity, hs]
    split <;> exact ⟨_, rfl⟩
  | encode trav embed chs =>
    simp only [exec, execEncode, hs]
    split <;> exact ⟨_, rfl⟩
  | decode trav chs =>
    simp only [exec, execDecode, hs]
    split <;> exact ⟨_, rfl⟩

/-- So has an illegal word (R231). -/
theorem engineStep_check {s : State} (hs : s.eng.state = .check) : ∃ t, engineStep s = .next t := by
  cases hc : decode s.eng.cmd with
  | error r => simp only [engineStep, hc, illegalStep, hs]; exact ⟨_, rfl⟩
  | ok i => rw [engineStep_of_ok hc]; exact exec_check hs i

/-- VALIDATE reads inside MSGMEM (R63, R172). -/
theorem encValidate_total {s : State} (trav : Trav) (hlt : s.eng.i < s.cfg.msgBytesMax) :
    ∃ t, encValidate trav s = .next t := by
  rw [encValidate, if_pos hlt]
  split <;> exact ⟨_, rfl⟩

/-- EMBED finds a slot of the buffer, and the code of its symbol (R62, R174, R175). -/
theorem EmbedAt.total {s : State} {trav : Trav} {embed : Embed} {chs : List Channel}
    (h : EmbedAt trav embed chs s) (hok : s.cfg.Ok) : ∃ t, encEmbed trav embed s = .next t := by
  rcases travVisit_cases h.runs.captured h.trav (Nat.lt_of_lt_of_le h.t h.fits.fits) with
    ⟨-, hv, -⟩ | ⟨sl, hv, hp, -⟩
  · simp only [encEmbed, hv]; exact ⟨_, rfl⟩
  · obtain ⟨acc, hl, -⟩ := h.exists_load hok
    simp only [encEmbed, hv, hl, if_pos (h.runs.captured.pix_lt hp)]; exact ⟨_, rfl⟩

/-- SCAN finds a slot of the buffer while there is one (R62, R183, R185). -/
theorem ScanAt.total {s : State} {trav : Trav} {chs : List Channel} (h : ScanAt trav chs s) :
    ∃ t, decScan trav s = .next t := by
  by_cases ht : s.eng.t = s.eng.cap
  · simp only [decScan, if_pos ht]; exact ⟨_, rfl⟩
  · rcases travVisit_cases h.runs.captured h.trav (Nat.lt_of_le_of_ne h.t_le ht) with ⟨-, hv, -⟩ | ⟨sl, hv, hp, -⟩
    · simp only [decScan, if_neg ht, hv]; exact ⟨_, rfl⟩
    · simp only [decScan, if_neg ht, hv, if_pos (h.runs.captured.pix_lt hp)]; exact ⟨_, rfl⟩

/-- DECODE_CODE stores inside MSGMEM (R63, R184). -/
theorem decCode_total {s : State} (trav : Trav) (hle : s.eng.i ≤ s.cfg.msgBytesMax) :
    ∃ t, decCode trav s = .next t := by
  unfold decCode
  dsimp only
  split
  · exact ⟨_, rfl⟩
  · split
    · exact ⟨_, rfl⟩
    · split
      · exact ⟨_, rfl⟩
      · rw [if_pos (by omega)]
        exact ⟨_, rfl⟩

/-- A running command always has a step (R41, R174, R175). -/
theorem engineStep_total {s : State} (hi : Inv s) (hb : s.busy = true) : ∃ t, engineStep s = .next t := by
  cases hs : s.eng.state with
  | idle => exact absurd hs ((State.busy_eq_true s).mp hb)
  | check => exact engineStep_check hs
  | validate =>
    obtain ⟨trav, embed, chs, hr, hlt, -⟩ := hi.inValidate hs
    obtain ⟨t, ht⟩ := encValidate_total trav (Nat.lt_of_lt_of_le hlt hr.len)
    exact ⟨t, by simpa only [engineStep_of_ok hr.cmd, exec, execEncode, hs] using ht⟩
  | capchk =>
    obtain ⟨trav, embed, chs, hr, -⟩ := hi.inCapchk hs
    simp only [engineStep_of_ok hr.cmd, exec, execEncode, hs]; exact ⟨_, rfl⟩
  | travinit =>
    rcases hi.inTravinit hs with ⟨trav, embed, chs, hr, -⟩ | ⟨trav, chs, hr⟩
    · simp only [engineStep_of_ok hr.cmd, exec, execEncode, hs]; exact ⟨_, rfl⟩
    · simp only [engineStep_of_ok hr.cmd, exec, execDecode, hs]; exact ⟨_, rfl⟩
  | embed =>
    obtain ⟨trav, embed, chs, hr, -⟩ := hi.inEmbed hs
    obtain ⟨t, ht⟩ := (hi.embedAt hs hr.cmd).total hi.cfg
    exact ⟨t, by simpa only [engineStep_of_ok hr.cmd, exec, execEncode, hs] using ht⟩
  | scan =>
    obtain ⟨trav, chs, hr, -⟩ := hi.inScan hs
    obtain ⟨t, ht⟩ := (hi.scanAt hs hr.cmd).total
    exact ⟨t, by simpa only [engineStep_of_ok hr.cmd, exec, execDecode, hs] using ht⟩
  | decodeCode =>
    obtain ⟨trav, chs, hr, -, -, -, -, hle, -⟩ := hi.inDecodeCode hs
    obtain ⟨t, ht⟩ := decCode_total trav hle
    exact ⟨t, by simpa only [engineStep_of_ok hr.cmd, exec, execDecode, hs] using ht⟩

/-- Every turn of the engine answers a next state of the invariant. -/
theorem Inv.engineTurn {s : State} (hi : Inv s) : ∃ t, engineTurn s = .next t ∧ Inv t := by
  unfold Machine.engineTurn
  split
  · obtain ⟨hb, -⟩ : s.busy = true ∧ (!s.rst) = true := Bool.and_eq_true_iff.mp ‹_›
    obtain ⟨t, ht⟩ := engineStep_total hi hb
    exact ⟨t, ht, (EngineStep.of_engineStep ht).inv hi hb⟩
  · exact ⟨s, rfl, hi⟩

/-- Settles O49: whoever moves, there is a next state, and it has the invariant. -/
theorem invariantIsKeptAndNothingFaults : Obligations.InvariantIsKeptAndNothingFaults := by
  intro s hi
  have hp := hi.popTurn
  cases hn : nextTurn s with
  | engine => simpa only [step, agentsStep, hn, takeTurn] using hp.engineTurn
  | host => exact ⟨_, step_host hn, hp.hostTurn⟩
  | assertRst => exact ⟨_, step_assertRst hn, hp.assertReset⟩
  | releaseRst => exact ⟨_, step_releaseRst hn, hp.releaseReset⟩

end Sys2Proof.Machine
end

section
/-! PROOFS. The generator's full period: the draws of one period are distinct, so one period accepts each scatter slot
number once (spec 42_scatter.md R203, R206). -/

namespace Sys2Proof.Machine

open Finset in
/-- For `a` congruent to 1 modulo 4 the sum of its first `d` powers has as many factors 2 as `d` (lifting the
exponent). -/
theorem two_pow_dvd_of_dvd_geom_sum {a : ℤ} (h4 : 4 ∣ a - 1) (h1 : a ≠ 1) {m d : ℕ}
    (h : (2 : ℤ) ^ m ∣ ∑ i ∈ range d, a ^ i) : (2 : ℤ) ^ m ∣ (d : ℤ) := by
  have hodd : ¬ (2 : ℤ) ∣ a := by omega
  have hfin : emultiplicity 2 (a - 1) ≠ ⊤ :=
    finiteMultiplicity_iff_emultiplicity_ne_top.mp
      (Int.finiteMultiplicity_iff.mpr ⟨by decide, sub_ne_zero.mpr h1⟩)
  have hlift := Int.two_pow_sub_pow' d h4 hodd
  rw [one_pow, ← geom_sum_mul, emultiplicity_mul Int.prime_two, add_comm] at hlift
  rw [pow_dvd_iff_le_emultiplicity] at h ⊢
  rwa [← WithTop.add_left_cancel hfin hlift]

/-- The multiplier and the increment before they are reduced (R203). -/
def rawMul : ℤ := 1664525
@[inherit_doc rawMul]
def rawInc (seed : Word) : ℤ := 2 * (seed.extractLsb' 16 16).toNat + 1

/-- The `n`-th draw before it is reduced, in closed form (R203). -/
def rawDraw (seed : Word) (n : ℕ) : ℤ := rawMul ^ n * seed.toNat + rawInc seed * ∑ i ∈ Finset.range n, rawMul ^ i

theorem rawDraw_succ (seed : Word) (n : ℕ) : rawDraw seed (n + 1) = rawMul * rawDraw seed n + rawInc seed := by
  simp only [rawDraw, geom_sum_succ, pow_succ]
  ring

/-- How far `d` more draws move the generator. -/
theorem rawDraw_add_sub (seed : Word) (n d : ℕ) :
    rawDraw seed (n + d) - rawDraw seed n =
      rawMul ^ n * ((rawMul - 1) * seed.toNat + rawInc seed) * ∑ i ∈ Finset.range d, rawMul ^ i := by
  have hsum : ∑ i ∈ Finset.range d, rawMul ^ (n + i) = rawMul ^ n * ∑ i ∈ Finset.range d, rawMul ^ i := by
    simp only [pow_add, Finset.mul_sum]
  have hpow : rawMul ^ d = (∑ i ∈ Finset.range d, rawMul ^ i) * (rawMul - 1) + 1 := by
    rw [geom_sum_mul, sub_add_cancel]
  rw [rawDraw, rawDraw, Finset.sum_range_add, hsum, pow_add, hpow]
  ring

/-- A draw is the closed form modulo `2^m` (R203). -/
theorem genDraw_modEq (seed : Word) (M n : ℕ) :
    (genDraw seed M n : ℤ) ≡ rawDraw seed n [ZMOD 2 ^ genExponent M] := by
  induction n with
  | zero => simpa [genDraw, genStart, rawDraw] using Int.mod_modEq (seed.toNat : ℤ) (2 ^ genExponent M)
  | succ n ih =>
    have hstep : (genDraw seed M (n + 1) : ℤ) ≡ rawMul * genDraw seed M n + rawInc seed
        [ZMOD 2 ^ genExponent M] := by
      simp only [genDraw, genNext, genMul, genInc, rawMul, rawInc]
      push_cast
      exact (Int.mod_modEq _ _).trans (((Int.mod_modEq _ _).mul_right _).add (Int.mod_modEq _ _))
    rw [rawDraw_succ]
    exact hstep.trans ((ih.mul_left rawMul).add_right (rawInc seed))

/-- The distance of two equal draws is a multiple of the period (R206). -/
theorem two_pow_dvd_of_genDraw_eq {seed : Word} {M n d : ℕ} (h : genDraw seed M (n + d) = genDraw seed M n) :
    2 ^ genExponent M ∣ d := by
  have hmod : rawDraw seed n ≡ rawDraw seed (n + d) [ZMOD 2 ^ genExponent M] :=
    (h ▸ genDraw_modEq seed M n).symm.trans (genDraw_modEq seed M (n + d))
  have hdvd := hmod.dvd
  rw [rawDraw_add_sub] at hdvd
  have hodd : Odd (rawMul ^ n * ((rawMul - 1) * seed.toNat + rawInc seed)) := by
    refine (Odd.pow (by decide)).mul ⟨832262 * seed.toNat + (seed.extractLsb' 16 16).toNat, ?_⟩
    simp only [rawMul, rawInc]
    ring
  have hcop := (Int.isCoprime_two_left.mpr hodd).pow_left (m := genExponent M)
  exact_mod_cast two_pow_dvd_of_dvd_geom_sum (a := rawMul) (by decide) (by decide) (hcop.dvd_of_dvd_mul_left hdvd)

/-- The draws of one period are distinct (R206). -/
theorem genDraw_injOn (seed : Word) (M : ℕ) : Set.InjOn (genDraw seed M) (Finset.range (2 ^ genExponent M)) := by
  have hlt : ∀ n d, n + d < 2 ^ genExponent M → genDraw seed M (n + d) = genDraw seed M n → d = 0 :=
    fun n d hd h => Nat.eq_zero_of_dvd_of_lt (two_pow_dvd_of_genDraw_eq h) (by omega)
  intro i hi j hj h
  simp only [Finset.coe_range, Set.mem_Iio] at hi hj
  rcases Nat.le_total i j with hij | hij <;> obtain ⟨d, rfl⟩ := Nat.exists_eq_add_of_le hij
  · rw [hlt i d hj h.symm, Nat.add_zero]
  · rw [hlt j d hi h, Nat.add_zero]

/-- One period draws every residue (R206). -/
theorem image_genDraw (seed : Word) (M : ℕ) :
    (Finset.range (2 ^ genExponent M)).image (genDraw seed M) = Finset.range (2 ^ genExponent M) := by
  refine Finset.eq_of_subset_of_card_le (fun v hv => ?_) ?_
  · obtain ⟨n, -, rfl⟩ := Finset.mem_image.mp hv
    exact Finset.mem_range.mpr (genDraw_lt seed M n)
  · rw [Finset.card_image_of_injOn (genDraw_injOn seed M)]

/-- One period accepts `M` draws (R206). -/
theorem acceptedDraws_period (seed : Word) (M : ℕ) : acceptedDraws seed M (2 ^ genExponent M) = M := by
  have hcard : acceptedDraws seed M (2 ^ genExponent M) =
      ((Finset.range (2 ^ genExponent M)).filter fun n => genDraw seed M n < M).card := by
    simp only [acceptedDraws, List.countP_eq_length_filter]
    rfl
  have himage := Finset.filter_image (s := Finset.range (2 ^ genExponent M)) (f := genDraw seed M) (p := (· < M))
  rw [image_genDraw] at himage
  have hbelow : (Finset.range (2 ^ genExponent M)).filter (· < M) = Finset.range M := by
    ext v
    have := le_two_pow_genExponent M
    simp only [Finset.mem_filter, Finset.mem_range]
    omega
  have hinj := (genDraw_injOn seed M).mono
    (Finset.coe_subset.mpr (Finset.filter_subset (fun n => genDraw seed M n < M) _))
  rw [hcard, ← Finset.card_image_of_injOn hinj, ← himage, hbelow, Finset.card_range]

theorem acceptedDraws_mono (seed : Word) (M : ℕ) : Monotone (acceptedDraws seed M) :=
  monotone_nat_of_le_succ fun n => by rw [acceptedDraws_succ]; exact Nat.le_add_right _ _

/-- Before the last slot is accepted the period is not over (R206). -/
theorem lt_two_pow_of_acceptedDraws_lt {seed : Word} {M n : ℕ} (h : acceptedDraws seed M n < M) :
    n < 2 ^ genExponent M := by
  by_contra hn
  have := acceptedDraws_mono seed M (Nat.le_of_not_lt hn)
  rw [acceptedDraws_period] at this
  omega

end Sys2Proof.Machine
end

section
/-! PROOFS. The ranges of the engine registers (spec 10_state.md R40). -/

namespace Sys2Proof.Machine

/-! The sizes. -/

/-- PIX_WORDS_MAX is at most `2^20` (R7). -/
theorem pixWordsMax_le {c : Config} (hok : c.Ok) : c.pixWordsMax ≤ 2 ^ 20 := by
  obtain ⟨-, ⟨-, hp⟩, -⟩ := hok
  exact hp

/-- MSG_BYTES_MAX is at most `2^20` (R8). -/
theorem msgBytesMax_le {c : Config} (hok : c.Ok) : c.msgBytesMax ≤ 2 ^ 20 := by
  obtain ⟨-, -, -, hm⟩ := hok
  exact hm

/-- A command designates at most the four channels (R93, R151). -/
theorem channels_length_le {w : Word} {i : Instr} (h : decode w = .ok i) : i.channels.length ≤ 4 := by
  unfold decode at h
  split at h
  · split at h <;> cases h
    case h_2 | h_3 | h_4 => exact chlist_length_le _
    all_goals exact Nat.zero_le 4
  · cases h

theorem capacityBits_le (trav : Trav) (w h nc : Nat) : capacityBits trav w h nc ≤ w * h * nc := by
  cases trav
  · exact Nat.le_refl _
  · exact Nat.mul_le_mul_right nc (Nat.sub_le _ _)

/-- The capacity of a valid buffer (R40, R152, R153). -/
theorem capacityBits_le_of_bufferOk {c : Config} (hok : c.Ok) {w h nc : Nat} (hb : bufferOk c w h = true)
    (hnc : nc ≤ 4) (trav : Trav) : capacityBits trav w h nc ≤ 2 ^ 22 := by
  obtain ⟨-, -, hwords⟩ := (bufferOk_iff c w h).mp hb
  have hpix : w * h ≤ 2 ^ 20 := Nat.le_trans hwords (pixWordsMax_le hok)
  calc capacityBits trav w h nc ≤ w * h * nc := capacityBits_le trav w h nc
    _ ≤ 2 ^ 20 * 4 := Nat.mul_le_mul hpix hnc
    _ = 2 ^ 22 := by norm_num

section Captured
variable {s : State} {trav : Trav} {chs : List Channel}

theorem Captured.cap_le (hc : Captured trav chs s) (hok : s.cfg.Ok) (hlen : chs.length ≤ 4) :
    s.eng.cap ≤ 2 ^ 22 := by
  rw [hc.cap]
  exact capacityBits_le_of_bufferOk hok hc.buffer hlen trav

/-- TRAVINIT's number of slots is the capacity (R153, R204). -/
theorem Captured.slots_eq (hc : Captured .scat chs s) : (s.eng.w.toNat * s.eng.h.toNat - 1) * s.eng.nc = s.eng.cap := by
  rw [hc.cap, hc.w, hc.h, hc.nc]
  rfl

/-- While a slot is still to be accepted the draws are inside the first period, so they are fewer than `2^22` (R206). -/
theorem GenAt.g_lt (hg : GenAt s) (hcap : s.eng.cap ≤ 2 ^ 22) (ht : s.eng.t < s.eng.cap) : s.eng.g < 2 ^ 22 := by
  have hM : s.eng.M ≤ 2 ^ 22 := hg.M ▸ hcap
  rw [hg.t, ← hg.M] at ht
  exact Nat.lt_of_lt_of_le (lt_two_pow_of_acceptedDraws_lt ht)
    (Nat.pow_le_pow_right (by decide) (genExponent_le hM))

/-- A visit counts its draw, if it makes one (R205). -/
theorem travAdvance_g_le (hg : TravAt trav s) (hcap : s.eng.cap ≤ 2 ^ 22) (ht : s.eng.t < s.eng.cap)
    (hle : s.eng.g ≤ 2 ^ 22) : (travAdvance trav s.eng).g ≤ 2 ^ 22 := by
  cases trav with
  | seq => exact hle
  | scat => exact (hg rfl).g_lt hcap ht

end Captured

theorem EmbedAt.t_lt_cap {s : State} {trav : Trav} {embed : Embed} {chs : List Channel}
    (h : EmbedAt trav embed chs s) : s.eng.t < s.eng.cap := Nat.lt_of_lt_of_le h.t h.fits.fits

/-! The draw count. -/

/-- The draws a visit of ENCODE has counted (R206). -/
theorem EmbedAt.g_le {s : State} {trav : Trav} {embed : Embed} {chs : List Channel} (h : EmbedAt trav embed chs s)
    (hok : s.cfg.Ok) (hg : s.eng.g ≤ 2 ^ 22) : (travAdvance trav s.eng).g ≤ 2 ^ 22 :=
  travAdvance_g_le h.trav (h.runs.captured.cap_le hok (channels_length_le h.runs.cmd)) h.t_lt_cap hg

/-- The draws a visit of DECODE has counted (R206). -/
theorem ScanAt.g_le {s : State} {trav : Trav} {chs : List Channel} (h : ScanAt trav chs s) (hok : s.cfg.Ok)
    (hne : s.eng.t ≠ s.eng.cap) (hg : s.eng.g ≤ 2 ^ 22) : (travAdvance trav s.eng).g ≤ 2 ^ 22 :=
  travAdvance_g_le h.trav (h.runs.captured.cap_le hok (channels_length_le h.runs.cmd))
    (Nat.lt_of_le_of_ne h.t_le hne) hg

theorem EngineStep.g_le {s t : State} (h : EngineStep s t) (hi : Inv s) (hg : s.eng.g ≤ 2 ^ 22) :
    t.eng.g ≤ 2 ^ 22 := by
  cases h with
  | encStarted trav embed chs hc hs =>
    cases trav with
    | seq => exact hg
    | scat => exact Nat.zero_le _
  | decStarted trav chs hc hs =>
    cases trav with
    | seq => exact hg
    | scat => exact Nat.zero_le _
  | counted trav chs hc hs hb => simp
  | badBuffer i chs clearsLen hc hchs hs => simp
  | encChecked trav embed chs hc hs hb => simp
  | decChecked trav chs hc hs hb => exact Nat.zero_le _
  | encSkipped trav embed chs hc hs hv => exact (hi.embedAt hs hc).g_le hi.cfg hg
  | encStored trav embed chs sl b i acc hc hs hv hp hl =>
    simpa using (hi.embedAt hs hc).g_le hi.cfg hg
  | decSkipped trav chs hc hs hne hv => exact (hi.scanAt hs hc).g_le hi.cfg hne hg
  | decShifted trav chs sl b hc hs hne hv => simpa using (hi.scanAt hs hc).g_le hi.cfg hne hg
  | _ => simpa using hg

/-! The other registers. -/

section InRange
variable {s : State} {e : Engine} {trav : Trav} {chs : List Channel}

theorem Engine.InRange.withState (h : e.InRange) (p : Phase) : Engine.InRange { e with state := p } := { h with }

/-- CHECK's captures (R150). -/
theorem Engine.InRange.capture (h : s.eng.InRange) (hok : s.cfg.Ok) (hlen : chs.length ≤ 4) :
    (captureOperands chs s).eng.InRange :=
  { h with
    k := Nat.lt_of_le_of_lt (codeWidth_le hok) (by decide)
    chs := hlen
    nc := hlen
    i := Nat.zero_le _
    t := Nat.zero_le _
    nb := Nat.zero_le _
    g := Nat.zero_le _ }

/-- CHECK's capacity (R150). -/
theorem Engine.InRange.check (h : s.eng.InRange) (hok : s.cfg.Ok) (hlen : chs.length ≤ 4)
    (hb : bufferOk s.cfg s.W s.H = true) (trav : Trav) : (setCap trav (captureOperands chs s)).eng.InRange :=
  { h.capture hok hlen with cap := capacityBits_le_of_bufferOk hok hb hlen trav }

/-- TRAVINIT's generator (R204). -/
theorem Engine.InRange.scatInit (h : e.InRange) (hM : (e.w.toNat * e.h.toNat - 1) * e.nc ≤ 2 ^ 22) (seed : Word) :
    (scatInit seed e).InRange := by
  have hm := genExponent_le hM
  have hpow := Nat.pow_le_pow_right (n := 2) (by decide) hm
  exact { h with
    M := hM
    m := hm
    a := Nat.lt_of_lt_of_le (genMul_lt _) hpow
    c := Nat.lt_of_lt_of_le (genInc_lt seed _) hpow
    x := Nat.lt_of_lt_of_le (genStart_lt seed _) hpow
    g := Nat.zero_le _ }

/-- One visit (R205). -/
theorem Engine.InRange.advance (h : e.InRange) (hg : (travAdvance trav e).g ≤ 2 ^ 22) :
    (travAdvance trav e).InRange := by
  cases trav with
  | seq => exact h
  | scat =>
    exact { h with
      x := Nat.lt_of_lt_of_le (genNext_lt _ _ _ _) (Nat.pow_le_pow_right (by decide) h.m)
      g := hg }

end InRange

/-- TRAVINIT of both commands (R174, R182, R204). -/
theorem Engine.InRange.travInit {s : State} {trav : Trav} {chs : List Channel} (h : s.eng.InRange)
    (hc : Captured trav chs s) : (travInit trav s).eng.InRange := by
  cases trav with
  | seq => exact h
  | scat => exact h.scatInit (hc.slots_eq ▸ h.cap) _

/-- Every step of the engine keeps its registers in range. -/
theorem EngineStep.inRange {s t : State} (h : EngineStep s t) (hi : Inv s) (hr : s.eng.InRange) : t.eng.InRange := by
  have hg := h.g_le hi hr.g
  have hmax := msgBytesMax_le hi.cfg
  cases h with
  | illegal r hc hs => exact hr.withState .idle
  | answered v val err hs herr => exact hr.withState .idle
  | counted trav chs hc hs hb =>
    rw [capacityDone_eng]
    exact (hr.check hi.cfg (channels_length_le hc) hb trav).withState .idle
  | badBuffer i chs clearsLen hc hchs hs =>
    rw [State.invalidBuffer_eng]
    exact (hr.capture hi.cfg (hchs ▸ channels_length_le hc)).withState .idle
  | encChecked trav embed chs hc hs hb =>
    rw [encCheck_eng]
    exact (hr.check hi.cfg (channels_length_le hc) hb trav).withState _
  | encUnmapped trav idx val hs =>
    rw [encFinish_eng]
    exact hr.withState .idle
  | encMapped hs hm =>
    obtain ⟨trav, embed, chs, hruns, hlt, -⟩ := hi.inValidate hs
    have hlen := hruns.len
    rw [encSymbolOk_eng]
    exact { hr with i := show s.eng.i + 1 ≤ 2 ^ 20 by omega }
  | encCompared trav hs =>
    obtain ⟨trav', embed, chs, hruns, -⟩ := hi.inCapchk hs
    have hlen := hruns.len
    rw [encCapchk_eng]
    exact { hr with need := Nat.mul_le_mul (hruns.captured.k_bounds hi.cfg).2 (by omega) }
  | encStarted trav embed chs hc hs =>
    have h := hr.travInit (hi.encode_travinit hs hc).1.captured
    exact { h with t := Nat.zero_le _, i := Nat.zero_le _ }
  | encSkipped trav embed chs hc hs hv => exact hr.advance hg
  | encStored trav embed chs sl b i acc hc hs hv hp hl =>
    have hat := hi.embedAt hs hc
    have h := hr.advance (hat.g_le hi.cfg hr.g)
    have hcap := hr.cap
    have hit : i ≤ 2 ^ 20 := by
      have hlt := hat.t
      rw [hat.fits.need] at hlt
      have hquot := Nat.div_lt_of_lt_mul hlt
      have hlen := hat.runs.len
      rw [(hat.load hi.cfg hl).1]
      omega
    rw [encCount_eng]
    exact { h with
      i := hit
      t := by
        have hlt := hat.t_lt_cap
        rw [travAdvance_eq]
        show s.eng.t + 1 ≤ 2 ^ 22
        omega }
  | decChecked trav chs hc hs hb => exact (hr.check hi.cfg (channels_length_le hc) hb trav).withState _
  | decStarted trav chs hc hs =>
    have h := hr.travInit (hi.decode_travinit hs hc).captured
    exact { h with t := Nat.zero_le _, i := Nat.zero_le _, nb := Nat.zero_le _ }
  | decExhausted trav idx hs ht =>
    rw [decFinish_eng]
    exact hr.withState .idle
  | decSkipped trav chs hc hs hne hv => exact hr.advance hg
  | decShifted trav chs sl b hc hs hne hv =>
    have hat := hi.scanAt hs hc
    have h := hr.advance (hat.g_le hi.cfg hne hr.g)
    have hcap := hr.cap
    have hk := (hat.runs.captured.k_bounds hi.cfg).2
    have hnb := hat.nb
    have hle := hat.t_le
    rw [decShift_eng]
    exact { h with
      nb := by
        rw [travAdvance_eq]
        show s.eng.nb + 1 ≤ 8
        omega
      t := by
        rw [travAdvance_eq]
        show s.eng.t + 1 ≤ 2 ^ 22
        omega }
  | decEnded trav err idx val hs herr =>
    rw [decFinish_eng]
    exact { hr with nb := Nat.zero_le _ }
  | decSymbol trav chs sym hc hs hlt =>
    exact { hr with i := Nat.le_trans hlt hmax, nb := Nat.zero_le _ }

/-! Whoever moves. -/

theorem Engine.InRange.reset : Engine.reset.InRange := by
  constructor <;> decide

/-- A register write starts a command or leaves the engine as it is (R32). -/
theorem State.writeReg_eng (s : State) (r : RegName) (v : Word) :
    ∃ w p, (s.writeReg r v).eng = { s.eng with cmd := w, state := p } := by
  cases r with
  | cmd => cases hb : s.busy <;> exact ⟨_, _, by simp only [State.writeReg, hb]; rfl⟩
  | width | height | msgLen =>
    exact ⟨_, _, by simp only [State.writeReg]; split <;> rfl⟩
  | _ => exact ⟨_, _, rfl⟩

theorem State.perform_eng (s : State) (a : Access) :
    ∃ w p, (s.perform a).eng = { s.eng with cmd := w, state := p } := by
  cases a with
  | read addr n => exact ⟨_, _, rfl⟩
  | write addr n v =>
    simp only [State.perform]
    split
    · rename_i g hg
      cases g with
      | reg r => exact s.writeReg_eng r v
      | _ => exact ⟨_, _, rfl⟩
    · exact ⟨_, _, rfl⟩

/-- What a turn of the host can do to the engine: start a command (R32). -/
theorem hostTurn_eng (s : State) : ∃ w p, (hostTurn s).eng = { s.eng with cmd := w, state := p } := by
  rcases hostTurn_cases s with h | ⟨a, l, h⟩ <;> rw [h]
  · exact ⟨_, _, rfl⟩
  · exact State.perform_eng { s with host := l } a

/-- What one step can do to the engine, whoever moves (R41, R270). -/
theorem step_eng_cases {s t : State} (h : step s = .next t) :
    EngineStep (popTurn s) t ∨ (∃ w p, t.eng = { s.eng with cmd := w, state := p }) ∨ t.eng = Engine.reset := by
  have same : ∃ w p, s.eng = { s.eng with cmd := w, state := p } := ⟨_, _, rfl⟩
  cases hn : nextTurn s with
  | engine =>
    have idle : s.busy = false ∨ s.rst = true → ∃ w p, t.eng = { s.eng with cmd := w, state := p } := fun hidle => by
      rw [step_engine_idle hn hidle] at h
      cases h
      exact same
    cases hb : s.busy with
    | false => exact .inr (.inl (idle (.inl hb)))
    | true =>
      cases hr : s.rst with
      | true => exact .inr (.inl (idle (.inr hr)))
      | false =>
        rw [step_engine hn hb hr] at h
        exact .inl (.of_engineStep h)
  | host =>
    rw [step_host hn] at h
    cases h
    exact .inr (.inl (hostTurn_eng (popTurn s)))
  | assertRst =>
    rw [step_assertRst hn] at h
    cases h
    exact .inr (.inr rfl)
  | releaseRst =>
    rw [step_releaseRst hn] at h
    cases h
    exact .inr (.inl same)

/-- Settles O50: the registers are counted and captured inside their ranges, whoever moves. -/
theorem engineRegistersStayInRange : Obligations.EngineRegistersStayInRange := by
  intro s t hi hr h
  rcases step_eng_cases h with h | ⟨w, p, h⟩ | h
  · exact h.inRange hi.popTurn hr
  · rw [h]
    exact { hr with }
  · rw [h]
    exact .reset

/-- Settles O51: a draw is counted only while a slot is still to be accepted, so inside the first period. -/
theorem drawCountStaysInRange : Obligations.DrawCountStaysInRange := by
  intro s t hi hg h
  rcases step_eng_cases h with h | ⟨w, p, h⟩ | h
  · exact h.g_le hi.popTurn hg
  · rw [h]
    exact hg
  · rw [h]
    exact Nat.zero_le _

end Sys2Proof.Machine
end

section
/-! PROOFS. A command's outcome does not depend on what the host does meanwhile (spec 10_state.md R41,
70_reset_and_hazards.md R280). -/

namespace Sys2Proof.Machine

/-- What a running command neither reads nor, but for DONE, writes: CTRL, DONE and OVERRUN, and the outside world
(R280). -/
structure Outside where
  irqEn   : Bool
  done    : Bool
  overrun : Bool
  host    : List HostOp
  sched   : List Turn
  resp    : Option Response

/-- The state with another outside. -/
def State.under (s : State) (v : Outside) : State :=
  { s with
    regs := { s.regs with irqEn := v.irqEn, done := v.done, overrun := v.overrun }
    host := v.host
    sched := v.sched
    resp := v.resp }

@[simp] theorem State.under_cfg (s : State) (v : Outside) : (s.under v).cfg = s.cfg := rfl
@[simp] theorem State.under_eng (s : State) (v : Outside) : (s.under v).eng = s.eng := rfl
@[simp] theorem State.under_msgRead (s : State) (v : Outside) (i : Nat) : (s.under v).msgRead i = s.msgRead i := rfl

theorem SameCommandView.exists_under {s t : State} (h : SameCommandView s t) : ∃ v, t = s.under v := by
  obtain ⟨hcfg, heng, hpix, hmsg, hrst, hregs⟩ := h
  refine ⟨⟨t.regs.irqEn, t.regs.done, t.regs.overrun, t.host, t.sched, t.resp⟩, ?_⟩
  rw [State.under, hcfg, heng, hpix, hmsg, hrst, hregs]

theorem sameCommandView_under (s : State) (v : Outside) : SameCommandView s (s.under v) :=
  ⟨rfl, rfl, rfl, rfl, rfl, rfl⟩

theorem SameCommandView.trans {s t u : State} (h : SameCommandView s t) (h' : SameCommandView t u) :
    SameCommandView s u := by
  obtain ⟨v, rfl⟩ := h.exists_under
  obtain ⟨w, rfl⟩ := h'.exists_under
  exact sameCommandView_under s w

theorem SameCommandView.ite {c : Prop} [Decidable c] {s t s' t' : State} (h : SameCommandView s s')
    (h' : SameCommandView t t') : SameCommandView (if c then s else t) (if c then s' else t') := by
  split
  · exact h
  · exact h'

/-- Both results are next states with one command view, or the same stop. -/
inductive Agree : Result → Result → Prop
  | next {s t : State} : SameCommandView s t → Agree (.next s) (.next t)
  | fault (f : Fault) : Agree (.fault f) (.fault f)

theorem Agree.ite {c : Prop} [Decidable c] {p q p' q' : Result} (h : Agree p p') (h' : Agree q q') :
    Agree (if c then p else q) (if c then p' else q') := by
  split
  · exact h
  · exact h'

/-! Each part of a step, with another outside. -/

section Under
variable (s : State) (v : Outside) (trav : Trav)

theorem complete_under (err : ErrCode) (idx val : Word) :
    SameCommandView (s.complete err idx val) ((s.under v).complete err idx val) :=
  ⟨rfl, rfl, rfl, rfl, rfl, rfl⟩

theorem invalidBuffer_under (clearsLen : Bool) :
    SameCommandView (s.invalidBuffer clearsLen) ((s.under v).invalidBuffer clearsLen) := by
  cases clearsLen <;> exact complete_under _ v ..

theorem encFinish_under (err : ErrCode) (idx val : Word) :
    SameCommandView (encFinish trav err idx val s) (encFinish trav err idx val (s.under v)) := by
  cases trav <;> exact complete_under _ v ..

theorem decFinish_under (err : ErrCode) (idx val : Word) :
    SameCommandView (decFinish trav err idx val s) (decFinish trav err idx val (s.under v)) := by
  cases trav <;> exact complete_under _ v ..

theorem capacityDone_under : SameCommandView (capacityDone trav s) (capacityDone trav (s.under v)) := by
  cases trav <;> exact complete_under _ v ..

theorem encCheck_under : SameCommandView (encCheck trav s) (encCheck trav (s.under v)) :=
  .ite (encFinish_under s v trav _ _ _) (.ite (sameCommandView_under _ v) (sameCommandView_under _ v))

theorem encSymbolOk_under : SameCommandView (encSymbolOk s) (encSymbolOk (s.under v)) :=
  .ite (sameCommandView_under _ v) (sameCommandView_under _ v)

theorem encCapchk_under : SameCommandView (encCapchk trav s) (encCapchk trav (s.under v)) :=
  .ite (encFinish_under _ v trav _ _ _) (sameCommandView_under _ v)

theorem encTravinit_under : SameCommandView (encTravinit trav s) (encTravinit trav (s.under v)) := by
  cases trav <;> exact sameCommandView_under _ v

theorem encCount_under : SameCommandView (encCount trav s) (encCount trav (s.under v)) :=
  .ite (encFinish_under _ v trav _ _ _) (sameCommandView_under _ v)

theorem decTravinit_under : SameCommandView (decTravinit trav s) (decTravinit trav (s.under v)) := by
  cases trav <;> exact sameCommandView_under _ v

theorem decShift_under (b : Bool) : SameCommandView (decShift b s) (decShift b (s.under v)) :=
  .ite (sameCommandView_under _ v) (sameCommandView_under _ v)

theorem encLoad_under : encLoad (s.under v) = (encLoad s).map (·.under v) := by
  simp only [encLoad, State.under_cfg, State.under_eng, State.under_msgRead, apply_ite (Except.map fun u : State => u.under v)]
  cases codeOf s.cfg (s.msgRead (s.eng.t / s.eng.k)) <;> rfl

/-- The buffer check reads no outside (R152). -/
theorem checkTail_under (chs : List Channel) :
    checkTail trav chs (s.under v) = (checkTail trav chs s).map (·.under v) := by
  by_cases hb : bufferOk s.cfg s.W s.H = true
  · rw [checkTail_of_ok hb, checkTail_of_ok (s := s.under v) hb]
    rfl
  · rw [checkTail_of_bad hb, checkTail_of_bad (s := s.under v) hb]
    rfl

/-! Each phase. -/

theorem encValidate_under : Agree (encValidate trav s) (encValidate trav (s.under v)) := by
  simp only [encValidate, State.under_cfg, State.under_eng, State.under_msgRead]
  refine .ite ?_ (.fault _)
  cases codeOf s.cfg (s.msgRead s.eng.i) with
  | none => exact .next (encFinish_under s v trav ..)
  | some c => exact .next (encSymbolOk_under s v)

theorem encEmbed_under (embed : Embed) : Agree (encEmbed trav embed s) (encEmbed trav embed (s.under v)) := by
  have hl : encLoad { s.under v with eng := travAdvance trav s.eng } =
      (encLoad { s with eng := travAdvance trav s.eng }).map (·.under v) :=
    encLoad_under { s with eng := travAdvance trav s.eng } v
  simp only [State.under_cfg] at hl
  simp only [encEmbed, State.under_cfg, State.under_eng, hl]
  cases travVisit trav s.eng with
  | skip => exact .next (sameCommandView_under _ v)
  | noChannel n => exact .fault _
  | slot sl =>
    refine .ite ?_ (.fault _)
    cases encLoad { s with eng := travAdvance trav s.eng } with
    | error f => exact .fault f
    | ok u => exact .next (encCount_under (embedSlot embed sl (payloadBit u.eng) u) v trav)

theorem decScan_under : Agree (decScan trav s) (decScan trav (s.under v)) := by
  simp only [decScan, State.under_cfg, State.under_eng]
  refine .ite (.next (decFinish_under s v trav ..)) ?_
  cases travVisit trav s.eng with
  | skip => exact .next (sameCommandView_under _ v)
  | noChannel n => exact .fault _
  | slot sl =>
    refine .ite (.next ?_) (.fault _)
    exact decShift_under { s with eng := travAdvance trav s.eng } v (slotBit sl s)

theorem decCode_under : Agree (decCode trav s) (decCode trav (s.under v)) := by
  have hfinish (err : ErrCode) (idx val : Word) :
      Agree (.next (decFinish trav err idx val { s with eng := { s.eng with acc := 0, nb := 0 } }))
        (.next (decFinish trav err idx val { s.under v with eng := { s.eng with acc := 0, nb := 0 } })) :=
    .next (decFinish_under _ v trav err idx val)
  simp only [decCode, State.under_cfg, State.under_eng]
  refine .ite (hfinish _ _ _) ?_
  cases symbolOf s.cfg s.eng.acc.toNat with
  | none => exact hfinish _ _ _
  | some sym => exact .ite (hfinish _ _ _) (.ite (.next (sameCommandView_under _ v)) (.fault _))

/-- A meaning reads nothing of the outside, and writes of it at most DONE (R83, R280). -/
theorem exec_under (i : Instr) : Agree (exec i s) (exec i (s.under v)) := by
  cases i with
  | nop =>
    simp only [exec, execNop, State.under_eng]
    cases s.eng.state with
    | check => exact .next (complete_under s v ..)
    | _ => exact .fault _
  | capacity trav chs =>
    simp only [exec, execCapacity, State.under_eng, checkTail_under]
    cases s.eng.state with
    | check =>
      cases checkTail trav chs s with
      | none => exact .next (invalidBuffer_under (captureOperands chs s) v false)
      | some u => exact .next (capacityDone_under u v trav)
    | _ => exact .fault _
  | encSym sym =>
    simp only [exec, execEncSym, State.under_eng, State.under_cfg]
    cases s.eng.state with
    | check => cases codeOf s.cfg sym <;> exact .next (complete_under _ v ..)
    | _ => exact .fault _
  | decSym code =>
    simp only [exec, execDecSym, State.under_eng, State.under_cfg]
    cases s.eng.state with
    | check => cases symbolOf s.cfg code.toNat <;> exact .next (complete_under _ v ..)
    | _ => exact .fault _
  | encode trav embed chs =>
    simp only [exec, execEncode, State.under_eng, checkTail_under]
    cases s.eng.state with
    | check =>
      cases checkTail trav chs s with
      | none => exact .next (invalidBuffer_under (captureOperands chs s) v false)
      | some u => exact .next (encCheck_under u v trav)
    | validate => exact encValidate_under s v trav
    | capchk => exact .next (encCapchk_under s v trav)
    | travinit => exact .next (encTravinit_under s v trav)
    | embed => exact encEmbed_under s v trav embed
    | idle | scan | decodeCode => exact .fault _
  | decode trav chs =>
    simp only [exec, execDecode, State.under_eng, checkTail_under]
    cases s.eng.state with
    | check =>
      cases checkTail trav chs s with
      | none => exact .next (invalidBuffer_under (captureOperands chs s) v true)
      | some u => exact .next (sameCommandView_under _ v)
    | travinit => exact .next (decTravinit_under s v trav)
    | scan => exact decScan_under s v trav
    | decodeCode => exact decCode_under s v trav
    | idle | validate | capchk | embed => exact .fault _

theorem engineStep_under : Agree (engineStep s) (engineStep (s.under v)) := by
  cases hc : decode s.eng.cmd with
  | ok i =>
    rw [engineStep_of_ok hc, engineStep_of_ok (s := s.under v) hc]
    exact exec_under s v i
  | error r =>
    rw [engineStep_of_error hc, engineStep_of_error (s := s.under v) hc]
    simp only [illegalStep, State.under_eng]
    cases s.eng.state with
    | check => exact .next (complete_under (s.setResult 0) v ..)
    | _ => exact .fault _

end Under

/-- The engine's step goes the same way in both states. -/
theorem SameCommandView.engineStep {s t s' : State} (h : SameCommandView s t) (hs : engineStep s = .next s') :
    ∃ t', engineStep t = .next t' ∧ SameCommandView s' t' := by
  obtain ⟨v, rfl⟩ := h.exists_under
  have hagree := engineStep_under s v
  rw [hs] at hagree
  generalize Machine.engineStep (s.under v) = q at hagree
  cases hagree with
  | next h => exact ⟨_, rfl, h⟩

/-- While a command runs, a turn of the host is nothing to it (R280). -/
theorem sameCommandView_hostTurn {s : State} (hb : s.busy = true) : SameCommandView s (hostTurn s) := by
  rcases hostTurn_cases s with h | ⟨a, l, h⟩ <;> rw [h]
  · exact ⟨rfl, rfl, rfl, rfl, rfl, rfl⟩
  · exact SameCommandView.trans (t := { s with host := l }) ⟨rfl, rfl, rfl, rfl, rfl, rfl⟩
      (sameCommandView_hostAccess (s := { s with host := l }) hb a)

theorem hostAccess_sched (s : State) (a : Access) : (State.hostAccess a s).sched = s.sched := by
  cases a with
  | read addr n => rfl
  | write addr n v =>
    simp only [State.hostAccess, State.perform]
    split
    · rename_i g hg
      cases g with
      | reg r =>
        obtain ⟨-, -, -, -, -, hsched, -⟩ := s.writeReg_frame r v
        exact hsched
      | _ => rfl
    · rfl

/-- The schedule is not the host's. -/
theorem hostTurn_sched (s : State) : (hostTurn s).sched = s.sched := by
  rcases hostTurn_cases s with h | ⟨a, l, h⟩ <;> rw [h]
  exact hostAccess_sched { s with host := l } a

/-! The two runs. -/

/-- An engine turn of both. -/
theorem SameCommandView.step_engine {s t s' : State} (h : SameCommandView s t) (hb : s.busy = true)
    (hr : s.rst = false) {l l' : List Turn} (hs : s.sched = .engine :: l) (ht : t.sched = .engine :: l')
    (hstep : step s = .next s') :
    ∃ t', step t = .next t' ∧ SameCommandView s' t' ∧ s'.sched = l ∧ t'.sched = l' ∧ s'.rst = false := by
  have hbt : t.busy = true := by rw [State.busy, ← h.eng]; exact hb
  rw [Machine.step_engine (by simp [nextTurn, hs]) hb hr] at hstep
  have hpop : SameCommandView (popTurn s) (popTurn t) := by
    obtain ⟨v, rfl⟩ := h.exists_under
    exact ⟨rfl, rfl, rfl, rfl, rfl, rfl⟩
  obtain ⟨t', ht', hview⟩ := hpop.engineStep hstep
  obtain ⟨-, hrst, -, hsched, -⟩ := engineStep_outside hstep
  obtain ⟨-, -, -, hsched', -⟩ := engineStep_outside ht'
  refine ⟨t', ?_, hview, by rw [hsched, popTurn_sched, hs]; rfl, by rw [hsched', popTurn_sched, ht]; rfl,
    hrst.trans hr⟩
  rw [Machine.step_engine (by simp [nextTurn, ht]) hbt (h.rst ▸ hr), ht']

/-- A run of one step more begins with a step. -/
theorem step_of_runSteps_succ {s t : State} {n : Nat} (h : runSteps (n + 1) s = .next t) :
    ∃ u, step s = .next u ∧ runSteps n u = .next t := by
  unfold runSteps at h
  split at h
  · exact ⟨_, ‹_›, h⟩
  · cases h
  · cases h

/-- The engine alone against a schedule with as many engine turns, by induction on the schedule. -/
theorem SameCommandView.run {turns : List Turn} {s t s' : State} (hturns : ∀ x ∈ turns, x = .host ∨ x = .engine)
    (h : SameCommandView s t) (hr : s.rst = false)
    (hs : s.sched = List.replicate (turns.count .engine + 1) .engine) (ht : t.sched = turns ++ [.engine])
    (hbusy : ∀ m ≤ turns.count .engine, ∃ u, runSteps m s = .next u ∧ u.busy = true)
    (hrun : runSteps (turns.count .engine + 1) s = .next s') :
    ∃ t', runSteps (turns.length + 1) t = .next t' ∧ SameCommandView s' t' := by
  obtain ⟨u, hu, hb⟩ := hbusy 0 (Nat.zero_le _)
  cases hu
  induction turns generalizing s t with
  | nil =>
    obtain ⟨v, hv, hrun⟩ := step_of_runSteps_succ hrun
    cases hrun
    obtain ⟨t', ht', hview, -⟩ := h.step_engine hb hr hs ht hv
    exact ⟨t', (runSteps_succ ht' 0), hview⟩
  | cons x turns ih =>
    have hturns' : ∀ y ∈ turns, y = .host ∨ y = .engine := fun y hy => hturns y (List.mem_cons_of_mem x hy)
    rcases hturns x (List.mem_cons_self ..) with rfl | rfl
    · have hbt : (popTurn t).busy = true := by rw [popTurn_busy, State.busy, ← h.eng]; exact hb
      rw [List.count_cons_of_ne (by decide)] at hs hbusy hrun
      have hview : SameCommandView s (hostTurn (popTurn t)) :=
        (h.trans (sameCommandView_popTurn t)).trans (sameCommandView_hostTurn hbt)
      have hstep : step t = .next (hostTurn (popTurn t)) := step_host (by rw [nextTurn, ht]; rfl)
      rw [List.length_cons, runSteps_succ hstep]
      exact ih hturns' hview hr hs (by rw [hostTurn_sched, popTurn_sched, ht]; rfl) hbusy hrun hb
    · rw [List.count_cons_self] at hs hbusy hrun
      obtain ⟨v, hv, hrun⟩ := step_of_runSteps_succ hrun
      obtain ⟨t', ht', hview, hs', htsched, hr'⟩ := h.step_engine hb hr hs ht hv
      rw [List.length_cons, runSteps_succ ht']
      have hbusy' : ∀ m ≤ turns.count .engine, ∃ u, runSteps m v = .next u ∧ u.busy = true := fun m hm => by
        rw [← runSteps_succ hv]
        exact hbusy (m + 1) (by omega)
      obtain ⟨u, hu, hb'⟩ := hbusy' 0 (Nat.zero_le _)
      cases hu
      exact ih hturns' hview hr' hs' htsched hbusy' hrun hb'

/-- Settles O53: each host turn leaves the command's view, each engine turn moves both runs alike. -/
theorem interleavingDoesNotChangeTheOutcome : Obligations.InterleavingDoesNotChangeTheOutcome := by
  intro s t turns n hr hturns hn hbusy hrun
  subst hn
  exact SameCommandView.run (s := { s with sched := List.replicate _ .engine }) hturns
    ⟨rfl, rfl, rfl, rfl, rfl, rfl⟩ hr rfl rfl hbusy hrun

end Sys2Proof.Machine
end

section
/-! PROOFS. The registers as the host reads and writes them (spec 10_state.md R22 to R45). -/

namespace Sys2Proof.Machine

/-! The fields of the words a read gives. -/

/-- STATUS field by field (R27). -/
theorem statusWord_fields (s : State) :
    s.statusWord.getLsbD 0 = s.busy ∧ s.statusWord.getLsbD 1 = s.regs.done ∧
      s.statusWord.getLsbD 2 = s.regs.overrun ∧ s.statusWord.getLsbD 3 = false ∧
      s.statusWord.extractLsb' 4 4 = s.regs.err.code ∧ s.statusWord.extractLsb' 8 24 = 0 := by
  have hfields : ∀ (e : BitVec 4) (o d b : Bool),
      let w := 0#24 ++ e ++ 0#1 ++ BitVec.ofBool o ++ BitVec.ofBool d ++ BitVec.ofBool b
      w.getLsbD 0 = b ∧ w.getLsbD 1 = d ∧ w.getLsbD 2 = o ∧ w.getLsbD 3 = false ∧ w.extractLsb' 4 4 = e ∧
        w.extractLsb' 8 24 = 0 := by decide
  exact hfields s.regs.err.code s.regs.overrun s.regs.done s.busy

/-- CTRL field by field (R26). -/
theorem ctrlWord_fields (s : State) :
    s.ctrlWord.getLsbD 0 = s.regs.irqEn ∧ s.ctrlWord.extractLsb' 1 31 = 0 := by
  have hfields : ∀ b : Bool, (0#31 ++ BitVec.ofBool b).getLsbD 0 = b ∧
      (0#31 ++ BitVec.ofBool b).extractLsb' 1 31 = 0 := by decide
  exact hfields s.regs.irqEn

/-- ALPHA_INFO as a number (R25). -/
theorem alphaInfoWord_toNat (c : Config) :
    (alphaInfoWord c).toNat = maxCode c % 256 * 256 + codeWidth c % 16 := by
  have happ : (alphaInfoWord c).toNat =
      ((0 <<< 8 ||| (BitVec.ofNat 8 (maxCode c)).toNat) <<< 4 ||| 0) <<< 4 |||
        (BitVec.ofNat 4 (codeWidth c)).toNat := rfl
  rw [happ, ← Nat.shiftLeft_add_eq_or_of_lt (BitVec.isLt _)]
  simp [Nat.shiftLeft_eq]
  omega

theorem alphaInfoWord_reserved (c : Config) :
    (alphaInfoWord c).extractLsb' 4 4 = 0 ∧ (alphaInfoWord c).extractLsb' 16 16 = 0 := by
  constructor <;>
  · apply BitVec.eq_of_toNat_eq
    simp [BitVec.extractLsb'_toNat, alphaInfoWord_toNat, Nat.shiftRight_eq_div_pow]
    omega

theorem alphaInfoWord_fields {c : Config} (hok : c.Ok) :
    (alphaInfoWord c).toNat = maxCode c * 256 + codeWidth c ∧
      ((alphaInfoWord c).extractLsb' 0 4).toNat = codeWidth c ∧
      ((alphaInfoWord c).extractLsb' 8 8).toNat = maxCode c := by
  have hN := (maxCode_bounds hok).2
  have hK := codeWidth_le hok
  simp [BitVec.extractLsb'_toNat, alphaInfoWord_toNat, Nat.shiftRight_eq_div_pow]
  omega

/-- WIDTH and HEIGHT stand in bits 15:0 (R33, R34). -/
theorem setWidth_fields (v : BitVec 16) :
    (v.setWidth 32).extractLsb' 0 16 = v ∧ (v.setWidth 32).extractLsb' 16 16 = 0 := by
  constructor <;>
  · apply BitVec.eq_of_toNat_eq
    simp [BitVec.extractLsb'_toNat, Nat.shiftRight_eq_div_pow]
    omega

/-- What WIDTH and HEIGHT read after a write (R33, R34). -/
theorem setWidth_extract (v : Word) : (v.extractLsb' 0 16).setWidth 32 = v &&& 0x0000FFFF := by
  apply BitVec.eq_of_toNat_eq
  rw [BitVec.toNat_and, show (0x0000FFFF : Word).toNat = 2 ^ 16 - 1 from rfl, Nat.and_two_pow_sub_one_eq_mod]
  simp [BitVec.extractLsb'_toNat]
  omega

/-! The obligations about reads. -/

/-- After reset the registers read 0 (R22, R46), all but the two that hold constants (R24, R25). -/
theorem powerOn_readReg (cfg : Config) (pix msg : Memory) {r : RegName} (hid : r ≠ .id) (halpha : r ≠ .alphaInfo) :
    (State.powerOn cfg pix msg).respond (.read r.addr .word) = .ok 0 := by
  rw [State.respond_readReg rfl]
  cases r with
  | id => exact absurd rfl hid
  | alphaInfo => exact absurd rfl halpha
  | ctrl => exact congrArg Response.ok (by decide : 0#31 ++ BitVec.ofBool false = 0)
  | status =>
    exact congrArg Response.ok (by decide : 0#24 ++ 0#4 ++ 0#1 ++ BitVec.ofBool false ++ BitVec.ofBool false ++
      BitVec.ofBool false = 0)
  | _ => rfl

/-- Settles O13: each register's word, field by field. -/
theorem registerReadsShowTheirFields : Obligations.RegisterReadsShowTheirFields := by
  refine ⟨by decide, fun s hr hok => ?_⟩
  have hread : ∀ r : RegName, s.respond (.read r.addr .word) = .ok (s.readReg r) := State.respond_readReg hr
  obtain ⟨-, hK, hN⟩ := alphaInfoWord_fields hok
  obtain ⟨h4, h16⟩ := alphaInfoWord_reserved s.cfg
  exact ⟨hread .id, ⟨_, hread .alphaInfo, hK, h4, hN, h16⟩, ⟨_, hread .ctrl, ctrlWord_fields s⟩,
    ⟨_, hread .status, statusWord_fields s⟩, hread .cmd, ⟨_, hread .width, setWidth_fields s.regs.width⟩,
    ⟨_, hread .height, setWidth_fields s.regs.height⟩, hread .msgLen, hread .capacity, hread .result,
    hread .errIndex, hread .errValue, hread .seed⟩

/-- Settles O10: every register read is that of a block at its reset values. -/
theorem registersAfterReset : Obligations.RegistersAfterReset := by
  intro cfg pix msg hok s
  have hread : ∀ r : RegName, s.respond (.read r.addr .word) = .ok (s.readReg r) := State.respond_readReg rfl
  have hword : alphaInfoWord Config.reference = 0x00005F07 := by
    rw [alphaInfoWord, maxCode_reference, codeWidth_reference]
    rfl
  refine ⟨hread .id, ⟨_, hread .alphaInfo, (alphaInfoWord_fields hok).1⟩,
    fun r _ hid halpha => powerOn_readReg cfg pix msg hid halpha, rfl, rfl, rfl, rfl, ?_⟩
  rw [← hword]
  exact State.respond_readReg (s := State.reset) rfl .alphaInfo

/-! The obligations about writes. -/

/-- Settles O17: the write is `State.writeStatus`, and the read is the STATUS word, taken field by field. -/
theorem statusWriteClearsWrittenOnes : Obligations.StatusWriteClearsWrittenOnes := by
  refine ⟨fun cfg pix msg => powerOn_readReg cfg pix msg (r := .status) nofun nofun, fun s v hr => ?_⟩
  obtain ⟨hperform, hack⟩ := State.perform_writeReg hr .status v
  refine ⟨hack, hperform.trans ?_, _, State.respond_readReg hr .status, statusWord_fields s⟩
  have hclear : ∀ b c : Bool, (b && !c) = if c then false else b := by decide
  simp only [State.writeReg, State.writeStatus, hclear]

/-- Settles O18: the write is `State.writeCtrl`, BUSY or not, and the read after it is the CTRL word it leaves. -/
theorem ctrlWriteSetsIrqEnable : Obligations.CtrlWriteSetsIrqEnable := by
  refine ⟨fun cfg pix msg => powerOn_readReg cfg pix msg (r := .ctrl) nofun nofun, fun s => rfl,
    fun s v hr => ?_⟩
  obtain ⟨hperform, hack⟩ := State.perform_writeReg hr .ctrl v
  have ht : s.perform (.write 0x008 .word v) = s.writeCtrl v := hperform
  rw [ht]
  exact ⟨hack, rfl, ⟨_, State.respond_readReg (s := s.writeCtrl v) hr .ctrl, ctrlWord_fields (s.writeCtrl v)⟩, rfl⟩

/-- Settles O19: by BUSY, the write is `State.accept` or `State.dropWrite`. -/
theorem cmdWriteAcceptsOrDrops : Obligations.CmdWriteAcceptsOrDrops := by
  intro s w hr
  have ht : State.hostAccess (.write 0x010 .word w) s = { s.writeReg .cmd w with resp := some .ack } :=
    State.hostAccess_writeReg hr .cmd w
  rw [ht]
  refine ⟨rfl, fun hb => ?_, fun hb => ?_⟩
  · have hw : s.writeReg .cmd w = s.accept w := by simp only [State.writeReg, hb]; rfl
    rw [hw]
    exact ⟨rfl, rfl, State.respond_readReg (s := { s.accept w with resp := some .ack }) hr .cmd⟩
  · have hw : s.writeReg .cmd w = s.dropWrite := by simp only [State.writeReg, hb, if_true]
    rw [hw]
    exact ⟨rfl, State.respond_readReg (s := { s.dropWrite with resp := some .ack }) hr .cmd⟩

/-- Settles O21: with BUSY = 0 each write stores its operand, and the read gives back what is kept of it. -/
theorem idleOperandWritesTakeEffect : Obligations.IdleOperandWritesTakeEffect := by
  intro s v hr hs
  have hb : s.busy = false := (State.busy_eq_false s).mpr hs
  have hw : State.hostAccess (.write 0x014 .word v) s =
      { s with regs := { s.regs with width := v.extractLsb' 0 16 }, resp := some .ack } := by
    refine (State.hostAccess_writeReg hr .width v).trans ?_
    simp [State.writeReg, hb]
  have hh : State.hostAccess (.write 0x018 .word v) s =
      { s with regs := { s.regs with height := v.extractLsb' 0 16 }, resp := some .ack } := by
    refine (State.hostAccess_writeReg hr .height v).trans ?_
    simp [State.writeReg, hb]
  have hl : State.hostAccess (.write 0x01C .word v) s =
      { s with regs := { s.regs with msgLen := v }, resp := some .ack } := by
    refine (State.hostAccess_writeReg hr .msgLen v).trans ?_
    simp [State.writeReg, hb]
  refine ⟨hw, hh, hl, ?_, ?_, ?_⟩
  · rw [hw, ← setWidth_extract]
    exact State.respond_readReg (by exact hr) .width
  · rw [hh, ← setWidth_extract]
    exact State.respond_readReg (by exact hr) .height
  · rw [hl]
    exact State.respond_readReg (by exact hr) .msgLen

/-- Settles O22: a read-only register's write is `s` itself, and no state has a reserved bit that reads 1. -/
theorem readOnlyRegistersIgnoreWrites : Obligations.ReadOnlyRegistersIgnoreWrites := by
  intro s v hr
  have hro : ∀ r : RegName, s.writeReg r v = s →
      s.respond (.write r.addr .word v) = .ack ∧ s.perform (.write r.addr .word v) = s := fun r h =>
    ⟨(State.perform_writeReg hr r v).2, (State.perform_writeReg hr r v).1.trans h⟩
  refine ⟨fun a ha => ?_, fun x _ => ?_⟩
  · simp only [List.mem_cons, List.not_mem_nil, or_false] at ha
    rcases ha with rfl | rfl | rfl | rfl | rfl | rfl | rfl
    · exact hro .id rfl
    · exact hro .alphaInfo rfl
    · exact hro .capacity rfl
    · exact hro .result rfl
    · exact hro .errIndex rfl
    · exact hro .errValue rfl
    · exact hro .seed rfl
  · obtain ⟨h4, h16⟩ := alphaInfoWord_reserved x.cfg
    obtain ⟨-, -, -, h3, -, h8⟩ := statusWord_fields x
    exact ⟨h4, h16, (ctrlWord_fields x).2, h3, h8, (setWidth_fields _).2, (setWidth_fields _).2⟩

end Sys2Proof.Machine
end

section
/-! PROOFS. What a step is (spec 10_state.md R41, 20_memory.md R70, 30_encoding.md R103). -/

namespace Sys2Proof.Machine

/-- The response to an access does not depend on the outside. -/
theorem respond_outside (s : State) (a : Access) (h : List HostOp) (l : List Turn) :
    ({ s with host := h, sched := l } : State).respond a = s.respond a := by
  cases a <;> rfl

/-- WAIT is made again while BUSY reads 1 (R103). -/
theorem waitAgain_eq {s : State} (hr : s.rst = false) : waitAgain s = s.busy := by
  simp only [waitAgain, State.respond_readReg hr .status, Response.data, Option.any_some]
  exact (statusWord_fields s).1

/-- The step after a word is placed is the engine's, with the word accepted (R32). -/
theorem step_withFetchWord {s : State} {w : Word} {i : Instr} (h : decode w = .ok i) :
    step (s.withFetchWord 32 w.toNat) = exec i { s.accept w with rst := false } := by
  have hw : BitVec.ofNat 32 (w.toNat % 2 ^ 32) = w := by
    rw [Nat.mod_eq_of_lt w.isLt, BitVec.ofNat_toNat, BitVec.setWidth_eq]
  rw [State.withFetchWord, hw]
  exact (step_engine rfl rfl rfl).trans (engineStep_of_ok h)

/-- Settles O8: the step by the turn taken. -/
theorem stepRunsTheDecodedCommand : Obligations.StepRunsTheDecodedCommand := by
  refine ⟨fun s i hn hb hr hc => ?_, fun s hn => ?_, fun s hn hs => ?_, fun s a rest hn hh => ?_,
    fun s rest hn hh hr => ?_, fun s w i h => step_withFetchWord h⟩
  · rw [step_engine hn hb hr]
    exact engineStep_of_ok (s := popTurn s) hc
  · simp only [step, agentsStep, hn, takeTurn, popTurn]
  · exact step_engine_idle hn (.inl ((State.busy_eq_false s).mpr hs))
  · rw [step_host hn, hostTurn, popTurn_host, hh]
    exact congrArg (fun r => Host.Outcome.next { State.perform _ a with resp := some r }) (respond_outside s a _ _)
  · have hwait : waitAgain (popTurn s) = s.busy := waitAgain_eq (s := popTurn s) hr
    have hresp : s.respond (.read RegName.status.addr .word) = .ok s.statusWord := State.respond_readReg hr .status
    rw [step_host hn, hostTurn, popTurn_host, hh]
    dsimp only
    rw [hwait, State.hostAccess_read, ← hresp]
    rfl

end Sys2Proof.Machine
end

section
/-! PROOFS. The host's accesses to the memories and the bus errors (spec 20_memory.md R62 to R78, 70_reset_and_hazards.md
R280). -/

namespace Sys2Proof.Machine

/-! A granted access. -/

section Granted
variable {s : State} {addr : BitVec 23} {n : Size} {g : Target}

theorem State.respond_read_of_grant (h : s.grant addr n = some g) :
    s.respond (.read addr n) = .ok (s.readTarget g) := by
  simp only [State.respond, h]

theorem State.respond_write_of_grant (h : s.grant addr n = some g) (v : Word) :
    s.respond (.write addr n v) = .ack := by
  simp only [State.respond, h]

theorem State.perform_write_of_grant (h : s.grant addr n = some g) (v : Word) :
    s.perform (.write addr n v) = s.writeTarget v g := by
  simp only [State.perform, h]

theorem State.hostAccess_write_of_grant (h : s.grant addr n = some g) (v : Word) :
    State.hostAccess (.write addr n v) s = { s.writeTarget v g with resp := some .ack } := by
  rw [State.hostAccess, State.perform_write_of_grant h, State.respond_write_of_grant h]

end Granted

/-! Bus errors. -/

/-- An access answered ERROR is not performed (R72). -/
theorem State.perform_of_error {s : State} {a : Access} (h : s.respond a = .error) : s.perform a = s := by
  cases a with
  | read addr n => rfl
  | write addr n v =>
    cases hg : s.grant addr n with
    | none => simp only [State.perform, hg]
    | some g =>
      rw [State.respond_write_of_grant hg] at h
      cases h

/-- Settles O14: an access is answered ERROR where nothing is granted, and the grants are those of the address map. -/
theorem busErrorsAreExactlyTheIllegalAccesses : Obligations.BusErrorsAreExactlyTheIllegalAccesses := by
  intro s hok hr
  refine ⟨fun addr n => ?_, fun a ha => ⟨State.perform_of_error ha, by rw [ha]; rfl⟩, fun _ _ => rfl⟩
  have hlegal := not_congr (State.grant_isSome_iff hok hr addr n)
  obtain ⟨hread, hwrite⟩ := State.respond_eq_error_iff s addr n
  exact ⟨hread.trans hlegal, fun v => (hwrite v).trans hlegal⟩

/-- From 0x1000 on no address is in the register region (R69). -/
theorem regionOf_ne_regs {c : Config} {addr : Nat} (h : ¬ addr < 0x1000) (off : Nat) : regionOf c addr ≠ .regs off := by
  unfold regionOf
  rw [if_neg h]
  split_ifs <;> nofun

/-- The registers stand below 0x1000 (R69). -/
theorem lt_of_targetOf_eq_reg {c : Config} {addr : Nat} {n : Size} {r : RegName}
    (h : targetOf c addr n = some (.reg r)) : addr < 0x1000 := by
  by_contra hge
  cases hregion : regionOf c addr with
  | regs off => exact regionOf_ne_regs hge off hregion
  | msg i => cases n <;> simp [targetOf, hregion] at h
  | pix off => cases n <;> simp [targetOf, hregion] at h
  | unmapped => simp [targetOf, hregion] at h

/-- While BUSY = 1 nothing is granted above the registers (R72 c, R77). -/
theorem State.grant_eq_none_of_busy {s : State} (hb : s.busy = true) {addr : BitVec 23} (ha : 0x1000 ≤ addr.toNat)
    (n : Size) : s.grant addr n = none := by
  cases hg : s.grant addr n with
  | none => rfl
  | some g =>
    obtain ⟨r, rfl⟩ := State.grant_of_busy hb hg
    exact absurd (lt_of_targetOf_eq_reg (Option.filter_eq_some_iff.mp hg).1) (by omega)

/-- Settles O52: an access and a host turn keep the command's view, and above the registers nothing is granted. -/
theorem busyHostCannotReachTheCommand : Obligations.BusyHostCannotReachTheCommand := by
  refine fun s a hb => ⟨sameCommandView_hostAccess hb a, sameCommandView_hostTurn hb, fun addr n ha => ?_⟩
  rw [State.respond_read, State.grant_eq_none_of_busy hb ha]

/-! Words of MSGMEM. -/

/-- Settles O15: the access reaches the word `4q`, which is read and written as little-endian bytes. -/
theorem msgWordsAreLittleEndian : Obligations.MsgWordsAreLittleEndian := by
  intro s q hok hwf hr hs hq
  have hg := State.grant_msgWord hok hr hs hq
  refine ⟨State.respond_read_of_grant hg, fun v => ?_⟩
  intro t
  have ht : t = { s with msg := Memory.writeWord s.msg (4 * q) v } := State.perform_write_of_grant hg v
  rw [ht]
  refine ⟨State.respond_write_of_grant hg v, fun j hj => ?_, fun x hx => ?_, rfl, rfl, rfl⟩
  · rw [State.msgRead, Memory.read_writeWord hwf, if_pos (by omega), Nat.add_sub_cancel_left, byteOf]
  · rw [State.msgRead, Memory.read_writeWord hwf, if_neg (by omega), State.msgRead]

/-! What the host stored. -/

/-- A pixel other than the one written reads as before (R62). -/
theorem State.pixRead_pixWrite_other {s : State} (h : Memory.wf s.pix) {p q : Nat} (hq : q ≠ p) (v : Word) :
    (s.pixWrite p v).pixRead q = s.pixRead q :=
  Memory.readWord_writeWord_other h v (by omega)

/-- A pixel of a buffer that fits is a word of PIXMEM (R65, R152). -/
theorem pixIndex_lt {w h x y n : Nat} (hx : x < w) (hy : y < h) (hn : w * h ≤ n) : pixIndex w x y < n :=
  calc y * w + x < y * w + w := by omega
    _ = (y + 1) * w := (Nat.succ_mul y w).symm
    _ ≤ h * w := Nat.mul_le_mul_right w hy
    _ ≤ n := by rwa [Nat.mul_comm]

section Stored
variable {s : State} (hok : s.cfg.Ok) (hr : s.rst = false) (hs : s.Idle)
include hok hr hs

/-- A byte that the host stores in MSGMEM reads back, and nothing else changes (R63, R69). -/
theorem msgByte_readBack (hwf : Memory.wf s.msg) {i : Nat} (hi : i < s.cfg.msgBytesMax) (v : Word) :
    let addr := BitVec.ofNat 23 (msgBase + i)
    let t := State.hostAccess (.write addr .byte v) s
    t.resp = some .ack ∧ t.respond (.read addr .byte) = .ok ((byteOf v 0).setWidth 32) ∧
      (∀ x, x ≠ i → t.msgRead x = s.msgRead x) ∧ t.pix = s.pix ∧ t.regs = s.regs ∧ t.eng = s.eng := by
  intro addr t
  have ht : t = { s.msgWrite i (byteOf v 0) with resp := some .ack } :=
    State.hostAccess_write_of_grant (State.grant_msgByte hok hr hs hi) v
  rw [ht]
  refine ⟨rfl, ?_, fun x hx => Memory.read_write_other s.msg _ hx, rfl, rfl, rfl⟩
  rw [State.respond_read_of_grant (State.grant_msgByte (by exact hok) (by exact hr) (by exact hs) (by exact hi))]
  exact congrArg (fun b : Byte => Response.ok (b.setWidth 32)) (Memory.read_write_same hwf i _)

/-- A word that the host stores in PIXMEM reads back, and nothing else changes (R62, R69). -/
theorem pixWord_readBack (hwf : Memory.wf s.pix) {p : Nat} (hp : p < s.cfg.pixWordsMax) (v : Word) :
    let addr := BitVec.ofNat 23 (pixBase + 4 * p)
    let t := State.hostAccess (.write addr .word v) s
    t.resp = some .ack ∧ t.respond (.read addr .word) = .ok v ∧ t.pixRead p = v ∧
      (∀ q, q ≠ p → t.pixRead q = s.pixRead q) ∧ t.msg = s.msg ∧ t.regs = s.regs ∧ t.eng = s.eng := by
  intro addr t
  have ht : t = { s.pixWrite p v with resp := some .ack } :=
    State.hostAccess_write_of_grant (State.grant_pixWord hok hr hs hp) v
  rw [ht]
  have hsame : (s.pixWrite p v).pixRead p = v := State.pixRead_pixWrite_same hwf p v
  refine ⟨rfl, ?_, hsame, fun q hq => State.pixRead_pixWrite_other hwf hq v, rfl, rfl, rfl⟩
  rw [State.respond_read_of_grant (State.grant_pixWord (by exact hok) (by exact hr) (by exact hs) (by exact hp))]
  exact congrArg Response.ok hsame

/-- The accessors of a pixel of a buffer that fits are the accesses of its word (R65). -/
theorem accessors_eq_wordAccesses (hwf : Memory.wf s.pix) {x y : Nat} (hx : x < s.W) (hy : y < s.H)
    (hfits : s.W * s.H ≤ s.cfg.pixWordsMax) :
    let addr := BitVec.ofNat 23 (pixBase + 4 * pixIndex s.W x y)
    s.respond (.read addr .word) = .ok (s.getChannelValue x y) ∧
      ∀ v, s.perform (.write addr .word v) = s.setChannelValue x y v ∧
        (s.setChannelValue x y v).getChannelValue x y = v := by
  have hg := State.grant_pixWord hok hr hs (pixIndex_lt hx hy hfits)
  exact ⟨State.respond_read_of_grant hg, fun v =>
    ⟨State.perform_write_of_grant hg v, State.getChannelValue_setChannelValue hwf x y v⟩⟩

end Stored

/-- Settles O16: a granted store followed by a granted read of the same place. -/
theorem hostStoresReadBack : Obligations.HostStoresReadBack := fun _ hok hmsg hpix hr hs =>
  ⟨fun _ v hi => msgByte_readBack hok hr hs hmsg hi v, fun _ v hp => pixWord_readBack hok hr hs hpix hp v,
    fun _ _ hx hy hfits => accessors_eq_wordAccesses hok hr hs hpix hx hy hfits⟩

end Sys2Proof.Machine
end

section
/-! PROOFS. The frame of DECODE, and which command writes which memory (spec 41_lsb_engine.md R83, R180 to R187). -/

namespace Sys2Proof.Machine

/-! What one step of DECODE can do, said once. -/

/-- The steps of DECODE, one constructor per outcome of a phase (R180 to R185). -/
inductive DecodeStep (trav : Trav) (chs : List Channel) (s : State) : State → Prop
  | checked : s.eng.state = .check →
      DecodeStep trav chs s ((setCap trav (captureOperands chs s)).toPhase .travinit)
  | badBuffer : s.eng.state = .check → DecodeStep trav chs s ((captureOperands chs s).invalidBuffer true)
  | started : s.eng.state = .travinit → DecodeStep trav chs s (decTravinit trav s)
  | exhausted (idx : Word) : s.eng.state = .scan →
      DecodeStep trav chs s (decFinish trav .noPayloadFound idx 0 s)
  | skipped : s.eng.state = .scan → DecodeStep trav chs s { s with eng := travAdvance trav s.eng }
  | shifted (b : Bool) : s.eng.state = .scan →
      DecodeStep trav chs s (decShift b { s with eng := travAdvance trav s.eng })
  | ended (err : ErrCode) (idx val : Word) : s.eng.state = .decodeCode →
      DecodeStep trav chs s (decFinish trav err idx val { s with eng := { s.eng with acc := 0, nb := 0 } })
  | stored (sym : Byte) : s.eng.state = .decodeCode → symbolOf s.cfg s.eng.acc.toNat = some sym →
      s.eng.i < s.cfg.msgBytesMax →
      DecodeStep trav chs s { s with
        msg := Memory.write s.msg s.eng.i sym
        eng := { s.eng with acc := 0, nb := 0, i := s.eng.i + 1, state := .scan } }

theorem decodeStep_of_execDecode {trav : Trav} {chs : List Channel} {s t : State}
    (h : execDecode trav chs s = .next t) : DecodeStep trav chs s t := by
  rcases execDecode_next h with ⟨hs, ⟨-, rfl⟩ | ⟨-, rfl⟩⟩ | ⟨hs, rfl⟩ | ⟨hs, hscan⟩ | ⟨hs, hcode⟩
  · exact .checked hs
  · exact .badBuffer hs
  · exact .started hs
  · rcases decScan_next hscan with ⟨-, rfl⟩ | ⟨-, ⟨-, rfl⟩ | ⟨_, -, -, rfl⟩⟩
    · exact .exhausted _ hs
    · exact .skipped hs
    · exact .shifted _ hs
  · rcases decCode_next hcode with ⟨err, idx, val, rfl, -⟩ | ⟨sym, -, hsym, hi, rfl⟩
    · exact .ended err idx val hs
    · exact .stored sym hs hsym hi

section DecodeStep
variable {trav : Trav} {chs : List Channel} {s t : State}

/-- No step writes PIXMEM or CMD's latched word, nor touches the parameters and the outside world (R83). -/
theorem DecodeStep.keeps_context (h : DecodeStep trav chs s t) :
    t.pix = s.pix ∧ t.eng.cmd = s.eng.cmd ∧ t.cfg = s.cfg ∧ t.rst = s.rst ∧ t.host = s.host ∧ t.sched = s.sched ∧
      t.resp = s.resp := by
  cases h with
  | started => cases trav <;> simp [scatInit]
  | skipped => rw [travAdvance_eq]; simp
  | shifted => rw [travAdvance_eq]; simp
  | _ => simp

/-- No step writes the host's operand and control registers but MSG_LEN (R35, R83). -/
theorem DecodeStep.keeps_operands (h : DecodeStep trav chs s t) :
    t.regs.cmd = s.regs.cmd ∧ t.regs.width = s.regs.width ∧ t.regs.height = s.regs.height ∧
      t.regs.irqEn = s.regs.irqEn ∧ t.regs.overrun = s.regs.overrun := by
  cases h <;> simp

/-- While the command runs no register is written (R181). -/
theorem DecodeStep.regs_eq (h : DecodeStep trav chs s t) (ht : ¬ t.Idle) : t.regs = s.regs := by
  cases h with
  | badBuffer => exact absurd (State.complete_idle ..) ht
  | exhausted => exact absurd (State.complete_idle ..) ht
  | ended => exact absurd (State.complete_idle ..) ht
  | _ => simp

/-- After CHECK the captured operands stay (R150). -/
theorem DecodeStep.keeps_captured (h : DecodeStep trav chs s t) (hs : s.eng.state ≠ .check) :
    t.eng.w = s.eng.w ∧ t.eng.h = s.eng.h ∧ t.eng.len = s.eng.len ∧ t.eng.k = s.eng.k ∧ t.eng.chs = s.eng.chs ∧
      t.eng.nc = s.eng.nc ∧ t.eng.cap = s.eng.cap ∧ t.eng.need = s.eng.need := by
  cases h with
  | checked hc => exact absurd hc hs
  | badBuffer hc => exact absurd hc hs
  | started => cases trav <;> simp [scatInit]
  | skipped => rw [travAdvance_eq]; simp
  | shifted => rw [travAdvance_eq]; simp
  | _ => simp

/-- SCAN and DECODE_CODE keep the generator's parameters (R183, R205). -/
theorem DecodeStep.keeps_generator (h : DecodeStep trav chs s t)
    (hs : s.eng.state = .scan ∨ s.eng.state = .decodeCode) :
    t.eng.seed = s.eng.seed ∧ t.eng.M = s.eng.M ∧ t.eng.m = s.eng.m ∧ t.eng.a = s.eng.a ∧ t.eng.c = s.eng.c := by
  cases h with
  | started hi => simp [hi] at hs
  | skipped => rw [travAdvance_eq]; simp
  | shifted => rw [travAdvance_eq]; simp
  | _ => simp

/-! What the phases keep in MSGMEM. -/

/-- A step outside DECODE_CODE, and one that completes, stores nothing (R184). -/
theorem DecodeStep.msg_eq (h : DecodeStep trav chs s t) (hs : s.eng.state ≠ .decodeCode ∨ t.Idle) :
    t.msg = s.msg := by
  cases h with
  | stored sym hc => simp [hc] at hs
  | _ => simp

/-- A step stores in byte `E.i` alone (R184). -/
theorem DecodeStep.msg_other (h : DecodeStep trav chs s t) {a : Nat} (ha : a ≠ s.eng.i) :
    t.msgRead a = s.msgRead a := by
  cases h with
  | stored sym => exact Memory.read_write_other s.msg sym ha
  | _ => simp [State.msgRead]

/-- A DECODE_CODE that goes on with the scan has stored the symbol of `E.acc` (R184). -/
theorem DecodeStep.msg_symbol (h : DecodeStep trav chs s t) (hwf : Memory.wf s.msg) (hs : s.eng.state = .decodeCode)
    (ht : t.eng.state = .scan) :
    symbolOf s.cfg s.eng.acc.toNat = some (t.msgRead s.eng.i) ∧ s.eng.i < s.cfg.msgBytesMax := by
  cases h with
  | stored sym hc hsym hi => exact ⟨hsym.trans (congrArg some (Memory.read_write_same hwf _ sym).symm), hi⟩
  | ended => simp at ht
  | _ =>
    rename_i hother
    cases hs.symm.trans hother

end DecodeStep

/-- Settles O42: every step of DECODE is a `DecodeStep`, and what it keeps is read off case by case. -/
theorem decodeStoresOneMessageByte : Obligations.DecodeStoresOneMessageByte := by
  intro s t trav chs hwf hexec
  have hstep : DecodeStep trav chs s t := decodeStep_of_execDecode hexec
  obtain ⟨hpix, hcmd, houtside⟩ := hstep.keeps_context
  obtain ⟨h1, h2, h3, h4, h5⟩ := hstep.keeps_operands
  exact ⟨fun a => by rw [hpix], fun _ a ha => hstep.msg_other ha, hstep.msg_symbol hwf,
    fun hs a => by rw [hstep.msg_eq hs], h1, h2, h3, h4, h5, hcmd, hstep.regs_eq, hstep.keeps_captured,
    hstep.keeps_generator, houtside⟩

/-! Every command. -/

/-- A step of a command: one of ENCODE, one of DECODE, or one that writes no memory and of the registers those of its
outcome alone (R83). -/
theorem exec_next {i : Instr} {s t : State} (h : exec i s = .next t) :
    (∃ trav embed chs, i = .encode trav embed chs ∧ EncodeStep trav embed chs s t) ∨
    (∃ trav chs, i = .decode trav chs ∧ DecodeStep trav chs s t) ∨
    (t.pix = s.pix ∧ t.msg = s.msg ∧ t.cfg = s.cfg ∧ WritesOnlyOutcome s.regs t) := by
  cases i with
  | encode trav embed chs => exact .inl ⟨_, _, _, rfl, encodeStep_of_execEncode h⟩
  | decode trav chs => exact .inr (.inl ⟨_, _, rfl, decodeStep_of_execDecode h⟩)
  | nop =>
    obtain ⟨-, rfl⟩ := execNop_next h
    exact .inr (.inr ⟨rfl, rfl, rfl, .inr ⟨rfl, rfl⟩⟩)
  | capacity trav chs =>
    obtain ⟨-, ⟨-, rfl⟩ | ⟨-, rfl⟩⟩ := execCapacity_next h
    · exact .inr (.inr (by simp [WritesOnlyOutcome]))
    · exact .inr (.inr ⟨rfl, rfl, rfl, invalidBuffer_writesOnlyOutcome (captureOperands chs s)⟩)
  | encSym sym =>
    obtain ⟨-, ⟨_, -, rfl⟩ | ⟨-, rfl⟩⟩ := execEncSym_next h <;> exact .inr (.inr ⟨rfl, rfl, rfl, .inr ⟨rfl, rfl⟩⟩)
  | decSym code =>
    obtain ⟨-, ⟨_, -, rfl⟩ | ⟨-, rfl⟩⟩ := execDecSym_next h <;> exact .inr (.inr ⟨rfl, rfl, rfl, .inr ⟨rfl, rfl⟩⟩)

/-- Settles O46: ENCODE and DECODE by their frames, the other commands write no memory. -/
theorem onlyEmbedWritesPixelsOnlyDecodeWritesMessages :
    Obligations.OnlyEmbedWritesPixelsOnlyDecodeWritesMessages := by
  intro i s t h
  rcases exec_next h with ⟨trav, embed, chs, rfl, he⟩ | ⟨trav, chs, rfl, hd⟩ | ⟨hpix, hmsg, hcfg, hregs⟩
  · obtain ⟨hmsg, -, hcfg, -⟩ := he.keeps_context
    obtain ⟨hcmd, hw, hh, hlen, hirq, hover⟩ := he.writesOnlyOutcome.keeps_operands
    have hembed (hne : t.pix ≠ s.pix) : s.eng.state = .embed := by_contra fun hs => hne (he.pix_eq (.inl hs))
    exact ⟨fun hne => ⟨hembed hne, _, _, _, rfl⟩, (absurd hmsg ·), (absurd hlen ·), hirq, hover, hcmd, hw, hh, hcfg⟩
  · obtain ⟨hpix, -, hcfg, -⟩ := hd.keeps_context
    obtain ⟨hcmd, hw, hh, hirq, hover⟩ := hd.keeps_operands
    have hcode (hne : t.msg ≠ s.msg) : s.eng.state = .decodeCode := by_contra fun hs => hne (hd.msg_eq (.inl hs))
    exact ⟨(absurd hpix ·), fun hne => ⟨hcode hne, _, _, rfl⟩, fun _ => ⟨_, _, rfl⟩, hirq, hover, hcmd, hw, hh, hcfg⟩
  · obtain ⟨hcmd, hw, hh, hlen, hirq, hover⟩ := hregs.keeps_operands
    exact ⟨(absurd hpix ·), (absurd hmsg ·), (absurd hlen ·), hirq, hover, hcmd, hw, hh, hcfg⟩

end Sys2Proof.Machine
end

section
/-! PROOFS. The decoder and the encoder are inverse, and which words are illegal and why (spec 30_encoding.md R91 to R101,
95_test_vectors.md 2.1). -/

namespace Sys2Proof

/-! Legal words. -/

theorem legal_iff (w : Word) : legal w = true ↔ (opField w).toNat ≤ 5 ∧ w &&& ~~~ allowedMask (opField w) = 0 := by
  simp [legal]

/-- The opcodes of the opcode table (R92). -/
theorem op_cases {op : BitVec 4} (h : op.toNat ≤ 5) : op = 0 ∨ op = 1 ∨ op = 2 ∨ op = 3 ∨ op = 4 ∨ op = 5 := by
  revert op; decide

theorem encodeLegal_statement (i : Instr) : Laws.EncodeLegal.Statement i := by
  cases i with
  | nop => exact Laws.EncodeLegal.nop
  | capacity trav chs => exact Laws.EncodeLegal.capacity trav chs
  | encode trav embed chs => exact Laws.EncodeLegal.encode trav embed chs
  | decode trav chs => exact Laws.EncodeLegal.decode trav chs
  | encSym sym => exact Laws.EncodeLegal.encSym sym
  | decSym code => exact Laws.EncodeLegal.decSym code

/-- The encoder makes legal words only (R97). -/
theorem legal_encode (i : Instr) : legal (encode i) = true := (encodeLegal_statement i).1

/-- The word of a command matches the row of its mnemonic (R101). -/
theorem encode_matches_row (i : Instr) :
    ∃ r ∈ opcodeTable, r.mnemonic = i.mnemonic ∧ encode i &&& r.mask = r.value := by
  obtain ⟨r, hr, hname, h⟩ := (encodeLegal_statement i).2
  exact ⟨r, hr, hname, eq_of_beq h⟩

/-! The decoder by OP (R98). -/

section DecodeByOp

variable {w : Word} (hl : legal w = true)
include hl

theorem decode_of_op_nop (hop : opField w = 0) : decode w = .ok .nop := by
  simp [decode, hl, hop]

theorem decode_of_op_capacity (hop : opField w = 1) :
    decode w = .ok (.capacity (travField w) (chlist (chmaskField w))) := by
  simp [decode, hl, hop]

theorem decode_of_op_encode (hop : opField w = 2) :
    decode w = .ok (.encode (travField w) (embedField w) (chlist (chmaskField w))) := by
  simp [decode, hl, hop]

theorem decode_of_op_decode (hop : opField w = 3) :
    decode w = .ok (.decode (travField w) (chlist (chmaskField w))) := by
  simp [decode, hl, hop]

theorem decode_of_op_encSym (hop : opField w = 4) : decode w = .ok (.encSym (opndField w)) := by
  simp [decode, hl, hop]

theorem decode_of_op_decSym (hop : opField w = 5) : decode w = .ok (.decSym (opndField w)) := by
  simp [decode, hl, hop]

end DecodeByOp

theorem decode_of_illegal {w : Word} (hl : legal w = false) : decode w = .error (rejectName w) := by
  simp [decode, hl]

/-- What a legal word decodes to, one case for each row of the opcode table (R92, R98). -/
theorem decode_of_legal {w : Word} (hl : legal w = true) :
    (opField w = 0 ∧ decode w = .ok .nop) ∨
    (opField w = 1 ∧ decode w = .ok (.capacity (travField w) (chlist (chmaskField w)))) ∨
    (opField w = 2 ∧ decode w = .ok (.encode (travField w) (embedField w) (chlist (chmaskField w)))) ∨
    (opField w = 3 ∧ decode w = .ok (.decode (travField w) (chlist (chmaskField w)))) ∨
    (opField w = 4 ∧ decode w = .ok (.encSym (opndField w))) ∨
    (opField w = 5 ∧ decode w = .ok (.decSym (opndField w))) := by
  rcases op_cases ((legal_iff w).mp hl).1 with h | h | h | h | h | h
  · exact .inl ⟨h, decode_of_op_nop hl h⟩
  · exact .inr (.inl ⟨h, decode_of_op_capacity hl h⟩)
  · exact .inr (.inr (.inl ⟨h, decode_of_op_encode hl h⟩))
  · exact .inr (.inr (.inr (.inl ⟨h, decode_of_op_decode hl h⟩)))
  · exact .inr (.inr (.inr (.inr (.inl ⟨h, decode_of_op_encSym hl h⟩))))
  · exact .inr (.inr (.inr (.inr (.inr ⟨h, decode_of_op_decSym hl h⟩))))

/-- A word decodes to a command exactly when it is legal (R98). -/
theorem legal_iff_exists_decode (w : Word) : legal w = true ↔ ∃ i, decode w = .ok i := by
  refine ⟨fun hl => ?_, fun ⟨i, hi⟩ => ?_⟩
  · rcases decode_of_legal hl with ⟨-, h⟩ | ⟨-, h⟩ | ⟨-, h⟩ | ⟨-, h⟩ | ⟨-, h⟩ | ⟨-, h⟩ <;> exact ⟨_, h⟩
  · by_contra hl
    rw [decode_of_illegal (Bool.eq_false_iff.mpr hl)] at hi
    cases hi

/-- Settles O1: each field of the packed word is the operand it was packed from. -/
theorem encodedCommandDecodesBack : Obligations.EncodedCommandDecodesBack := by
  intro i hi
  have hl := legal_encode i
  cases i with
  | nop => exact decode_of_op_nop hl (opField_pack ..)
  | capacity trav chs =>
    rw [decode_of_op_capacity hl (opField_pack ..), encode, travField_pack, chmaskField_pack,
      chlist_chmaskOf (chs := chs) hi]
  | encode trav embed chs =>
    rw [decode_of_op_encode hl (opField_pack ..), encode, travField_pack, embedField_pack, chmaskField_pack,
      chlist_chmaskOf (chs := chs) hi]
  | decode trav chs =>
    rw [decode_of_op_decode hl (opField_pack ..), encode, travField_pack, chmaskField_pack,
      chlist_chmaskOf (chs := chs) hi]
  | encSym sym => rw [decode_of_op_encSym hl (opField_pack ..), encode, opndField_pack]
  | decSym code => rw [decode_of_op_decSym hl (opField_pack ..), encode, opndField_pack]

/-! The encoder gives a decoded word back. -/

theorem chmaskOf_chlist (mask : BitVec 4) : chmaskOf (chlist mask) = mask := by
  revert mask; decide

theorem travField_bit (w : Word) : (travField w).bit = w.extractLsb' 4 1 := by
  ext i hi
  obtain rfl : i = 0 := by omega
  rw [BitVec.getElem_extractLsb', travField]
  cases w.getLsbD 4 <;> simp [Trav.bit]

theorem embedField_bit (w : Word) : (embedField w).bit = w.extractLsb' 5 1 := by
  ext i hi
  obtain rfl : i = 0 := by omega
  rw [BitVec.getElem_extractLsb', embedField]
  cases w.getLsbD 5 <;> simp [Embed.bit]

/-- A field is 0 when every bit of it stands in a mask that has no bit in common with the word. -/
theorem extractLsb'_eq_zero_of_and {w m : Word} (h : w &&& m = 0) (start len : Nat)
    (hm : m.extractLsb' start len = BitVec.allOnes len) : w.extractLsb' start len = 0 := by
  rw [← BitVec.and_allOnes (x := w.extractLsb' start len), ← hm, ← BitVec.extractLsb'_and, h]
  exact BitVec.extractLsb'_zero

section UnusedField

variable {w m : Word} (h : w &&& m = 0)
include h

theorem travField_bit_eq_zero (hm : m.extractLsb' 4 1 = BitVec.allOnes 1) : (travField w).bit = 0 :=
  (travField_bit w).trans (extractLsb'_eq_zero_of_and h 4 1 hm)

theorem embedField_bit_eq_zero (hm : m.extractLsb' 5 1 = BitVec.allOnes 1) : (embedField w).bit = 0 :=
  (embedField_bit w).trans (extractLsb'_eq_zero_of_and h 5 1 hm)

theorem chmaskField_eq_zero (hm : m.extractLsb' 8 4 = BitVec.allOnes 4) : chmaskField w = 0 :=
  extractLsb'_eq_zero_of_and h 8 4 hm

theorem opndField_eq_zero (hm : m.extractLsb' 16 8 = BitVec.allOnes 8) : opndField w = 0 :=
  extractLsb'_eq_zero_of_and h 16 8 hm

end UnusedField

/-- A word with no reserved bit set is packed from its fields (R91). -/
theorem packFields_fields {w : Word} (h : w &&& reservedMask = 0) :
    packFields (opField w) (travField w).bit (embedField w).bit (chmaskField w) (opndField w) = w := by
  have h24 : w.extractLsb' 24 8 = 0#8 := extractLsb'_eq_zero_of_and h 24 8 (by decide)
  have h12 : w.extractLsb' 12 4 = 0#4 := extractLsb'_eq_zero_of_and h 12 4 (by decide)
  have h6 : w.extractLsb' 6 2 = 0#2 := extractLsb'_eq_zero_of_and h 6 2 (by decide)
  rw [packFields, ← h24, ← h12, ← h6, travField_bit, embedField_bit]
  simp only [opField, chmaskField, opndField, BitVec.extractLsb'_append_extractLsb'_eq_extractLsb']
  exact BitVec.extractLsb'_eq_self

/-- A reserved bit is allowed to no OP (R91, R97). -/
theorem reservedMask_of_not_allowedMask (op : BitVec 4) : ~~~ allowedMask op &&& reservedMask = reservedMask := by
  revert op; decide

theorem and_reservedMask_of_allowed {w : Word} {op : BitVec 4} (h : w &&& ~~~ allowedMask op = 0) :
    w &&& reservedMask = 0 := by
  rw [← reservedMask_of_not_allowedMask op, ← BitVec.and_assoc, h]
  exact BitVec.zero_and

/-- The word of the command a word decodes to is that word (R98). -/
theorem encode_decode {w : Word} {i : Instr} (h : decode w = .ok i) : encode i = w := by
  have hl := (legal_iff_exists_decode w).mpr ⟨i, h⟩
  have ham := ((legal_iff w).mp hl).2
  have hw := packFields_fields (and_reservedMask_of_allowed ham)
  rcases decode_of_legal hl with ⟨hop, hd⟩ | ⟨hop, hd⟩ | ⟨hop, hd⟩ | ⟨hop, hd⟩ | ⟨hop, hd⟩ | ⟨hop, hd⟩ <;>
    rw [hop] at ham hw <;> obtain rfl := Except.ok.inj (h.symm.trans hd)
  · rwa [travField_bit_eq_zero ham (by decide), embedField_bit_eq_zero ham (by decide),
      chmaskField_eq_zero ham (by decide), opndField_eq_zero ham (by decide)] at hw
  · rw [embedField_bit_eq_zero ham (by decide), opndField_eq_zero ham (by decide)] at hw
    rwa [encode, chmaskOf_chlist]
  · rw [opndField_eq_zero ham (by decide)] at hw
    rwa [encode, chmaskOf_chlist]
  · rw [embedField_bit_eq_zero ham (by decide), opndField_eq_zero ham (by decide)] at hw
    rwa [encode, chmaskOf_chlist]
  · rwa [travField_bit_eq_zero ham (by decide), embedField_bit_eq_zero ham (by decide),
      chmaskField_eq_zero ham (by decide)] at hw
  · rwa [travField_bit_eq_zero ham (by decide), embedField_bit_eq_zero ham (by decide),
      chmaskField_eq_zero ham (by decide)] at hw

/-- Settles O2: the decoder by OP, and two words that decode to one command are the word of that command. -/
theorem decodeReadsTheFieldsOfLegalWords : Obligations.DecodeReadsTheFieldsOfLegalWords :=
  ⟨fun w hl => ⟨rejectName w, decode_of_illegal hl⟩,
    fun _ hl => ⟨decode_of_op_nop hl, decode_of_op_capacity hl, decode_of_op_encode hl, decode_of_op_decode hl,
      decode_of_op_encSym hl, decode_of_op_decSym hl⟩,
    fun _ _ _ hv hw => (encode_decode hv).symm.trans (encode_decode hw)⟩

/-! The rows of the opcode map (R101). -/

theorem and_opMask (w : Word) : w &&& 0xF = (opField w).setWidth 32 := by
  apply BitVec.eq_of_toNat_eq
  rw [opField, BitVec.toNat_and, BitVec.toNat_setWidth, BitVec.extractLsb'_toNat, Nat.shiftRight_zero]
  exact (Nat.and_two_pow_sub_one_eq_mod w.toNat 4).trans (Nat.mod_eq_of_lt (by omega)).symm

theorem opField_and_or_opMask (w m : Word) : opField (w &&& (m ||| 0xF)) = opField w := by
  have hop : (0xF : Word).extractLsb' 0 4 = BitVec.allOnes 4 := by decide
  simp only [opField, BitVec.extractLsb'_and, BitVec.extractLsb'_or, hop, BitVec.or_allOnes, BitVec.and_allOnes]

theorem opField_setWidth (op : BitVec 4) : opField (op.setWidth 32) = op := by
  revert op; decide

/-- A word matches a row whose mask is OP and the bits of `m`, and whose match is an OP, when it has that OP and no bit of
`m` (R97, R101). -/
theorem and_or_opMask_eq_iff {m : Word} (hm : m &&& 0xF = 0) (w : Word) (op : BitVec 4) :
    w &&& (m ||| 0xF) = op.setWidth 32 ↔ opField w = op ∧ w &&& m = 0 := by
  constructor
  · intro h
    have hop : opField w = op := by rw [← opField_and_or_opMask w m, h, opField_setWidth]
    refine ⟨hop, ?_⟩
    calc w &&& m = w &&& (m ||| 0xF) &&& m := by grind
      _ = w &&& 0xF &&& m := by rw [h, and_opMask, hop]
      _ = w &&& (m &&& 0xF) := by rw [BitVec.and_assoc, BitVec.and_comm m]
      _ = 0 := by rw [hm]; exact BitVec.and_zero
  · rintro ⟨hop, hw⟩
    rw [BitVec.and_or_distrib_left, hw, and_opMask, hop]
    exact BitVec.zero_or

/-- The rows of the opcode map by OP: the match is the OP, the mask has OP and every bit the OP does not allow. -/
theorem opcodeTable_row {r : OpcodeRow} (hr : r ∈ opcodeTable) :
    (opField r.value).toNat ≤ 5 ∧ r.value = (opField r.value).setWidth 32 ∧
    r.mask = ~~~ allowedMask (opField r.value) ||| 0xF ∧ ~~~ allowedMask (opField r.value) &&& 0xF = 0 := by
  revert r; decide

/-- A word matches a row exactly when it is legal and has the row's OP (R97, R101). -/
theorem matches_row_iff {r : OpcodeRow} (hr : r ∈ opcodeTable) (w : Word) :
    w &&& r.mask = r.value ↔ legal w = true ∧ opField w = opField r.value := by
  obtain ⟨hop, hvalue, hmask, hm⟩ := opcodeTable_row hr
  have hrow := and_or_opMask_eq_iff hm w (opField r.value)
  rw [← hmask, ← hvalue] at hrow
  rw [hrow, legal_iff]
  constructor
  · rintro ⟨h, hw⟩
    exact ⟨by rw [h]; exact ⟨hop, hw⟩, h⟩
  · rintro ⟨⟨-, hw⟩, h⟩
    exact ⟨h, h ▸ hw⟩

theorem opcodeTable_inj {r r' : OpcodeRow} (hr : r ∈ opcodeTable) (hr' : r' ∈ opcodeTable)
    (h : opField r.value = opField r'.value) : r = r' := by
  have hinj : ∀ r ∈ opcodeTable, ∀ r' ∈ opcodeTable, opField r.value = opField r'.value → r = r' := by decide
  exact hinj r hr r' hr' h

theorem opcodeTable_disjoint {r r' : OpcodeRow} (hr : r ∈ opcodeTable) (hr' : r' ∈ opcodeTable) {w : Word}
    (h : w &&& r.mask = r.value) (h' : w &&& r'.mask = r'.value) : r = r' :=
  opcodeTable_inj hr hr' (((matches_row_iff hr w).mp h).2.symm.trans ((matches_row_iff hr' w).mp h').2)

/-- A legal word matches the row of the command it decodes to (R101). -/
theorem decode_matches_row {w : Word} (hl : legal w = true) :
    ∃ r ∈ opcodeTable, w &&& r.mask = r.value ∧ ∃ i, decode w = .ok i ∧ i.mnemonic = r.mnemonic := by
  obtain ⟨i, hi⟩ := (legal_iff_exists_decode w).mp hl
  obtain ⟨r, hr, hname, h⟩ := encode_matches_row i
  exact ⟨r, hr, encode_decode hi ▸ h, i, hi, hname.symm⟩

/-- Settles O4: a word that matches a row is legal, and a legal word matches the row of its command and no other. -/
theorem opcodeRowsPartitionLegalWords : Obligations.OpcodeRowsPartitionLegalWords := by
  refine ⟨by decide, fun w => ⟨⟨fun hl => ?_, fun ⟨r, hr, h⟩ => ((matches_row_iff hr w).mp h).1⟩,
    fun r hr r' hr' => opcodeTable_disjoint hr hr', fun r hr h => ?_⟩⟩
  · obtain ⟨r, hr, h, -⟩ := decode_matches_row hl
    exact ⟨r, hr, h⟩
  · obtain ⟨r', hr', h', hi⟩ := decode_matches_row ((matches_row_iff hr w).mp h).1
    rwa [opcodeTable_disjoint hr hr' h h']

/-! The bits of a legal word (R97). -/

/-- `AM(OP)` row by row (R97). -/
theorem eq_allowedMask_iff (op : BitVec 4) (am : Word) :
    op.toNat ≤ 5 ∧ am = allowedMask op ↔
      (op = 0 ∧ am = 0x0000000F) ∨ (op = 1 ∧ am = 0x00000F1F) ∨ (op = 2 ∧ am = 0x00000F3F) ∨
      (op = 3 ∧ am = 0x00000F1F) ∨ (op = 4 ∧ am = 0x00FF000F) ∨ (op = 5 ∧ am = 0x00FF000F) := by
  constructor
  · rintro ⟨hop, rfl⟩
    rcases op_cases hop with rfl | rfl | rfl | rfl | rfl | rfl <;> decide
  · rintro (⟨rfl, rfl⟩ | ⟨rfl, rfl⟩ | ⟨rfl, rfl⟩ | ⟨rfl, rfl⟩ | ⟨rfl, rfl⟩ | ⟨rfl, rfl⟩) <;> decide

/-- Settles O3: the mask is that of the word's OP, and NOP is the command of the word 0 alone. -/
theorem legalWordsSetOnlyAllowedBits : Obligations.LegalWordsSetOnlyAllowedBits := by
  refine fun w => ⟨⟨fun hl => ?_, fun ⟨am, hop, ham⟩ => ?_⟩,
    fun hl hop => (encode_decode (decode_of_op_nop hl hop)).symm⟩
  · obtain ⟨hop, ham⟩ := (legal_iff w).mp hl
    exact ⟨_, (eq_allowedMask_iff _ _).mp ⟨hop, rfl⟩, ham⟩
  · obtain ⟨hle, rfl⟩ := (eq_allowedMask_iff _ _).mpr hop
    exact (legal_iff w).mpr ⟨hle, ham⟩

/-! Illegal words (R99). -/

theorem decode_of_reservedOp {w : Word} (hop : 5 < (opField w).toNat) : decode w = .error .reservedOp := by
  have hl : legal w = false := Bool.eq_false_iff.mpr fun h => absurd ((legal_iff w).mp h).1 (by omega)
  rw [decode_of_illegal hl, rejectName, if_pos hop]

theorem decode_of_reservedBit {w : Word} (hop : (opField w).toNat ≤ 5) (hw : w &&& reservedMask ≠ 0) :
    decode w = .error .reservedBit := by
  have hl : legal w = false :=
    Bool.eq_false_iff.mpr fun h => hw (and_reservedMask_of_allowed ((legal_iff w).mp h).2)
  rw [decode_of_illegal hl, rejectName, if_neg (by omega), if_pos hw]

theorem decode_of_unusedField {w : Word} (hop : (opField w).toNat ≤ 5) (hw : w &&& reservedMask = 0)
    (ham : w &&& ~~~ allowedMask (opField w) ≠ 0) : decode w = .error .unusedField := by
  have hl : legal w = false := Bool.eq_false_iff.mpr fun h => ham ((legal_iff w).mp h).2
  rw [decode_of_illegal hl, rejectName, if_neg (by omega), if_neg (not_not_intro hw)]

/-- Settles O5: the three cases in the order the model gives them; with none of them the word decodes to a command. -/
theorem illegalWordsAreNamed : Obligations.IllegalWordsAreNamed := by
  intro w
  have h6 : 6 ≤ (opField w).toNat ↔ ¬ (opField w).toNat ≤ 5 := by omega
  change (_ ↔ 6 ≤ (opField w).toNat) ∧ (_ ↔ (opField w).toNat ≤ 5 ∧ w &&& reservedMask ≠ 0) ∧
    (_ ↔ (opField w).toNat ≤ 5 ∧ w &&& reservedMask = 0 ∧ w &&& ~~~ allowedMask (opField w) ≠ 0)
  rw [h6]
  by_cases hop : (opField w).toNat ≤ 5
  case neg => simp [decode_of_reservedOp (not_le.mp hop), hop]
  by_cases hw : w &&& reservedMask = 0#32
  case neg => simp [decode_of_reservedBit hop hw, hop, hw]
  by_cases ham : w &&& ~~~ allowedMask (opField w) = 0#32
  case neg => simp [decode_of_unusedField hop hw ham, hop, hw, ham]
  obtain ⟨i, hi⟩ := (legal_iff_exists_decode w).mp ((legal_iff w).mpr ⟨hop, ham⟩)
  simp [hi, hop, hw, ham]

/-- Settles O6: by evaluation. -/
theorem sampleWordsDecode : Obligations.SampleWordsDecode := by
  unfold Obligations.SampleWordsDecode
  decide

end Sys2Proof
end

section
/-! PROOFS. Spellings assemble to their commands (spec 30_encoding.md R102). -/

namespace Sys2Proof.Machine

/-! The fields. -/

theorem asmTrav_spellTrav (trav : Trav) : asmTrav (spellTrav trav) = some trav := by
  cases trav <;> decide

theorem asmEmbed_spellEmbed (embed : Embed) : asmEmbed (spellEmbed embed) = some embed := by
  cases embed <;> decide

/-! Channel sets. -/

@[simp] theorem asmLetter_spellLetter (ch : Channel) : asmLetter (spellLetter ch) = some ch := by
  cases ch <;> rfl

theorem mapM_asmLetter_spelled (l : List Channel) : (l.map spellLetter).mapM asmLetter = some l := by
  induction l with
  | nil => rfl
  | cons ch l ih => simp [ih]

/-- No letters of channels spell the empty set. -/
theorem map_spellLetter_ne_none (l : List Channel) : l.map spellLetter ≠ "none".toList := by
  intro h
  cases l with
  | nil => cases h
  | cons ch l =>
    have hn : spellLetter ch = 'n' := (List.cons.inj h).1
    cases ch <;> revert hn <;> decide

/-- Two lists of the same channels have one list in visit order (R151). -/
theorem filter_visitOrder_eq {l chs : List Channel} (hok : ChannelsOk chs) (hl : ∀ ch, ch ∈ l ↔ ch ∈ chs) :
    (visitOrder.filter fun ch => decide (ch ∈ l)) = chs := by
  calc (visitOrder.filter fun ch => decide (ch ∈ l))
      = chlist (chmaskOf chs) := by simp only [chlist, getLsbD_chmaskOf, hl]
    _ = chs := chlist_chmaskOf hok

/-- The order of the letters does not matter (R102). -/
theorem asmChannels_of_perm {l chs : List Channel} (hok : ChannelsOk chs) (hl : l.Perm chs) (hne : l ≠ []) :
    asmChannels (l.map spellLetter) = some chs := by
  rw [asmChannels, if_neg (map_spellLetter_ne_none l), if_neg (by simpa using hne), mapM_asmLetter_spelled]
  dsimp only
  rw [if_pos (hl.nodup_iff.mpr hok.1), filter_visitOrder_eq hok fun _ => hl.mem_iff]

theorem asmChannels_spellChannels {chs : List Channel} (hok : ChannelsOk chs) :
    asmChannels (spellChannels chs) = some chs := by
  by_cases hne : chs = []
  · subst hne; decide
  · rw [spellChannels, if_neg hne, asmChannels_of_perm hok (.refl chs) hne]

/-! Digits. -/

theorem asmDigits_singleton (base : Nat) (c : Char) : asmDigits base [c] = asmDigit base c := by
  simp [asmDigits]

/-- A digit after a number. -/
theorem asmDigits_append_singleton {base : Nat} {t : List Char} (ht : t ≠ []) (c : Char) :
    asmDigits base (t ++ [c]) =
      (asmDigits base t).bind fun n => (asmDigit base c).map fun d => base * n + d := by
  simp [asmDigits, ht]

theorem asmDigit_digitChar {d : Nat} (hd : d < 10) : asmDigit 10 d.digitChar = some d := by
  have h : ∀ d < 10, asmDigit 10 (Nat.digitChar d) = some d := by decide
  exact h d hd

theorem asmDigit_spellDigit {d : Nat} (hd : d < 16) : asmDigit 16 (spellDigit d) = some d := by
  have h : ∀ d < 16, asmDigit 16 (spellDigit d) = some d := by decide
  exact h d hd

/-- The decimal digits of a number are read as it. -/
theorem asmDigits_toDigits (n : Nat) : asmDigits 10 (Nat.toDigits 10 n) = some n := by
  induction n using Nat.strongRecOn with
  | ind n ih =>
    by_cases hn : n < 10
    · rw [Nat.toDigits_of_lt_base hn, asmDigits_singleton, asmDigit_digitChar hn]
    · rw [Nat.toDigits_of_base_le (by decide) (not_lt.mp hn), asmDigits_append_singleton Nat.toDigits_ne_nil,
        ih (n / 10) (by omega), asmDigit_digitChar (Nat.mod_lt n (by decide))]
      exact congrArg some (Nat.div_add_mod n 10)

/-- The two hexadecimal digits of a byte are read as it. -/
theorem asmDigits_spellDigits (b : Byte) :
    asmDigits 16 [spellDigit (b.toNat / 16), spellDigit (b.toNat % 16)] = some b.toNat := by
  have hhi : asmDigit 16 (spellDigit (b.toNat / 16)) = some (b.toNat / 16) := asmDigit_spellDigit (by omega)
  have hlo : asmDigit 16 (spellDigit (b.toNat % 16)) = some (b.toNat % 16) := asmDigit_spellDigit (by omega)
  rw [← List.singleton_append, asmDigits_append_singleton (List.cons_ne_nil _ _), asmDigits_singleton, hhi, hlo]
  exact congrArg some (Nat.div_add_mod b.toNat 16)

/-! Bytes. -/

/-- A hexadecimal number up to 255 is the byte of that value. -/
theorem asmByte_hex {t : List Char} {n : Nat} (h : asmDigits 16 t = some n) (hn : n ≤ 255) :
    asmByte ('0' :: 'x' :: t) = some (BitVec.ofNat 8 n) := by
  change ((asmDigits 16 t).bind fun n => if n ≤ 255 then some (BitVec.ofNat 8 n) else none) = _
  rw [h]
  exact if_pos hn

/-- A decimal number up to 255 is the byte of that value: its digits hold no quote and no `x`. -/
theorem asmByte_decimal {t : List Char} {n : Nat} (ht : ∀ c ∈ t, c.isDigit = true) (h : asmDigits 10 t = some n)
    (hn : n ≤ 255) : asmByte t = some (BitVec.ofNat 8 n) := by
  unfold asmByte
  dsimp only
  split
  · exact absurd (ht '\'' (by simp)) (by decide)
  · exact absurd (ht 'x' (by simp)) (by decide)
  · rw [h]
    exact if_pos hn

theorem asmByte_spellByte (b : Byte) : asmByte (spellByte b) = some b := by
  rw [spellByte, asmByte_hex (asmDigits_spellDigits b) (by omega), BitVec.ofNat_toNat, BitVec.setWidth_eq]

theorem asmByte_toDigits (b : Byte) : asmByte (Nat.toDigits 10 b.toNat) = some b := by
  rw [asmByte_decimal (fun _ => Nat.isDigit_of_mem_toDigits (by decide) (by decide)) (asmDigits_toDigits _) (by omega),
    BitVec.ofNat_toNat, BitVec.setWidth_eq]

theorem asmByte_quoted {c : Char} (hlo : 0x20 ≤ c.toNat) (hhi : c.toNat ≤ 0x7E) :
    asmByte ['\'', c, '\''] = some (BitVec.ofNat 8 c.toNat) :=
  if_pos ⟨hlo, hhi⟩

/-! Commands. -/

section Commands

variable {t e c : List Char} {trav : Trav} {embed : Embed} {chs : List Channel} {b : Byte}

theorem assemble_capacity (ht : asmTrav t = some trav) (hc : asmChannels c = some chs) :
    assemble "CAPACITY".toList [t, c] = some (.capacity trav chs) := by
  change ((asmTrav t).bind fun t => (asmChannels c).map fun c => Instr.capacity t c) = _
  rw [ht, hc]
  rfl

theorem assemble_encode (ht : asmTrav t = some trav) (he : asmEmbed e = some embed) (hc : asmChannels c = some chs) :
    assemble "ENCODE".toList [t, e, c] = some (.encode trav embed chs) := by
  change ((asmTrav t).bind fun t => (asmEmbed e).bind fun e => (asmChannels c).map fun c => Instr.encode t e c) = _
  rw [ht, he, hc]
  rfl

theorem assemble_decode (ht : asmTrav t = some trav) (hc : asmChannels c = some chs) :
    assemble "DECODE".toList [t, c] = some (.decode trav chs) := by
  change ((asmTrav t).bind fun t => (asmChannels c).map fun c => Instr.decode t c) = _
  rw [ht, hc]
  rfl

theorem assemble_encSym (hb : asmByte t = some b) : assemble "ENC_SYM".toList [t] = some (.encSym b) := by
  change (asmByte t).map _ = some _
  rw [hb]
  rfl

theorem assemble_decSym (hb : asmByte t = some b) : assemble "DEC_SYM".toList [t] = some (.decSym b) := by
  change (asmByte t).map _ = some _
  rw [hb]
  rfl

end Commands

/-- The canonical spelling of a well-formed command assembles to it. -/
theorem assemble_spelled {i : Instr} (hi : i.WellFormed) :
    assemble i.mnemonic.toList (spellOperands i) = some i := by
  cases i with
  | nop => rfl
  | capacity trav chs => exact assemble_capacity (asmTrav_spellTrav trav) (asmChannels_spellChannels hi)
  | encode trav embed chs =>
    exact assemble_encode (asmTrav_spellTrav trav) (asmEmbed_spellEmbed embed) (asmChannels_spellChannels hi)
  | decode trav chs => exact assemble_decode (asmTrav_spellTrav trav) (asmChannels_spellChannels hi)
  | encSym sym => exact assemble_encSym (asmByte_spellByte sym)
  | decSym code => exact assemble_decSym (asmByte_spellByte code)

/-- Settles O7: each operand's spelling is read as the operand, and the example of R102 by evaluation. -/
theorem spellingsAssemble : Obligations.SpellingsAssemble :=
  ⟨fun _ => assemble_spelled, fun _ _ => asmChannels_of_perm, fun b => ⟨asmByte_spellByte b, asmByte_toDigits b⟩,
    fun _ => asmByte_quoted, by decide⟩

end Sys2Proof.Machine
end

section
/-! PROOFS. The alphabet and its mapper (spec 40_alphabet.md R120, R121, R125 to R127). -/

namespace Sys2Proof.Machine

/-! The two lookups (R120): each reads the table, and an entry of the table is what both of them give. -/

theorem codeOf_eq_some_iff_mem {c : Config} (hc : c.Ok) {s : Byte} {n : Nat} :
    codeOf c s = some n ↔ (s, n) ∈ c.alphabet :=
  ⟨mem_of_codeOf, codeOf_of_mem hc⟩

theorem symbolOf_eq_some_iff_mem {c : Config} (hc : c.Ok) {s : Byte} {n : Nat} :
    symbolOf c n = some s ↔ (s, n) ∈ c.alphabet :=
  ⟨mem_of_symbolOf, symbolOf_of_mem hc⟩

theorem symbolOf_eq_some_iff_codeOf {c : Config} (hc : c.Ok) (s : Byte) (n : Nat) :
    symbolOf c n = some s ↔ codeOf c s = some n :=
  (symbolOf_eq_some_iff_mem hc).trans (codeOf_eq_some_iff_mem hc).symm

/-- The terminator is no symbol's code (R5, R123). -/
theorem symbolOf_zero {c : Config} (hc : c.Ok) : symbolOf c 0 = none := by
  obtain ⟨⟨-, -, -, hrange⟩, -⟩ := hc
  refine Option.eq_none_iff_forall_ne_some.mpr fun s hs => ?_
  have : 1 ≤ 0 := (hrange _ (mem_of_symbolOf hs)).1
  omega

/-- `N` is the largest code (R5), so no code above it is mapped. -/
theorem symbolOf_of_maxCode_lt {c : Config} {n : Nat} (h : maxCode c < n) : symbolOf c n = none :=
  Option.eq_none_iff_forall_ne_some.mpr fun _ hs =>
    Nat.not_le_of_lt h (code_le_maxCode (mem_of_symbolOf hs))

/-- Settles O25: both lookups say that the pair stands in the table, which holds no code 0 and none above `N`. -/
theorem inverseLookupInvertsLookup : Obligations.InverseLookupInvertsLookup := fun _ hc =>
  ⟨symbolOf_eq_some_iff_codeOf hc, symbolOf_zero hc, fun _ => symbolOf_of_maxCode_lt⟩

/-! ALPHA95 (R121). -/

/-- The entries of ALPHA95 are the printable bytes, each with its distance from 0x1F. -/
theorem mem_alpha95_iff {b : Byte} {n : Nat} :
    (b, n) ∈ Config.alpha95 ↔ (0x20 ≤ b.toNat ∧ b.toNat ≤ 0x7E) ∧ n = b.toNat - 0x1F := by
  simp only [Config.alpha95, List.mem_map, List.mem_range, Prod.mk.injEq]
  constructor
  · rintro ⟨k, hk, rfl, rfl⟩
    rw [BitVec.toNat_ofNat]
    omega
  · rintro ⟨⟨hlo, hhi⟩, rfl⟩
    refine ⟨b.toNat - 0x20, by omega, BitVec.eq_of_toNat_eq ?_, by omega⟩
    rw [BitVec.toNat_ofNat]
    omega

theorem reference_ok : Config.reference.Ok := by decide +kernel

theorem codeOf_reference (b : Byte) :
    codeOf Config.reference b = if 0x20 ≤ b.toNat ∧ b.toNat ≤ 0x7E then some (b.toNat - 0x1F) else none := by
  split
  · exact codeOf_of_mem reference_ok (mem_alpha95_iff.mpr ⟨‹_›, rfl⟩)
  · exact Option.eq_none_iff_forall_ne_some.mpr fun _ h =>
      absurd (mem_alpha95_iff.mp (mem_of_codeOf h)).1 ‹_›

/-- Settles O23: the lookup reads the entries of ALPHA95, and the codes from 96 on are above `N`. -/
theorem alpha95IsTheStatedTable : Obligations.Alpha95IsTheStatedTable :=
  ⟨codeOf_reference, maxCode_reference, codeWidth_reference,
    fun _ _ h => symbolOf_of_maxCode_lt (maxCode_reference ▸ h)⟩

/-! The two commands in CHECK, by what the lookup gives (R125, R126). -/

section Check

variable {s : State} (hs : s.eng.state = .check)
include hs

theorem exec_encSym_mapped {sym : Byte} {c : Nat} (h : codeOf s.cfg sym = some c) :
    exec (.encSym sym) s = .next ((s.setResult (natWord c)).complete .ok 0 0) := by
  simp only [exec, execEncSym, hs, h]

theorem exec_encSym_unmapped {sym : Byte} (h : codeOf s.cfg sym = none) :
    exec (.encSym sym) s = .next ((s.setResult 0).complete .unsupportedCharacter 0 (sym.setWidth 32)) := by
  simp only [exec, execEncSym, hs, h]

theorem exec_decSym_mapped {code sym : Byte} (h : symbolOf s.cfg code.toNat = some sym) :
    exec (.decSym code) s = .next ((s.setResult (sym.setWidth 32)).complete .ok 0 0) := by
  simp only [exec, execDecSym, hs, h]

theorem exec_decSym_unmapped {code : Byte} (h : symbolOf s.cfg code.toNat = none) :
    exec (.decSym code) s = .next ((s.setResult 0).complete .invalidCode 0 (code.setWidth 32)) := by
  simp only [exec, execDecSym, hs, h]

end Check

/-- Settles O27: the state the completion answers is the one written out. -/
theorem encSymGivesTheCode : Obligations.EncSymGivesTheCode := fun _ _ hs =>
  ⟨fun _ => exec_encSym_mapped hs, exec_encSym_unmapped hs⟩

/-- Settles O28: the terminator and the codes above `N` have no symbol, so they complete as the unmapped codes do. -/
theorem decSymGivesTheSymbol : Obligations.DecSymGivesTheSymbol := by
  refine fun s code hs => ⟨fun _ => exec_decSym_mapped hs, fun h => ?_⟩
  have hnone : symbolOf s.cfg code.toNat = none := by
    obtain h | ⟨hc, rfl | hlt⟩ := h
    · exact h
    · exact symbolOf_zero hc
    · exact symbolOf_of_maxCode_lt hlt
  exact exec_decSym_unmapped hs hnone

/-- A code that fits eight bits is read back from the low byte of the RESULT word. -/
theorem toNat_lowByte_natWord {n : Nat} (h : n ≤ 255) : ((natWord n).extractLsb' 0 8).toNat = n := by
  simp only [natWord, BitVec.extractLsb'_toNat, BitVec.toNat_ofNat, Nat.shiftRight_zero]
  omega

/-- Settles O26: the code fits the operand byte of DEC_SYM, so the second lookup is the inverse of the first. -/
theorem symbolCommandsRoundTrip : Obligations.SymbolCommandsRoundTrip := by
  intro s u sym c hc hcode
  have hinv : symbolOf s.cfg c = some sym := (symbolOf_eq_some_iff_codeOf hc sym c).mpr hcode
  obtain ⟨hpos, hbyte, -⟩ := code_bounds hc hcode
  refine ⟨hinv, hpos, code_le_maxCode (mem_of_codeOf hcode), maxCode_lt_two_pow s.cfg, fun hs hu hcfg => ?_⟩
  have hback : symbolOf u.cfg ((natWord c).extractLsb' 0 8).toNat = some sym := by
    rw [hcfg, toNat_lowByte_natWord hbyte, hinv]
  exact ⟨_, exec_encSym_mapped hs hcode, rfl, _, exec_decSym_mapped hu hback, rfl, rfl⟩

end Sys2Proof.Machine
end

section
/-! PROOFS. What each command's step is in each phase, and the steps of the engine's phases written out (spec
41_lsb_engine.md R150 to R184, 42_scatter.md R204). -/

namespace Sys2Proof.Machine

/-! The step of each command, by its phase. -/

section Phases
variable {s : State} {trav : Trav} {embed : Embed} {chs : List Channel}

theorem exec_capacity_check (hs : s.eng.state = .check) (hb : bufferOk s.cfg s.W s.H = true) :
    exec (.capacity trav chs) s = .next (capacityDone trav (setCap trav (captureOperands chs s))) := by
  simp only [exec, execCapacity, hs, checkTail_of_ok hb]

theorem exec_encode_check (hs : s.eng.state = .check) (hb : bufferOk s.cfg s.W s.H = true) :
    exec (.encode trav embed chs) s = .next (encCheck trav (setCap trav (captureOperands chs s))) := by
  simp only [exec, execEncode, hs, checkTail_of_ok hb]

theorem exec_decode_check (hs : s.eng.state = .check) (hb : bufferOk s.cfg s.W s.H = true) :
    exec (.decode trav chs) s = .next ((setCap trav (captureOperands chs s)).toPhase .travinit) := by
  simp only [exec, execDecode, hs, checkTail_of_ok hb]

theorem exec_encode_validate (hs : s.eng.state = .validate) :
    exec (.encode trav embed chs) s = encValidate trav s := by
  simp only [exec, execEncode, hs]

theorem exec_encode_capchk (hs : s.eng.state = .capchk) :
    exec (.encode trav embed chs) s = .next (encCapchk trav s) := by
  simp only [exec, execEncode, hs]

theorem exec_encode_travinit (hs : s.eng.state = .travinit) :
    exec (.encode trav embed chs) s = .next (encTravinit trav s) := by
  simp only [exec, execEncode, hs]

theorem exec_encode_embed (hs : s.eng.state = .embed) :
    exec (.encode trav embed chs) s = encEmbed trav embed s := by
  simp only [exec, execEncode, hs]

theorem exec_decode_travinit (hs : s.eng.state = .travinit) :
    exec (.decode trav chs) s = .next (decTravinit trav s) := by
  simp only [exec, execDecode, hs]

theorem exec_decode_scan (hs : s.eng.state = .scan) : exec (.decode trav chs) s = decScan trav s := by
  simp only [exec, execDecode, hs]

theorem exec_decode_decodeCode (hs : s.eng.state = .decodeCode) :
    exec (.decode trav chs) s = decCode trav s := by
  simp only [exec, execDecode, hs]

end Phases

/-! The completions and the phases, by what they find. -/

theorem encFinish_eq (s : State) (trav : Trav) (err : ErrCode) (idx val : Word) :
    encFinish trav err idx val s = { s with
      regs := { s.regs with
        result := if err = .ok then natWord s.eng.need else 0
        capacity := natWord s.eng.cap
        seed := if trav = .scat then s.pixRead 0 else s.regs.seed
        err := err, errIndex := idx, errValue := val, done := true }
      eng := { s.eng with state := .idle } } := by
  cases trav <;> rfl

theorem decFinish_eq (s : State) (trav : Trav) (err : ErrCode) (idx val : Word) :
    decFinish trav err idx val s = { s with
      regs := { s.regs with
        msgLen := if err = .ok then natWord s.eng.i else 0
        result := if err = .ok then natWord s.eng.i else 0
        capacity := natWord s.eng.cap
        seed := if trav = .scat then s.pixRead 0 else s.regs.seed
        err := err, errIndex := idx, errValue := val, done := true }
      eng := { s.eng with state := .idle } } := by
  cases trav <;> rfl

section Validate
variable {s : State} (hlt : s.eng.i < s.cfg.msgBytesMax) (trav : Trav)
include hlt

theorem encValidate_unmapped (h : codeOf s.cfg (s.msgRead s.eng.i) = none) :
    encValidate trav s =
      .next (encFinish trav .unsupportedCharacter (natWord s.eng.i) ((s.msgRead s.eng.i).setWidth 32) s) := by
  simp only [encValidate, if_pos hlt, h]

theorem encValidate_mapped (h : codeOf s.cfg (s.msgRead s.eng.i) ≠ none) :
    encValidate trav s = .next (encSymbolOk s) := by
  obtain ⟨c, hc⟩ := Option.ne_none_iff_exists'.mp h
  simp only [encValidate, if_pos hlt, hc]

end Validate

theorem encCapchk_exceeds {s : State} (trav : Trav) (h : s.eng.cap < s.eng.k * (s.eng.len.toNat + 1)) :
    encCapchk trav s = encFinish trav .capacityExceeded 0 (natWord (s.eng.k * (s.eng.len.toNat + 1)))
      { s with eng := { s.eng with need := s.eng.k * (s.eng.len.toNat + 1) } } := if_pos h

theorem encCapchk_fits {s : State} (trav : Trav) (h : s.eng.k * (s.eng.len.toNat + 1) ≤ s.eng.cap) :
    encCapchk trav s =
      { s with eng := { s.eng with need := s.eng.k * (s.eng.len.toNat + 1), state := .travinit } } :=
  if_neg (Nat.not_lt.mpr h)

section DecodeCode
variable {s : State} (trav : Trav)

theorem decCode_terminator (h : s.eng.acc = 0) :
    decCode trav s = .next (decFinish trav .ok 0 0 { s with eng := { s.eng with acc := 0, nb := 0 } }) := by
  simp only [decCode, if_pos h]

theorem decCode_unmapped (h : s.eng.acc ≠ 0) (hsym : symbolOf s.cfg s.eng.acc.toNat = none) :
    decCode trav s = .next (decFinish trav .invalidCode (natWord s.eng.i) (s.eng.acc.setWidth 32)
      { s with eng := { s.eng with acc := 0, nb := 0 } }) := by
  simp only [decCode, if_neg h, hsym]

theorem decCode_full {sym : Byte} (h : s.eng.acc ≠ 0) (hsym : symbolOf s.cfg s.eng.acc.toNat = some sym)
    (hi : s.eng.i = s.cfg.msgBytesMax) :
    decCode trav s = .next (decFinish trav .msgLength (natWord s.eng.i) (s.eng.acc.setWidth 32)
      { s with eng := { s.eng with acc := 0, nb := 0 } }) := by
  simp only [decCode, if_neg h, hsym, if_pos hi]

theorem decCode_symbol {sym : Byte} (h : s.eng.acc ≠ 0) (hsym : symbolOf s.cfg s.eng.acc.toNat = some sym)
    (hi : s.eng.i < s.cfg.msgBytesMax) :
    decCode trav s = .next { s with
      msg := Memory.write s.msg s.eng.i sym
      eng := { s.eng with acc := 0, nb := 0, i := s.eng.i + 1, state := .scan } } := by
  simp only [decCode, if_neg h, hsym, if_neg (Nat.ne_of_lt hi), if_pos hi]
  rfl

end DecodeCode

/-! The obligations about single steps. -/

/-- Settles O29: NOP's completion writes the result code, its operands and DONE. -/
theorem nopOnlyCompletes : Obligations.NopOnlyCompletes := by
  intro s hs
  simp only [exec, execNop, hs]
  rfl

/-- Settles O30: the buffer check passes, and the completion carries the capacity of the traversal. -/
theorem capacityReportsTheSlotCount : Obligations.CapacityReportsTheSlotCount := by
  intro s trav chs hs hw hh hmax
  have hb : bufferOk s.cfg s.W s.H = true := (bufferOk_iff _ _ _).mpr ⟨hw, hh, hmax⟩
  refine ⟨_, exec_capacity_check hs hb, ?_⟩
  cases trav <;> exact ⟨rfl, rfl, fun _ => rfl, fun _ => rfl, by simp⟩

/-- Settles O31: each of the three commands ends by `State.invalidBuffer`, DECODE with MSG_LEN cleared. -/
theorem invalidBufferCompletesInCheck : Obligations.InvalidBufferCompletesInCheck := by
  intro s trav embed chs hs hbad i hi
  have hb : ¬ bufferOk s.cfg s.W s.H = true := fun h => hbad ((bufferOk_iff _ _ _).mp h)
  have hexec : exec i s = .next ((captureOperands chs s).invalidBuffer (decide (i = .decode trav chs))) := by
    simp only [List.mem_cons, List.not_mem_nil, or_false] at hi
    rcases hi with rfl | rfl | rfl
    · simp only [exec, execCapacity, hs, checkTail_of_bad hb]
      rfl
    · simp only [exec, execEncode, hs, checkTail_of_bad hb]
      rfl
    · simp only [exec, execDecode, hs, checkTail_of_bad hb, decide_true]
  exact ⟨_, hexec, by simp, by simp, fun a => by simp, fun a => by simp, by simp, by simp, by simp, by simp, by simp,
    by simp, by simp, by simp⟩

/-- Settles O33: VALIDATE by the code of the symbol. -/
theorem encodeValidatesOneSymbol : Obligations.EncodeValidatesOneSymbol := by
  intro s trav embed chs hs hlen hmax
  rw [exec_encode_validate hs]
  refine ⟨fun h => ?_, fun h => ?_⟩
  · rw [encValidate_unmapped hmax trav h, encFinish_eq]
    rfl
  · rw [encValidate_mapped hmax trav h]
    simp only [encSymbolOk, State.toPhase]
    split <;> simp [hs]

/-- Settles O34: CAPCHK by the comparison. -/
theorem encodeComparesNeedWithCapacity : Obligations.EncodeComparesNeedWithCapacity := by
  intro s trav embed chs hs
  rw [exec_encode_capchk hs]
  refine ⟨fun h => ?_, fun h => by rw [encCapchk_fits trav h]⟩
  rw [encCapchk_exceeds trav h, encFinish_eq]
  rfl

/-- Settles O35: TRAVINIT is `scatInit` under scatter, and otherwise only the counters'. -/
theorem travinitSetsUpTheTraversal : Obligations.TravinitSetsUpTheTraversal := by
  intro s trav embed chs hs
  cases trav <;> exact ⟨exec_encode_travinit hs, exec_decode_travinit hs⟩

/-- Settles O41: DECODE_CODE by the group it holds. -/
theorem decodeLooksUpOneGroup : Obligations.DecodeLooksUpOneGroup := by
  intro s trav chs hs hmax
  simp only [exec_decode_decodeCode hs]
  refine ⟨fun h => ?_, fun h hsym => ?_, fun sym h hsym => ⟨fun hi => ?_, fun hi => ?_⟩⟩
  · rw [decCode_terminator trav h, decFinish_eq]
    rfl
  · rw [decCode_unmapped trav h hsym, decFinish_eq]
    rfl
  · rw [decCode_full trav h hsym hi, decFinish_eq]
    rfl
  · exact decCode_symbol trav h hsym hi

/-- Settles O39: the state is the one CHECK captures the operands in. -/
theorem decodeCheckTail : Obligations.DecodeCheckTail := by
  intro s trav chs hs hw hh hmax
  have hb : bufferOk s.cfg s.W s.H = true := (bufferOk_iff _ _ _).mpr ⟨hw, hh, hmax⟩
  exact ⟨_, exec_decode_check hs hb, captured_of_check hb .travinit, rfl, rfl, fun _ => rfl, fun _ => rfl, rfl⟩

/-! The CHECK tail of ENCODE. -/

section EncCheck
variable {s : State} (trav : Trav)

theorem encCheck_too_long (h : s.cfg.msgBytesMax < s.eng.len.toNat) :
    encCheck trav s = encFinish trav .msgLength 0 s.eng.len s := if_pos h

theorem encCheck_empty (hmax : ¬ s.cfg.msgBytesMax < s.eng.len.toNat) (h : s.eng.len = 0) :
    encCheck trav s = s.toPhase .capchk := by
  rw [encCheck, if_neg hmax, if_pos h]

theorem encCheck_message (hmax : ¬ s.cfg.msgBytesMax < s.eng.len.toNat) (h : s.eng.len ≠ 0) :
    encCheck trav s = s.toPhase .validate := by
  rw [encCheck, if_neg hmax, if_neg h]

end EncCheck

/-- The tail of ENCODE's CHECK changes nothing CHECK captures, whatever it finds (R171). -/
theorem captured_encCheck {s : State} {chs : List Channel} (hb : bufferOk s.cfg s.W s.H = true) (trav : Trav) :
    Captured trav chs { encCheck trav (setCap trav (captureOperands chs s)) with regs := s.regs } := by
  constructor <;> simp [hb]

/-- Settles O32: CHECK's tail by the message length. -/
theorem encodeCheckTail : Obligations.EncodeCheckTail := by
  intro s trav embed chs hs hw hh hmax
  have hb : bufferOk s.cfg s.W s.H = true := (bufferOk_iff _ _ _).mpr ⟨hw, hh, hmax⟩
  refine ⟨_, exec_encode_check hs hb, captured_encCheck hb trav, fun a => by simp, fun a => by simp, by simp,
    by simp, by simp, fun hlen => ?_, fun hlen => ?_⟩
  · rw [encCheck_too_long trav hlen, encFinish_eq]
    exact ⟨rfl, rfl⟩
  · have hle := Nat.not_lt.mpr hlen
    refine ⟨?_, fun h0 => ?_, fun h0 => ?_⟩
    · by_cases h0 : s.regs.msgLen = 0
      · rw [encCheck_empty trav hle h0]
        rfl
      · rw [encCheck_message trav hle h0]
        rfl
    · rw [encCheck_empty trav hle (BitVec.eq_of_toNat_eq h0)]
      rfl
    · rw [encCheck_message trav hle fun h => h0 (congrArg BitVec.toNat h)]
      rfl

end Sys2Proof.Machine
end

section
/-! PROOFS. The embedding policies (spec 41_lsb_engine.md R157 to R159). -/

namespace Sys2Proof.Machine

/-- LSB replacement as arithmetic (R157). -/
theorem repl_toNat : ∀ (v : Byte) (b : Bool), (repl v b).toNat = 2 * (v.toNat / 2) + b.toNat := by decide +kernel

/-- The LSB is the parity. -/
theorem getLsbD_zero_eq_iff (v : Byte) (b : Bool) : v.getLsbD 0 = b ↔ v.toNat % 2 = b.toNat := by
  cases b <;> simp [BitVec.getLsbD, Nat.testBit_zero]

theorem toNat_sub_one_add_one {v : Byte} (h : v ≠ 0) : (v - 1).toNat + 1 = v.toNat := by
  have hpos : v.toNat ≠ 0 := fun h0 => h (BitVec.eq_of_toNat_eq h0)
  have hlt := v.isLt
  rw [BitVec.toNat_sub, show BitVec.toNat (1 : Byte) = 1 from rfl]
  omega

/-- A byte whose LSB is the bit already is left alone (R157, R158). -/
theorem embedBit_of_lsb_eq (e : Embed) {v : Byte} {b : Bool} (h : v.getLsbD 0 = b) : embedBit e v b = v := by
  cases e with
  | repl =>
    have hmod := (getLsbD_zero_eq_iff v b).mp h
    refine BitVec.eq_of_toNat_eq ?_
    rw [embedBit, repl_toNat]
    omega
  | matching => exact if_pos h

/-- A byte whose LSB is another bit moves by one (R157, R158). -/
theorem embedBit_of_lsb_ne (e : Embed) {v : Byte} {b : Bool} (h : v.getLsbD 0 ≠ b) :
    (embedBit e v b).toNat = v.toNat + 1 ∨ (embedBit e v b).toNat + 1 = v.toNat := by
  cases e with
  | repl =>
    have hmod := mt (getLsbD_zero_eq_iff v b).mpr h
    have hb := Bool.toNat_le b
    rw [embedBit, repl_toNat]
    omega
  | matching =>
    rw [embedBit, lsbMatch, if_neg h]
    split
    · exact .inl (by simp [*])
    · exact .inr (toNat_sub_one_add_one ‹¬ v = 0›)

/-- Either policy leaves the bit in the LSB (R159). -/
theorem embedBit_lsb (e : Embed) (v : Byte) (b : Bool) : (embedBit e v b).getLsbD 0 = b := by
  by_cases h : v.getLsbD 0 = b
  · rw [embedBit_of_lsb_eq e h, h]
  · have hmod := mt (getLsbD_zero_eq_iff v b).mpr h
    have hmove := embedBit_of_lsb_ne e h
    have hb := Bool.toNat_le b
    exact (getLsbD_zero_eq_iff _ _).mpr (by omega)

/-- Settles O38: the byte stays where its LSB is the bit, and moves by one where it is not. -/
theorem embeddingSetsTheLsb : Obligations.EmbeddingSetsTheLsb := by
  intro v b
  refine ⟨by cases b <;> rfl, ?_, fun e => ⟨embedBit_lsb e v b, ⟨fun h => ?_, embedBit_of_lsb_eq e⟩, ?_⟩⟩
  · simp only [embedBit, lsbMatch]
    split
    · rfl
    · split
      · rfl
      · refine BitVec.eq_of_toNat_eq ?_
        have hsub := toNat_sub_one_add_one ‹¬ v = 0›
        have hlt := v.isLt
        rw [BitVec.toNat_ofNat, Nat.mod_eq_of_lt (by omega)]
        omega
  · rw [← h]
    exact embedBit_lsb e v b
  · by_cases h : v.getLsbD 0 = b
    · rw [embedBit_of_lsb_eq e h]
      omega
    · have hmove := embedBit_of_lsb_ne e h
      omega

end Sys2Proof.Machine
end

section
/-! PROOFS. The slots: which one a visit names, and that no two numbers name one byte (spec 41_lsb_engine.md R154, R155;
42_scatter.md R202, R205, R206). -/

namespace Sys2Proof.Machine

/-! Which slot is visited. -/

theorem travVisit_seq_eq_slot_iff (e : Engine) (sl : Slot) :
    travVisit .seq e = .slot sl ↔ seqSlot e.nc e.chs e.t = some sl := by
  simp only [travVisit]
  split <;> simp [*]

theorem travVisit_scat_eq_slot_iff (e : Engine) (sl : Slot) :
    travVisit .scat e = .slot sl ↔ e.x < e.M ∧ scatSlot e.nc e.chs e.x = some sl := by
  simp only [travVisit]
  split
  · split <;> simp [*]
  · simp [*]

theorem travVisit_scat_eq_skip_iff (e : Engine) : travVisit .scat e = .skip ↔ e.M ≤ e.x := by
  simp only [travVisit]
  split
  · split <;> simp [*]
  · simpa using ‹¬ e.x < e.M›

/-! No two numbers name one slot. -/

/-- A number is its pixel and its place in a channel list without repetition. -/
theorem slotNumber_inj {chs : List Channel} (hnd : chs.Nodup) {t u : Nat} {ch : Channel}
    (hdiv : t / chs.length = u / chs.length) (ht : chs[t % chs.length]? = some ch)
    (hu : chs[u % chs.length]? = some ch) : t = u := by
  have hlt : t % chs.length < chs.length := (List.getElem?_eq_some_iff.mp ht).1
  have hmod : t % chs.length = u % chs.length := (List.getElem?_inj hlt hnd).mp (ht.trans hu.symm)
  rw [← Nat.div_add_mod t chs.length, ← Nat.div_add_mod u chs.length, hdiv, hmod]

theorem seqSlot_inj {chs : List Channel} (hnd : chs.Nodup) {t u : Nat} {sl : Slot}
    (ht : seqSlot chs.length chs t = some sl) (hu : seqSlot chs.length chs u = some sl) : t = u := by
  obtain ⟨htp, htc⟩ := seqSlot_eq_some_iff.mp ht
  obtain ⟨hup, huc⟩ := seqSlot_eq_some_iff.mp hu
  exact slotNumber_inj hnd (htp.symm.trans hup) htc huc

theorem scatSlot_inj {chs : List Channel} (hnd : chs.Nodup) {t u : Nat} {sl : Slot}
    (ht : scatSlot chs.length chs t = some sl) (hu : scatSlot chs.length chs u = some sl) : t = u := by
  obtain ⟨htp, htc⟩ := scatSlot_eq_some_iff.mp ht
  obtain ⟨hup, huc⟩ := scatSlot_eq_some_iff.mp hu
  exact slotNumber_inj hnd (Nat.add_left_cancel (htp.symm.trans hup)) htc huc

/-- Slots that share a byte of PIXMEM are one slot (R69). -/
theorem slot_eq_of_pixByteAddr_eq {x y : Slot} (h : pixByteAddr x.p x.ch = pixByteAddr y.p y.ch) : x = y := by
  obtain ⟨p, c⟩ := x
  obtain ⟨q, d⟩ := y
  obtain ⟨rfl, rfl⟩ := pixByteAddr_inj h
  rfl

/-- Settles O43: the visits by the slot numbers, and a slot number is determined by its byte. -/
theorem slotNumbersNameDistinctBytes : Obligations.SlotNumbersNameDistinctBytes := by
  refine ⟨fun e sl => ⟨?_, ?_, travVisit_scat_eq_skip_iff e⟩, fun chs n t u hok => ⟨fun ht hu => ?_, fun ht hu => ?_⟩⟩
  · rw [travVisit_seq_eq_slot_iff, seqSlot_eq_some_iff]
  · rw [travVisit_scat_eq_slot_iff, scatSlot_eq_some_iff]
  · obtain ⟨x, hx, hxn⟩ := seqSlot_of_lt ht
    obtain ⟨y, hy, -⟩ := seqSlot_of_lt hu
    obtain ⟨hp, hch⟩ := seqSlot_eq_some_iff.mp hx
    refine ⟨x, y, hx, hy, hp, hch, hxn, fun h => ?_⟩
    obtain rfl : x = y := slot_eq_of_pixByteAddr_eq h
    exact seqSlot_inj hok.1 hx hy
  · obtain ⟨x, hx, hx1, hxn⟩ := scatSlot_of_lt ht
    obtain ⟨y, hy, -⟩ := scatSlot_of_lt hu
    obtain ⟨hp, hch⟩ := scatSlot_eq_some_iff.mp hx
    refine ⟨x, y, hx, hy, hp, hch, hx1, hxn, fun h => ?_⟩
    obtain rfl : x = y := slot_eq_of_pixByteAddr_eq h
    exact scatSlot_inj hok.1 hx hy

end Sys2Proof.Machine
end

section
/-! PROOFS. One step of EMBED and one of SCAN in a run (spec 41_lsb_engine.md R155, R156, R175, R183, R185;
42_scatter.md R205). -/

namespace Sys2Proof.Machine

/-- Bit `j` of the payload of the first `len` symbols, in codes of `k` bits (R156). -/
def payloadBitAt (s : State) (len k j : Nat) : Bool := (payloadCode s len (j / k)).testBit (k - 1 - j % k)

section Traversal
variable {s : State} {trav : Trav} {chs : List Channel}

/-- A slot visited below the capacity lies in the buffer, under scatter outside pixel 0 (R154, R202). -/
theorem travVisit_slot_bounds (hc : Captured trav chs s) (hg : TravAt trav s) (hlt : s.eng.t < s.eng.cap) {sl : Slot}
    (hv : travVisit trav s.eng = .slot sl) : sl.p < s.W * s.H ∧ (trav = .scat → 1 ≤ sl.p) := by
  rcases travVisit_cases hc hg hlt with ⟨-, hskip, -⟩ | ⟨sl', hv', hp, h1⟩
  · cases hskip.symm.trans hv
  · obtain rfl : sl' = sl := by simpa [hv] using hv'.symm
    exact ⟨hp, fun htr => (h1 htr).1⟩

/-- A visit below the capacity skips or finds a slot (R155). -/
theorem travVisit_skip_or_slot (hc : Captured trav chs s) (hg : TravAt trav s) (hlt : s.eng.t < s.eng.cap) :
    travVisit trav s.eng = .skip ∨ ∃ sl, travVisit trav s.eng = .slot sl :=
  (travVisit_cases hc hg hlt).imp (fun h => h.2.1) fun ⟨sl, hv, _⟩ => ⟨sl, hv⟩

end Traversal

/-! EMBED. -/

section Embed
variable {s : State} {trav : Trav} {embed : Embed} {chs : List Channel}

theorem encCount_more (trav : Trav) (h : s.eng.t + 1 ≠ s.eng.need) :
    encCount trav s = { s with eng := { s.eng with t := s.eng.t + 1 } } := if_neg h

theorem encCount_last (trav : Trav) (h : s.eng.t + 1 = s.eng.need) :
    encCount trav s = encFinish trav .ok 0 0 { s with eng := { s.eng with t := s.eng.t + 1 } } := if_pos h

theorem encEmbed_skip (h : travVisit trav s.eng = .skip) :
    encEmbed trav embed s = .next { s with eng := travAdvance trav s.eng } := by
  simp only [encEmbed, h]

/-- What EMBED leaves when it has stored bit `b` in slot `sl`, before it counts it (R175). -/
def embedded (trav : Trav) (embed : Embed) (sl : Slot) (b : Bool) (acc : Byte) (s : State) : State :=
  embedSlot embed sl b { s with eng := { travAdvance trav s.eng with i := s.eng.t / s.eng.k, acc := acc } }

/-- In a run a visited slot takes the payload bit at `E.t` (R156, R175). -/
theorem EmbedAt.encEmbed_slot (h : EmbedAt trav embed chs s) (hok : s.cfg.Ok) {sl : Slot}
    (hv : travVisit trav s.eng = .slot sl) :
    ∃ acc, encEmbed trav embed s =
      .next (encCount trav (embedded trav embed sl (payloadBitAt s s.eng.len.toNat s.eng.k s.eng.t) acc s)) := by
  obtain ⟨acc, hload, hacc⟩ := h.exists_load hok
  have hp := h.runs.captured.pix_lt (travVisit_slot_bounds h.runs.captured h.trav h.t_lt_cap hv).1
  refine ⟨acc, ?_⟩
  have hbit : payloadBit { travAdvance trav s.eng with i := s.eng.t / s.eng.k, acc := acc } =
      payloadBitAt s s.eng.len.toNat s.eng.k s.eng.t := by
    rw [travAdvance_eq, payloadBitAt, ← hacc]
    rfl
  simp only [encEmbed, hv, if_pos hp, hload, hbit, embedded]

@[simp] theorem embedded_regs (sl : Slot) (b : Bool) (acc : Byte) :
    (embedded trav embed sl b acc s).regs = s.regs := rfl
@[simp] theorem embedded_msg (sl : Slot) (b : Bool) (acc : Byte) :
    (embedded trav embed sl b acc s).msg = s.msg := rfl
@[simp] theorem embedded_eng (sl : Slot) (b : Bool) (acc : Byte) :
    (embedded trav embed sl b acc s).eng =
      { travAdvance trav s.eng with i := s.eng.t / s.eng.k, acc := acc } := rfl

theorem pixRead_embedded_same (hwf : Memory.wf s.pix) (sl : Slot) (b : Bool) (acc : Byte) :
    (embedded trav embed sl b acc s).pixRead sl.p =
      setchan (s.pixRead sl.p) sl.ch (embedBit embed (chan (s.pixRead sl.p) sl.ch) b) :=
  State.pixRead_pixWrite_same (s := { s with eng := _ }) hwf sl.p _

theorem pixRead_embedded_other (hwf : Memory.wf s.pix) {sl : Slot} (b : Bool) (acc : Byte) {p : Nat} (hp : p ≠ sl.p) :
    (embedded trav embed sl b acc s).pixRead p = s.pixRead p :=
  pixRead_embedSlot_other (s := { s with eng := _ }) hwf embed sl b hp

@[simp] theorem travAdvance_t (trav : Trav) (e : Engine) : (travAdvance trav e).t = e.t := by cases trav <;> rfl
@[simp] theorem travAdvance_need (trav : Trav) (e : Engine) : (travAdvance trav e).need = e.need := by
  cases trav <;> rfl
@[simp] theorem travAdvance_cap (trav : Trav) (e : Engine) : (travAdvance trav e).cap = e.cap := by
  cases trav <;> rfl
@[simp] theorem travAdvance_i (trav : Trav) (e : Engine) : (travAdvance trav e).i = e.i := by cases trav <;> rfl
@[simp] theorem travAdvance_k (trav : Trav) (e : Engine) : (travAdvance trav e).k = e.k := by cases trav <;> rfl
@[simp] theorem travAdvance_nb (trav : Trav) (e : Engine) : (travAdvance trav e).nb = e.nb := by cases trav <;> rfl
@[simp] theorem travAdvance_acc (trav : Trav) (e : Engine) : (travAdvance trav e).acc = e.acc := by
  cases trav <;> rfl

@[simp] theorem pixRead_encCount (trav : Trav) (s : State) (p : Nat) : (encCount trav s).pixRead p = s.pixRead p := by
  simp only [State.pixRead, encCount_pix]

/-- Settles O36: EMBED skips, or stores the payload bit at `E.t` and counts it. -/
theorem encodeEmbedsOneBit : Obligations.EncodeEmbedsOneBit := by
  intro s trav embed chs hi hs hc next
  have hat := hi.embedAt hs hc
  have hnext : next = travAdvance trav s.eng := by cases trav <;> rfl
  rw [hnext, exec_encode_embed hs]
  rcases travVisit_skip_or_slot hat.runs.captured hat.trav hat.t_lt_cap with hv | ⟨sl, hv⟩
  · refine ⟨_, encEmbed_skip hv, rfl, rfl, fun _ => rfl, fun sl hv' => ?_⟩
    cases hv.symm.trans hv'
  · obtain ⟨acc, hstep⟩ := hat.encEmbed_slot hi.cfg hv
    obtain ⟨hp, hp0⟩ := travVisit_slot_bounds hat.runs.captured hat.trav hat.t_lt_cap hv
    refine ⟨_, hstep, by simp, by simp, fun hskip => ?_, fun sl' hv' => ?_⟩
    · cases hv.symm.trans hskip
    obtain rfl : sl' = sl := by simpa [hv] using hv'.symm
    refine ⟨hp, ?_, fun p hne => ?_, by simp, by simp, fun hmore => ?_, fun hlast => ?_⟩
    · rw [pixRead_encCount, pixRead_embedded_same hi.pixWf]
      rfl
    · rw [pixRead_encCount, pixRead_embedded_other hi.pixWf _ _ hne]
    · rw [encCount_more trav (by simpa using Nat.ne_of_lt hmore)]
      exact ⟨by simp [hs], rfl⟩
    · have hseed : trav = .scat →
          (embedded trav embed sl' (payloadBitAt s s.eng.len.toNat s.eng.k s.eng.t) acc s).pixRead 0 = s.pixRead 0 :=
        fun htr => pixRead_embedded_other hi.pixWf _ _ (by have := hp0 htr; omega)
      rw [encCount_last trav (by simpa using hlast), encFinish_eq]
      refine ⟨rfl, ?_⟩
      cases trav with
      | seq => rfl
      | scat =>
        rw [if_pos rfl, if_pos rfl, ← hseed rfl]
        rfl

end Embed

/-! SCAN. -/

section Scan
variable {s : State} {trav : Trav} {chs : List Channel}

theorem decScan_exhausted (trav : Trav) (h : s.eng.t = s.eng.cap) :
    decScan trav s = .next (decFinish trav .noPayloadFound (natWord s.eng.i) 0 s) := by
  rw [decScan, if_pos h]

theorem decScan_skip (hne : s.eng.t ≠ s.eng.cap) (hv : travVisit trav s.eng = .skip) :
    decScan trav s = .next { s with eng := travAdvance trav s.eng } := by
  simp only [decScan, if_neg hne, hv]

theorem ScanAt.t_lt_cap (h : ScanAt trav chs s) (hne : s.eng.t ≠ s.eng.cap) : s.eng.t < s.eng.cap :=
  Nat.lt_of_le_of_ne h.t_le hne

/-- In a run the LSB of a visited slot enters the accumulator (R183). -/
theorem ScanAt.decScan_slot (h : ScanAt trav chs s) (hne : s.eng.t ≠ s.eng.cap) {sl : Slot}
    (hv : travVisit trav s.eng = .slot sl) :
    decScan trav s = .next (decShift (slotBit sl s) { s with eng := travAdvance trav s.eng }) := by
  have hp := h.runs.captured.pix_lt (travVisit_slot_bounds h.runs.captured h.trav (h.t_lt_cap hne) hv).1
  simp only [decScan, if_neg hne, hv, if_pos hp]

/-- Settles O40: SCAN ends the command, skips, or shifts the LSB in and counts it. -/
theorem decodeScansOneBit : Obligations.DecodeScansOneBit := by
  intro s trav chs hi hs hc
  have hat := hi.scanAt hs hc
  rw [exec_decode_scan hs]
  refine ⟨fun hend => ?_, fun hne => ?_⟩
  · rw [decScan_exhausted trav hend, decFinish_eq]
    rfl
  intro next
  have hnext : next = travAdvance trav s.eng := by cases trav <;> rfl
  rw [hnext]
  rcases travVisit_skip_or_slot hat.runs.captured hat.trav (hat.t_lt_cap hne) with hv | ⟨sl, hv⟩
  · refine ⟨_, decScan_skip hne hv, rfl, rfl, rfl, rfl, rfl, fun _ => rfl, fun sl hv' => ?_⟩
    cases hv.symm.trans hv'
  · refine ⟨_, hat.decScan_slot hne hv, by simp, by simp, by simp, by simp, by simp, fun hskip => ?_, fun sl' hv' => ?_⟩
    · cases hv.symm.trans hskip
    obtain rfl : sl' = sl := by simpa [hv] using hv'.symm
    have hp := (travVisit_slot_bounds hat.runs.captured hat.trav (hat.t_lt_cap hne) hv).1
    refine ⟨hp, by simp, by simp, by simp, ?_, by simp [hs]⟩
    have hshift := (shiftIn_toNat (hat.runs.captured.k_bounds hi.cfg).2 hat.nb hat.acc (slotBit sl' s)).1
    simpa [slotBit] using hshift

end Scan

end Sys2Proof.Machine
end

section
/-! PROOFS. The visits of a traversal in their order (spec 41_lsb_engine.md R154, R155; 42_scatter.md R202 to R206). -/

namespace Sys2Proof.Machine

section VisitsAt
variable {trav : Trav} {seed : Word} {M : Nat} {chs : List Channel} {i j : Nat} {sl sl' : Slot}

/-- The slot visited at `E.t` is the traversal's slot number `E.t` (R155, R205). -/
theorem visitsAt_of_travVisit {s : State} (hc : Captured trav chs s) (hg : TravAt trav s)
    (hv : travVisit trav s.eng = .slot sl) : VisitsAt trav (s.pixRead 0) s.eng.cap chs s.eng.t sl := by
  cases trav with
  | seq =>
    rw [travVisit_seq_eq_slot_iff, hc.nc, hc.chans] at hv
    exact hv
  | scat =>
    have hgen := hg rfl
    rw [travVisit_scat_eq_slot_iff, hc.nc, hc.chans, hgen.x, hgen.M, hgen.seed] at hv
    refine ⟨s.eng.g, hv.1, ?_, hv.2⟩
    rw [hgen.t, hgen.M, hgen.seed]

/-- The sequential visits do not depend on the seed (R154). -/
theorem VisitsAt.of_seed {seed' : Word} (h : VisitsAt trav seed M chs j sl) (hs : trav = .scat → seed' = seed) :
    VisitsAt trav seed' M chs j sl := by
  cases trav with
  | seq => exact h
  | scat => rwa [hs rfl]

/-- An accepted draw is counted, so no later draw has the same count (R205). -/
theorem acceptedDraws_lt {n n' : Nat} (h : genDraw seed M n < M) (hlt : n < n') :
    acceptedDraws seed M n < acceptedDraws seed M n' := by
  have hsucc := acceptedDraws_succ seed M n
  rw [if_pos h] at hsucc
  have hmono := acceptedDraws_mono seed M (show n + 1 ≤ n' from hlt)
  omega

/-- The `j`-th visit is of one slot (R155). -/
theorem VisitsAt.unique (h : VisitsAt trav seed M chs j sl) (h' : VisitsAt trav seed M chs j sl') : sl = sl' := by
  cases trav with
  | seq => exact Option.some.inj (Eq.trans (Eq.symm h) h')
  | scat =>
    obtain ⟨n, hn, hj, hsl⟩ := h
    obtain ⟨n', hn', hj', hsl'⟩ := h'
    obtain rfl : n = n' := by
      rcases Nat.lt_trichotomy n n' with hlt | heq | hlt
      · have := acceptedDraws_lt hn hlt
        omega
      · exact heq
      · have := acceptedDraws_lt hn' hlt
        omega
    exact Option.some.inj (hsl.symm.trans hsl')

/-- No slot is visited twice (R154, R206). -/
theorem VisitsAt.inj (hnd : chs.Nodup) (hi : i < M) (hj : j < M) (h : VisitsAt trav seed M chs i sl)
    (h' : VisitsAt trav seed M chs j sl) : i = j := by
  cases trav with
  | seq => exact seqSlot_inj hnd h h'
  | scat =>
    obtain ⟨n, -, rfl, hsl⟩ := h
    obtain ⟨n', -, rfl, hsl'⟩ := h'
    have hperiod : n ∈ Finset.range (2 ^ genExponent M) := Finset.mem_range.mpr (lt_two_pow_of_acceptedDraws_lt hi)
    have hperiod' : n' ∈ Finset.range (2 ^ genExponent M) := Finset.mem_range.mpr (lt_two_pow_of_acceptedDraws_lt hj)
    rw [genDraw_injOn seed M hperiod hperiod' (scatSlot_inj hnd hsl hsl')]

/-- A visit below the capacity lies in the buffer, under scatter outside pixel 0 (R154, R202). -/
theorem VisitsAt.bounds {w h : Nat} (hj : j < capacityBits trav w h chs.length)
    (hv : VisitsAt trav seed (capacityBits trav w h chs.length) chs j sl) :
    sl.p < w * h ∧ (trav = .scat → 1 ≤ sl.p) := by
  cases trav with
  | seq =>
    obtain ⟨sl', hsl', hp⟩ := seqSlot_of_lt hj
    obtain rfl : sl' = sl := Option.some.inj (hsl'.symm.trans hv)
    exact ⟨hp, nofun⟩
  | scat =>
    obtain ⟨n, hn, -, hsl⟩ := hv
    obtain ⟨sl', hsl', h1, hp⟩ := scatSlot_of_lt hn
    obtain rfl : sl' = sl := Option.some.inj (hsl'.symm.trans hsl)
    exact ⟨hp, fun _ => h1⟩

end VisitsAt

/-- How many visits a traversal has at most still to make: the slots left, or the draws left in the period (R206). -/
def travLeft (trav : Trav) (e : Engine) : Nat :=
  match trav with
  | .seq => e.cap - e.t
  | .scat => 2 ^ e.m - e.g

/-- Each visit uses one of them up. -/
theorem travLeft_lt {trav : Trav} {s : State} {e : Engine} (hg : TravAt trav s) (hlt : s.eng.t < s.eng.cap)
    (hcap : e.cap = s.eng.cap) (hm : e.m = s.eng.m) (he : e.g = (travAdvance trav s.eng).g)
    (ht : trav = .seq → e.t = s.eng.t + 1) : travLeft trav e < travLeft trav s.eng := by
  cases trav with
  | seq =>
    simp only [travLeft, hcap, ht rfl]
    omega
  | scat =>
    have hgen := hg rfl
    have hperiod : s.eng.g < 2 ^ s.eng.m := by
      rw [hgen.m]
      exact lt_two_pow_of_acceptedDraws_lt (seed := s.eng.seed) (by rw [← hgen.t, hgen.M]; exact hlt)
    have hgs : e.g = s.eng.g + 1 := he
    simp only [travLeft, hm, hgs]
    omega

end Sys2Proof.Machine
end

section
/-! PROOFS. The run of one command from its issue, the engine alone moving (spec 10_state.md R32, R41,
70_reset_and_hazards.md R285). -/

namespace Sys2Proof.Machine

theorem State.not_idle {s : State} {p : Phase} (h : s.eng.state = p) (hp : p ≠ .idle) : ¬ s.Idle := fun hi =>
  hp (h.symm.trans hi)

/-- The engine alone takes the command to its completion, and what is left then satisfies `Q`. -/
def Completes (s : State) (Q : State → Prop) : Prop := ∃ n t, CompletesIn n s t ∧ Q t

/-- A state of the run of the command `i` issued in `s₀`. -/
structure RunOf (i : Instr) (s₀ s : State) : Prop where
  inv : Inv s
  quiet : s.Quiet
  cmd : decode s.eng.cmd = .ok i
  cfg : s.cfg = s₀.cfg
  regs : s.regs = (s₀.issue i).regs

/-- Issuing a command starts its run (R32). -/
theorem RunOf.issue {i : Instr} {s : State} (hi : Inv s) (hq : s.Quiet) (hidle : s.Idle) (hw : i.WellFormed) :
    RunOf i s (s.issue i) where
  inv := by
    have hb : s.busy = false := (State.busy_eq_false s).mpr hidle
    have haccept : s.writeReg .cmd (encode i) = s.issue i := by simp only [State.writeReg, hb]; rfl
    exact haccept ▸ hi.writeReg hq.1 hb .cmd (encode i)
  quiet := hq
  cmd := encodedCommandDecodesBack i hw
  cfg := rfl
  regs := rfl

section RunOf
variable {i : Instr} {s₀ s t : State} {Q : State → Prop} (h : RunOf i s₀ s) (hs : ¬ s.Idle)
  (hx : exec i s = .next t)
include h hs hx

theorem RunOf.step_eq : step s = .next t := by
  rw [step_quiet h.quiet ((State.busy_eq_true s).mpr hs), engineStep_of_ok h.cmd, hx]

/-- A step that does not complete goes on with the run. -/
theorem RunOf.next (ht : ¬ t.Idle) : RunOf i s₀ t := by
  have hstep : engineStep s = .next t := (engineStep_of_ok h.cmd).trans hx
  have hb := (State.busy_eq_true s).mpr hs
  obtain ⟨hcfg, -, hcmd⟩ := (EngineStep.of_engineStep hstep).keeps_command
  refine ⟨(EngineStep.of_engineStep hstep).inv h.inv hb, engineStep_quiet hstep h.quiet, ?_, hcfg.trans h.cfg, ?_⟩
  · rw [hcmd]
    exact h.cmd
  · exact ((resultsChangeOnlyAtCompletion s t hstep).1 ((State.busy_eq_true t).mpr ht)).trans h.regs

theorem RunOf.completes_next (hc : Completes t Q) : Completes s Q := by
  obtain ⟨n, u, hn, hq⟩ := hc
  exact ⟨n + 1, u, completesIn_succ (h.step_eq hs hx) hs hn, hq⟩

theorem RunOf.completes_last (ht : t.Idle) (hq : Q t) : Completes s Q :=
  ⟨1, t, completesIn_one (h.step_eq hs hx) ht hs, hq⟩

end RunOf

section RunOf
variable {i : Instr} {s₀ s : State} {trav : Trav} {chs : List Channel}

theorem RunOf.W_eq (h : RunOf i s₀ s) : s.W = s₀.W := by rw [State.W, h.regs]; rfl

theorem RunOf.H_eq (h : RunOf i s₀ s) : s.H = s₀.H := by rw [State.H, h.regs]; rfl

theorem RunOf.len_eq (h : RunOf i s₀ s) (hc : Captured trav chs s) : s.eng.len.toNat = s₀.L := by
  rw [hc.len, h.regs]
  rfl

theorem RunOf.k_eq (h : RunOf i s₀ s) (hc : Captured trav chs s) : s.eng.k = codeWidth s₀.cfg := by
  rw [hc.k, h.cfg]

theorem RunOf.cap_eq (h : RunOf i s₀ s) (hc : Captured trav chs s) :
    s.eng.cap = capacityBits trav s₀.W s₀.H chs.length := by
  rw [hc.cap, h.W_eq, h.H_eq]

end RunOf

theorem pixRead_of_pix_eq {s t : State} (h : t.pix = s.pix) (p : Nat) : t.pixRead p = s.pixRead p := by
  rw [State.pixRead, State.pixRead, h]

/-- The slot a traversal of the buffer of `s` visits `j`-th (R155). -/
abbrev State.Visits (trav : Trav) (chs : List Channel) (s : State) (j : Nat) (sl : Slot) : Prop :=
  VisitsAt trav (s.pixRead 0) (capacityBits trav s.W s.H chs.length) chs j sl

/-- A visit in a run is that of the traversal of the buffer the command was issued on, where the seed is the same. -/
theorem RunOf.visits {i : Instr} {s₀ s : State} {trav : Trav} {chs : List Channel} {sl : Slot} (h : RunOf i s₀ s)
    (hc : Captured trav chs s) (hg : TravAt trav s) (hv : travVisit trav s.eng = .slot sl)
    (hseed : trav = .scat → s₀.pixRead 0 = s.pixRead 0) : s₀.Visits trav chs s.eng.t sl := by
  have hvisit := (visitsAt_of_travVisit hc hg hv).of_seed hseed
  rwa [h.cap_eq hc] at hvisit

end Sys2Proof.Machine
end

section
/-! PROOFS. A successful ENCODE, from its issue to its completion (spec 41_lsb_engine.md R156, R170 to R177, R191). -/

namespace Sys2Proof.Machine

/-! The payload in the buffer. -/

/-- A pixel word is its four channels (R12). -/
theorem word_ext_chan {v w : Word} (h : ∀ ch, chan v ch = chan w ch) : v = w :=
  word_ext_bytes (h .b) (h .g) (h .r) (h .a)

/-- The first `n` payload bits of the ENCODE issued in `s₀` stand in `s` in the first `n` slots visited, and every other
channel is as it was (R175, R176). -/
structure Wrote (trav : Trav) (embed : Embed) (chs : List Channel) (s₀ : State) (n : Nat) (s : State) : Prop where
  bits : ∀ j < n, ∃ sl, s₀.Visits trav chs j sl ∧ chan (s.pixRead sl.p) sl.ch =
    embedBit embed (chan (s₀.pixRead sl.p) sl.ch) (payloadBitAt s₀ s₀.L (codeWidth s₀.cfg) j)
  kept : ∀ p ch, (∀ j < n, ¬ s₀.Visits trav chs j ⟨p, ch⟩) → chan (s.pixRead p) ch = chan (s₀.pixRead p) ch

section Wrote
variable {trav : Trav} {embed : Embed} {chs : List Channel} {s₀ s t : State} {n : Nat}

theorem Wrote.zero (h : s.pix = s₀.pix) : Wrote trav embed chs s₀ 0 s :=
  ⟨nofun, fun p ch _ => by rw [pixRead_of_pix_eq h]⟩

theorem Wrote.of_pix (h : Wrote trav embed chs s₀ n s) (hp : t.pix = s.pix) : Wrote trav embed chs s₀ n t :=
  ⟨by simpa only [pixRead_of_pix_eq hp] using h.bits, by simpa only [pixRead_of_pix_eq hp] using h.kept⟩

/-- The store of the next bit: no slot is visited twice, so it undoes nothing and finds the channel as it was. -/
theorem Wrote.store (h : Wrote trav embed chs s₀ n s) (hnd : chs.Nodup)
    (hn : n < capacityBits trav s₀.W s₀.H chs.length) {sl : Slot} (hv : s₀.Visits trav chs n sl)
    (hsame : chan (t.pixRead sl.p) sl.ch =
      embedBit embed (chan (s.pixRead sl.p) sl.ch) (payloadBitAt s₀ s₀.L (codeWidth s₀.cfg) n))
    (hother : ∀ p ch, ⟨p, ch⟩ ≠ sl → chan (t.pixRead p) ch = chan (s.pixRead p) ch) :
    Wrote trav embed chs s₀ (n + 1) t := by
  have hnew : ∀ j < n, ¬ s₀.Visits trav chs j sl := fun j hj hvj =>
    Nat.ne_of_lt hj (hvj.inj hnd (Nat.lt_trans hj hn) hn hv)
  refine ⟨fun j hj => ?_, fun p ch hnone => ?_⟩
  · rcases Nat.lt_succ_iff_lt_or_eq.mp hj with hj | rfl
    · obtain ⟨sl', hv', hbit⟩ := h.bits j hj
      have hne : sl' ≠ sl := fun heq => hnew j hj (heq ▸ hv')
      exact ⟨sl', hv', (hother sl'.p sl'.ch hne).trans hbit⟩
    · exact ⟨sl, hv, by rw [hsame, h.kept sl.p sl.ch hnew]⟩
  · have hne : (⟨p, ch⟩ : Slot) ≠ sl := fun heq => hnone n (Nat.lt_succ_self n) (heq ▸ hv)
    rw [hother p ch hne, h.kept p ch fun j hj => hnone j (Nat.lt_succ_of_lt hj)]

/-- Scatter writes no bit in pixel 0, the seed (R177, R202). -/
theorem Wrote.pixRead_zero (h : Wrote trav embed chs s₀ n s) (htr : trav = .scat)
    (hn : n ≤ capacityBits trav s₀.W s₀.H chs.length) : s.pixRead 0 = s₀.pixRead 0 :=
  word_ext_chan fun ch => h.kept 0 ch fun _ hj hv =>
    absurd ((VisitsAt.bounds (Nat.lt_of_lt_of_le hj hn) hv).2 htr) (by simp)

end Wrote

/-- One slot's read-modify-write, channel by channel (R66). -/
theorem chan_embedded_other {s : State} (hwf : Memory.wf s.pix) {trav : Trav} {embed : Embed} {sl : Slot} (b : Bool)
    (acc : Byte) {p : Nat} {ch : Channel} (hne : ⟨p, ch⟩ ≠ sl) :
    chan ((embedded trav embed sl b acc s).pixRead p) ch = chan (s.pixRead p) ch := by
  by_cases hp : p = sl.p
  · subst hp
    have hch : ch ≠ sl.ch := fun h => hne (h ▸ rfl)
    rw [pixRead_embedded_same hwf, chan_setchan, if_neg hch]
  · rw [pixRead_embedded_other hwf b acc hp]

/-- The store of the next bit by EMBED (R175). -/
theorem Wrote.embedded {trav : Trav} {embed : Embed} {chs : List Channel} {s₀ s : State} {n : Nat}
    (h : Wrote trav embed chs s₀ n s) (hnd : chs.Nodup) (hn : n < capacityBits trav s₀.W s₀.H chs.length) {sl : Slot}
    (hv : s₀.Visits trav chs n sl) (hwf : Memory.wf s.pix) (acc : Byte) :
    Wrote trav embed chs s₀ (n + 1)
      (embedded trav embed sl (payloadBitAt s₀ s₀.L (codeWidth s₀.cfg) n) acc s) :=
  h.store hnd hn hv (by rw [pixRead_embedded_same hwf, chan_setchan, if_pos rfl])
    fun _ _ hne => chan_embedded_other hwf _ acc hne

/-- What a successful ENCODE issued in `s₀` leaves (R170, R175, R191). -/
structure Encoded (trav : Trav) (embed : Embed) (chs : List Channel) (s₀ t : State) : Prop where
  err : t.regs.err = .ok
  result : t.regs.result = natWord (codeWidth s₀.cfg * (s₀.L + 1))
  wrote : Wrote trav embed chs s₀ (codeWidth s₀.cfg * (s₀.L + 1)) t
  msg : t.msg = s₀.msg
  cfg : t.cfg = s₀.cfg
  width : t.W = s₀.W
  height : t.H = s₀.H

/-! The phases, from the last. -/

section Phases
variable {trav : Trav} {embed : Embed} {chs : List Channel} {s₀ : State}

/-- EMBED: each step uses up one visit, and the last bit completes the command (R175). -/
theorem encode_completes_of_embed (hnd : chs.Nodup) {s : State} (hr : RunOf (.encode trav embed chs) s₀ s)
    (hs : s.eng.state = .embed) (hmsg : s.msg = s₀.msg) {n : Nat} (hn : s.eng.t = n)
    (hw : Wrote trav embed chs s₀ n s) : Completes s (Encoded trav embed chs s₀) := by
  induction hleft : travLeft trav s.eng using Nat.strong_induction_on generalizing s n with
  | h left ih =>
  subst hleft hn
  have hat := hr.inv.embedAt hs hr.cmd
  have hc := hat.runs.captured
  have hneed : s.eng.need = codeWidth s₀.cfg * (s₀.L + 1) := by rw [hat.fits.need, hr.len_eq hc, hr.k_eq hc]
  have hbusy : ¬ s.Idle := State.not_idle hs nofun
  have hcap := hat.t_lt_cap
  rw [hr.cap_eq hc] at hcap
  rcases travVisit_skip_or_slot hc hat.trav hat.t_lt_cap with hv | ⟨sl, hv⟩
  · obtain ⟨rfl, -⟩ := travVisit_skip hv
    have hx := (exec_encode_embed (embed := embed) (chs := chs) hs).trans (encEmbed_skip hv)
    refine hr.completes_next hbusy hx (ih _ ?_ (hr.next hbusy hx (by simp [hs])) hs hmsg rfl (hw.of_pix rfl) rfl)
    exact travLeft_lt hat.trav hat.t_lt_cap rfl rfl rfl nofun
  · obtain ⟨acc, hstep⟩ := hat.encEmbed_slot hr.inv.cfg hv
    have hx := (exec_encode_embed (chs := chs) hs).trans hstep
    have hbit : payloadBitAt s s.eng.len.toNat s.eng.k s.eng.t =
        payloadBitAt s₀ s₀.L (codeWidth s₀.cfg) s.eng.t := by
      simp only [payloadBitAt, payloadCode, hr.len_eq hc, hr.k_eq hc, hr.cfg, State.msgRead, hmsg]
    rw [hbit] at hx
    have hvisit : s₀.Visits trav chs s.eng.t sl :=
      hr.visits hc hat.trav hv fun htr => (hw.pixRead_zero htr (Nat.le_of_lt hcap)).symm
    have hw' := hw.embedded hnd hcap hvisit hr.inv.pixWf acc
    by_cases hlast : s.eng.t + 1 = s.eng.need
    · rw [encCount_last trav (by simpa using hlast), encFinish_eq] at hx
      refine hr.completes_last hbusy hx rfl ⟨rfl, by simp [hneed], ?_, hmsg, hr.cfg, hr.W_eq, hr.H_eq⟩
      rw [← hneed, ← hlast]
      exact hw'.of_pix rfl
    · rw [encCount_more trav (by simpa using hlast)] at hx
      have hleft := travLeft_lt (e := { travAdvance trav s.eng with
        i := s.eng.t / s.eng.k, acc := acc, t := s.eng.t + 1 }) hat.trav hat.t_lt_cap (by simp)
        (by rw [travAdvance_eq]) rfl fun _ => rfl
      exact hr.completes_next hbusy hx (ih _ (by simpa using hleft) (hr.next hbusy hx (by simp [hs])) (by simp [hs])
        hmsg (by simp) (hw'.of_pix rfl) rfl)

/-- TRAVINIT (R174). -/
theorem encode_completes_of_travinit (hnd : chs.Nodup) {s : State} (hr : RunOf (.encode trav embed chs) s₀ s)
    (hs : s.eng.state = .travinit) (hmsg : s.msg = s₀.msg) (hpix : s.pix = s₀.pix) :
    Completes s (Encoded trav embed chs s₀) := by
  have hbusy : ¬ s.Idle := State.not_idle hs nofun
  have hx := exec_encode_travinit (trav := trav) (embed := embed) (chs := chs) hs
  refine hr.completes_next hbusy hx (encode_completes_of_embed hnd (hr.next hbusy hx (by simp)) (by simp)
    (by simpa using hmsg) (by simp) (.zero (by simpa using hpix)))

variable (hfits : codeWidth s₀.cfg * (s₀.L + 1) ≤ capacityBits trav s₀.W s₀.H chs.length)
include hfits

/-- CAPCHK, where the payload fits (R173). -/
theorem encode_completes_of_capchk (hnd : chs.Nodup) {s : State} (hr : RunOf (.encode trav embed chs) s₀ s)
    (hs : s.eng.state = .capchk) (hmsg : s.msg = s₀.msg) (hpix : s.pix = s₀.pix) :
    Completes s (Encoded trav embed chs s₀) := by
  have hbusy : ¬ s.Idle := State.not_idle hs nofun
  obtain ⟨trav', embed', chs', hruns, -⟩ := hr.inv.inCapchk hs
  obtain ⟨rfl, rfl, rfl⟩ : trav' = trav ∧ embed' = embed ∧ chs' = chs := by simpa [hr.cmd] using hruns.cmd.symm
  have hc := hruns.captured
  have hfit : s.eng.k * (s.eng.len.toNat + 1) ≤ s.eng.cap := by
    rwa [hr.k_eq hc, hr.len_eq hc, hr.cap_eq hc]
  have hx := exec_encode_capchk (trav := trav') (embed := embed') (chs := chs') hs
  rw [encCapchk_fits trav' hfit] at hx
  exact hr.completes_next hbusy hx
    (encode_completes_of_travinit hnd (hr.next hbusy hx (by simp)) rfl hmsg hpix)

/-- VALIDATE of a valid message (R172). -/
theorem encode_completes_of_validate (hnd : chs.Nodup) (hmap : MappedBelow s₀ s₀.L) {s : State}
    (hr : RunOf (.encode trav embed chs) s₀ s) (hs : s.eng.state = .validate) (hmsg : s.msg = s₀.msg)
    (hpix : s.pix = s₀.pix) : Completes s (Encoded trav embed chs s₀) := by
  induction hleft : s.eng.len.toNat - s.eng.i using Nat.strong_induction_on generalizing s with
  | h left ih =>
  subst hleft
  have hbusy : ¬ s.Idle := State.not_idle hs nofun
  obtain ⟨trav', embed', chs', hruns, hlt, -⟩ := hr.inv.inValidate hs
  have hlen : s.eng.len.toNat = s₀.L := hr.len_eq hruns.captured
  have hcode : codeOf s.cfg (s.msgRead s.eng.i) ≠ none := by
    rw [hr.cfg, State.msgRead, hmsg]
    exact Option.isSome_iff_ne_none.mp (hmap _ (hlen ▸ hlt))
  have hx := (exec_encode_validate (trav := trav) (embed := embed) (chs := chs) hs).trans
    (encValidate_mapped (Nat.lt_of_lt_of_le hlt hruns.len) trav hcode)
  by_cases hlast : s.eng.i + 1 = s.eng.len.toNat
  · have ht : (encSymbolOk s).eng.state = .capchk := by simp [hlast]
    exact hr.completes_next hbusy hx (encode_completes_of_capchk hfits hnd
      (hr.next hbusy hx (State.not_idle ht nofun)) ht (by simpa using hmsg) (by simpa using hpix))
  · have ht : (encSymbolOk s).eng.state = .validate := by simp [hlast, hs]
    refine hr.completes_next hbusy hx (ih _ ?_ (hr.next hbusy hx (State.not_idle ht nofun)) ht (by simpa using hmsg)
      (by simpa using hpix) rfl)
    simp only [encSymbolOk_eng]
    omega

/-- ENCODE of a valid message that fits, issued in an idle block (R170). -/
theorem encode_completes (hi : Inv s₀) (hq : s₀.Quiet) (hidle : s₀.Idle) (hchs : ChannelsOk chs)
    (hb : bufferOk s₀.cfg s₀.W s₀.H = true) (hlen : s₀.L ≤ s₀.cfg.msgBytesMax) (hmap : MappedBelow s₀ s₀.L) :
    Completes (s₀.issue (.encode trav embed chs)) (Encoded trav embed chs s₀) := by
  have hr : RunOf (.encode trav embed chs) s₀ (s₀.issue (.encode trav embed chs)) := .issue hi hq hidle hchs
  have hbusy : ¬ (s₀.issue (.encode trav embed chs)).Idle := nofun
  have hx := exec_encode_check (s := s₀.issue (.encode trav embed chs)) (trav := trav) (embed := embed) (chs := chs)
    rfl hb
  have hle : ¬ s₀.cfg.msgBytesMax < s₀.L := Nat.not_lt.mpr hlen
  by_cases h0 : s₀.regs.msgLen = 0
  · rw [encCheck_empty trav hle h0] at hx
    exact hr.completes_next hbusy hx
      (encode_completes_of_capchk hfits hchs.1 (hr.next hbusy hx nofun) rfl rfl rfl)
  · rw [encCheck_message trav hle h0] at hx
    exact hr.completes_next hbusy hx
      (encode_completes_of_validate hfits hchs.1 hmap (hr.next hbusy hx nofun) rfl rfl rfl)

end Phases

/-- Settles O55: what `Encoded` says, the payload's code and bit written out. -/
theorem encodeWritesThePayloadAndNothingElse : Obligations.EncodeWritesThePayloadAndNothingElse := by
  intro s trav embed chs hi hq hidle hchs hb hlen hmap cap k hfits
  obtain ⟨n, t, hn, hdone⟩ := encode_completes (embed := embed) hfits hi hq hidle hchs hb hlen hmap
  exact ⟨n, t, hn, hdone.err, hdone.result, hdone.msg, hdone.wrote.bits, hdone.wrote.kept⟩

end Sys2Proof.Machine
end

section
/-! PROOFS. A DECODE, from its issue to its completion (spec 41_lsb_engine.md R180 to R188). -/

namespace Sys2Proof.Machine

/-- The leading bits of a number: one more of them. -/
theorem div_two_pow_eq (c n : Nat) : c / 2 ^ n = 2 * (c / 2 ^ (n + 1)) + (c.testBit n).toNat := by
  rw [Nat.toNat_testBit, Nat.pow_succ, ← Nat.div_div_eq_div_mul, Nat.div_add_mod]

/-- The LSBs that a traversal of the buffer of `r` visits are `len` codes of symbols and the terminator (R156, R188). -/
structure Carries (trav : Trav) (chs : List Channel) (r : State) (len : Nat) (code : Nat → Nat) (sym : Nat → Byte) :
    Prop where
  room : len ≤ r.cfg.msgBytesMax
  fits : codeWidth r.cfg * (len + 1) ≤ capacityBits trav r.W r.H chs.length
  bits : ∀ j < codeWidth r.cfg * (len + 1), ∀ sl, r.Visits trav chs j sl →
    slotBit sl r = (code (j / codeWidth r.cfg)).testBit (codeWidth r.cfg - 1 - j % codeWidth r.cfg)
  symbols : ∀ i < len, symbolOf r.cfg (code i) = some (sym i)
  terminator : code len = 0

/-- What a DECODE of `len` symbols leaves (R181, R184). -/
structure Decoded (len : Nat) (sym : Nat → Byte) (u : State) : Prop where
  err : u.regs.err = .ok
  msgLen : u.regs.msgLen = natWord len
  result : u.regs.result = natWord len
  errIndex : u.regs.errIndex = 0
  errValue : u.regs.errValue = 0
  msg : ∀ i < len, u.msgRead i = sym i

/-- A state of the run of the DECODE issued in `r`: the symbols decoded so far are those of the message. -/
structure Decodes (trav : Trav) (chs : List Channel) (r : State) (len : Nat) (sym : Nat → Byte) (s : State) : Prop where
  run : RunOf (.decode trav chs) r s
  pix : s.pix = r.pix
  i_le : s.eng.i ≤ len
  msg : ∀ q < s.eng.i, s.msgRead q = sym q

section Decode
variable {trav : Trav} {chs : List Channel} {r : State} {len : Nat} {code : Nat → Nat} {sym : Nat → Byte}

theorem Carries.code_lt (h : Carries trav chs r len code sym) (hok : r.cfg.Ok) {i : Nat} (hi : i ≤ len) :
    code i < 2 ^ codeWidth r.cfg := by
  rcases Nat.lt_or_eq_of_le hi with hlt | rfl
  · exact (code_bounds hok ((symbolOf_eq_some_iff_codeOf hok _ _).mp (h.symbols i hlt))).2.2
  · rw [h.terminator]
    exact Nat.two_pow_pos _

theorem Carries.code_ne_zero (h : Carries trav chs r len code sym) (hok : r.cfg.Ok) {i : Nat} (hi : i < len) :
    code i ≠ 0 := fun h0 => by
  have hsym := h.symbols i hi
  rw [h0, symbolOf_zero hok] at hsym
  cases hsym

/-- DECODE_CODE: a symbol is stored and the scan goes on, or the terminator completes the command (R184). -/
theorem decode_completes_of_decodeCode (hcar : Carries trav chs r len code sym) {s : State}
    (hd : Decodes trav chs r len sym s) (hs : s.eng.state = .decodeCode) (hacc : s.eng.acc.toNat = code s.eng.i)
    (hnext : ∀ t, Decodes trav chs r len sym t → t.eng.state = .scan → t.eng.acc = 0 → t.eng.nb = 0 →
      travLeft trav t.eng = travLeft trav s.eng → Completes t (Decoded len sym)) :
    Completes s (Decoded len sym) := by
  have hrun := hd.run
  have hok : r.cfg.Ok := hrun.cfg ▸ hrun.inv.cfg
  have hbusy : ¬ s.Idle := State.not_idle hs nofun
  rcases Nat.lt_or_eq_of_le hd.i_le with hlt | heq
  · have hne : s.eng.acc ≠ 0 := fun h0 => hcar.code_ne_zero hok hlt (by rw [← hacc, h0]; rfl)
    have hsym : symbolOf s.cfg s.eng.acc.toNat = some (sym s.eng.i) := by
      rw [hrun.cfg, hacc]
      exact hcar.symbols _ hlt
    have hroom : s.eng.i < s.cfg.msgBytesMax := by
      rw [hrun.cfg]
      exact Nat.lt_of_lt_of_le hlt hcar.room
    have hx := (exec_decode_decodeCode (trav := trav) (chs := chs) hs).trans (decCode_symbol trav hne hsym hroom)
    refine hrun.completes_next hbusy hx (hnext _ ⟨hrun.next hbusy hx nofun, hd.pix, hlt, fun q hq => ?_⟩ rfl rfl rfl
      (by cases trav <;> rfl))
    rw [State.msgRead, Memory.read_write hrun.inv.msgWf]
    split
    · rw [‹q = _›]
    · have hle : q < s.eng.i + 1 := hq
      exact hd.msg q (by omega)
  · have hzero : s.eng.acc = 0 := BitVec.eq_of_toNat_eq (by rw [hacc, heq, hcar.terminator]; rfl)
    have hx := (exec_decode_decodeCode (trav := trav) (chs := chs) hs).trans (decCode_terminator trav hzero)
    rw [decFinish_eq] at hx
    exact hrun.completes_last hbusy hx rfl
      ⟨rfl, congrArg natWord heq, congrArg natWord heq, rfl, rfl, fun i hi => hd.msg i (heq ▸ hi)⟩

/-- Where the scan stands: `E.i` whole codes and `E.nb` bits (R183). -/
theorem Decodes.t_eq {s : State} (hd : Decodes trav chs r len sym s) (hat : ScanAt trav chs s) :
    s.eng.t = codeWidth r.cfg * s.eng.i + s.eng.nb := by
  rw [hat.t, hd.run.k_eq hat.runs.captured, Nat.mul_comm]

theorem Decodes.t_lt {s : State} (hd : Decodes trav chs r len sym s) (hat : ScanAt trav chs s) :
    s.eng.t < codeWidth r.cfg * (len + 1) := by
  have hnb := hat.nb
  rw [hd.run.k_eq hat.runs.captured] at hnb
  calc s.eng.t < codeWidth r.cfg * s.eng.i + codeWidth r.cfg := by rw [hd.t_eq hat]; omega
    _ = codeWidth r.cfg * (s.eng.i + 1) := (Nat.mul_succ _ _).symm
    _ ≤ codeWidth r.cfg * (len + 1) := Nat.mul_le_mul_left _ (Nat.succ_le_succ hd.i_le)

/-- The LSB of a visited slot is the next bit of the code that the scan is in (R183). -/
theorem Decodes.slotBit_eq (hcar : Carries trav chs r len code sym) {s : State} (hd : Decodes trav chs r len sym s)
    (hat : ScanAt trav chs s) {sl : Slot} (hv : travVisit trav s.eng = .slot sl) :
    slotBit sl s = (code s.eng.i).testBit (codeWidth r.cfg - 1 - s.eng.nb) := by
  have hc := hat.runs.captured
  have hnb := hat.nb
  rw [hd.run.k_eq hc] at hnb
  have hpix := pixRead_of_pix_eq hd.pix
  have hvisit : r.Visits trav chs s.eng.t sl := hd.run.visits hc hat.trav hv fun _ => (hpix 0).symm
  have hread := hcar.bits _ (hd.t_lt hat) sl hvisit
  have hdiv : s.eng.t / codeWidth r.cfg = s.eng.i := by
    rw [hd.t_eq hat, Nat.mul_add_div (codeWidth_pos _), Nat.div_eq_of_lt hnb, Nat.add_zero]
  have hmod : s.eng.t % codeWidth r.cfg = s.eng.nb := by
    rw [hd.t_eq hat, Nat.mul_add_mod, Nat.mod_eq_of_lt hnb]
  rw [hdiv, hmod] at hread
  rw [← hread, slotBit, slotBit, hpix]

/-- So the accumulator takes one more leading bit of the code (R183). -/
theorem Decodes.shiftIn_eq (hcar : Carries trav chs r len code sym) {s : State} (hd : Decodes trav chs r len sym s)
    (hat : ScanAt trav chs s) {sl : Slot} (hv : travVisit trav s.eng = .slot sl)
    (hacc : s.eng.acc.toNat = code s.eng.i / 2 ^ (codeWidth r.cfg - s.eng.nb)) :
    (shiftIn s.eng.k s.eng.acc (slotBit sl s)).toNat = code s.eng.i / 2 ^ (codeWidth r.cfg - (s.eng.nb + 1)) := by
  have hnb := hat.nb
  rw [hd.run.k_eq hat.runs.captured] at hnb
  rw [(shiftIn_toNat (hat.runs.captured.k_bounds hd.run.inv.cfg).2 hat.nb hat.acc _).1, hacc, hd.slotBit_eq hcar hat hv,
    div_two_pow_eq _ (codeWidth r.cfg - (s.eng.nb + 1)),
    show codeWidth r.cfg - (s.eng.nb + 1) + 1 = codeWidth r.cfg - s.eng.nb by omega,
    show codeWidth r.cfg - 1 - s.eng.nb = codeWidth r.cfg - (s.eng.nb + 1) by omega]

/-- What SCAN leaves after a visited slot (R183). -/
def scanned (trav : Trav) (sl : Slot) (s : State) : State :=
  decShift (slotBit sl s) { s with eng := travAdvance trav s.eng }

/-- A visited slot uses up one visit. -/
theorem travLeft_scanned_lt {s : State} (hg : TravAt trav s) (hlt : s.eng.t < s.eng.cap) (sl : Slot) :
    travLeft trav (scanned trav sl s).eng < travLeft trav s.eng :=
  travLeft_lt hg hlt (by simp [scanned]) (by rw [scanned, decShift_eng, travAdvance_eq]) (by simp [scanned])
    fun _ => by simp [scanned]

/-- SCAN: each step uses up one visit, and `E.acc` is the leading bits of the code (R183). -/
theorem decode_completes_of_scan (hcar : Carries trav chs r len code sym) {s : State}
    (hd : Decodes trav chs r len sym s) (hs : s.eng.state = .scan)
    (hacc : s.eng.acc.toNat = code s.eng.i / 2 ^ (codeWidth r.cfg - s.eng.nb)) : Completes s (Decoded len sym) := by
  induction hleft : travLeft trav s.eng using Nat.strong_induction_on generalizing s with
  | h left ih =>
  subst hleft
  have hrun := hd.run
  have hbusy : ¬ s.Idle := State.not_idle hs nofun
  have hat := hrun.inv.scanAt hs hrun.cmd
  have hcap : s.eng.t < s.eng.cap := by
    rw [hrun.cap_eq hat.runs.captured]
    exact Nat.lt_of_lt_of_le (hd.t_lt hat) hcar.fits
  have hx := exec_decode_scan (trav := trav) (chs := chs) hs
  rcases travVisit_skip_or_slot hat.runs.captured hat.trav hcap with hv | ⟨sl, hv⟩
  · rw [decScan_skip (Nat.ne_of_lt hcap) hv] at hx
    obtain ⟨rfl, -⟩ := travVisit_skip hv
    refine hrun.completes_next hbusy hx (ih _ ?_ ⟨hrun.next hbusy hx (by simp [hs]), hd.pix, hd.i_le, hd.msg⟩ hs hacc
      rfl)
    exact travLeft_lt hat.trav hcap rfl rfl rfl nofun
  · have hx : exec (.decode trav chs) s = .next (scanned trav sl s) :=
      hx.trans (hat.decScan_slot (Nat.ne_of_lt hcap) hv)
    have hacc' := hd.shiftIn_eq hcar hat hv hacc
    have hleft := travLeft_scanned_lt hat.trav hcap sl
    have hd' : ¬ (scanned trav sl s).Idle → Decodes trav chs r len sym (scanned trav sl s) := fun hbusy' =>
      ⟨hrun.next hbusy hx hbusy', by simpa [scanned] using hd.pix, by simpa [scanned] using hd.i_le,
        by simpa [scanned, State.msgRead] using hd.msg⟩
    by_cases hfull : s.eng.nb + 1 = s.eng.k
    · have hs' : (scanned trav sl s).eng.state = .decodeCode := by simp [scanned, hfull]
      refine hrun.completes_next hbusy hx (decode_completes_of_decodeCode hcar (hd' (State.not_idle hs' nofun)) hs' ?_
        fun t hdt hst hacct hnbt hleftt => ih _ (hleftt ▸ hleft) hdt hst ?_ rfl)
      · simpa [scanned, hfull, hrun.k_eq hat.runs.captured] using hacc'
      · have hlt := hcar.code_lt (hdt.run.cfg ▸ hdt.run.inv.cfg) hdt.i_le
        rw [hacct, hnbt, Nat.sub_zero, Nat.div_eq_of_lt hlt]
        rfl
    · have hs' : (scanned trav sl s).eng.state = .scan := by simp [scanned, hfull, hs]
      exact hrun.completes_next hbusy hx
        (ih _ hleft (hd' (State.not_idle hs' nofun)) hs' (by simpa [scanned] using hacc') rfl)

/-- CHECK and TRAVINIT of a DECODE issued in an idle block on a valid buffer (R180, R182). -/
theorem decode_completes_of_started {Q : State → Prop} (hi : Inv r) (hq : r.Quiet) (hidle : r.Idle)
    (hchs : ChannelsOk chs) (hb : bufferOk r.cfg r.W r.H = true)
    (hnext : ∀ t, RunOf (.decode trav chs) r t → t.eng.state = .scan → t.pix = r.pix → t.eng.i = 0 → t.eng.nb = 0 →
      t.eng.acc = 0 → Completes t Q) : Completes (r.issue (.decode trav chs)) Q := by
  have hr : RunOf (.decode trav chs) r (r.issue (.decode trav chs)) := .issue hi hq hidle hchs
  have hx := exec_decode_check (s := r.issue (.decode trav chs)) (trav := trav) (chs := chs) rfl hb
  have hr' := hr.next nofun hx nofun
  have hx' := exec_decode_travinit (s := (setCap trav (captureOperands chs (r.issue (.decode trav chs)))).toPhase
    .travinit) (trav := trav) (chs := chs) rfl
  exact hr.completes_next nofun hx (hr'.completes_next nofun hx'
    (hnext _ (hr'.next nofun hx' (by simp)) (by simp) (by simp) (by simp) (by simp) (by simp)))

/-- DECODE of a buffer that carries a message, issued in an idle block (R188). -/
theorem decode_completes (hi : Inv r) (hq : r.Quiet) (hidle : r.Idle) (hchs : ChannelsOk chs)
    (hb : bufferOk r.cfg r.W r.H = true) (hcar : Carries trav chs r len code sym) :
    Completes (r.issue (.decode trav chs)) (Decoded len sym) :=
  decode_completes_of_started hi hq hidle hchs hb fun t hrun hs hpix hi0 hnb hacc =>
    decode_completes_of_scan hcar ⟨hrun, hpix, by omega, fun q hq => by omega⟩ hs (by
      rw [hacc, hi0, hnb, Nat.sub_zero, Nat.div_eq_of_lt (hcar.code_lt hi.cfg (Nat.zero_le _))]
      rfl)

theorem Decoded.L_eq {u : State} (h : Decoded len sym u) (hlen : len ≤ 2 ^ 20) : u.L = len := by
  rw [State.L, h.msgLen, natWord, BitVec.toNat_ofNat, Nat.mod_eq_of_lt (by omega)]

/-! A buffer that carries nothing. -/

/-- A DECODE that ended with no symbol and the result code `err` (R181). -/
def EndedEmpty (err : ErrCode) (u : State) : Prop :=
  u.regs.err = err ∧ u.L = 0 ∧ u.regs.result = 0 ∧ u.regs.errIndex = 0 ∧ u.regs.errValue = 0

theorem Decoded.endedEmpty {u : State} (h : Decoded 0 sym u) : EndedEmpty .ok u :=
  ⟨h.err, h.L_eq (by decide), h.result, h.errIndex, h.errValue⟩

/-- With fewer slots than one code has bits the scan runs out of slots (R185). -/
theorem decode_exhausts (hcap : capacityBits trav r.W r.H chs.length < codeWidth r.cfg) {s : State}
    (hrun : RunOf (.decode trav chs) r s) (hs : s.eng.state = .scan) (hi0 : s.eng.i = 0) :
    Completes s (EndedEmpty .noPayloadFound) := by
  induction hleft : travLeft trav s.eng using Nat.strong_induction_on generalizing s with
  | h left ih =>
  subst hleft
  have hbusy : ¬ s.Idle := State.not_idle hs nofun
  have hat := hrun.inv.scanAt hs hrun.cmd
  have hc := hat.runs.captured
  have hx := exec_decode_scan (trav := trav) (chs := chs) hs
  by_cases hend : s.eng.t = s.eng.cap
  · rw [decScan_exhausted trav hend, decFinish_eq, hi0] at hx
    exact hrun.completes_last hbusy hx rfl ⟨rfl, rfl, rfl, rfl, rfl⟩
  · have hlt := hat.t_lt_cap hend
    rcases travVisit_skip_or_slot hc hat.trav hlt with hv | ⟨sl, hv⟩
    · rw [decScan_skip hend hv] at hx
      obtain ⟨rfl, -⟩ := travVisit_skip hv
      refine hrun.completes_next hbusy hx (ih _ ?_ (hrun.next hbusy hx (by simp [hs])) hs hi0 rfl)
      exact travLeft_lt hat.trav hlt rfl rfl rfl nofun
    · have hx : exec (.decode trav chs) s = .next (scanned trav sl s) := hx.trans (hat.decScan_slot hend hv)
      have hmore : s.eng.nb + 1 ≠ s.eng.k := by
        have ht := hat.t
        rw [hi0, Nat.zero_mul, Nat.zero_add] at ht
        rw [← hrun.cap_eq hc, ← hrun.k_eq hc] at hcap
        omega
      have hs' : (scanned trav sl s).eng.state = .scan := by simp [scanned, hmore, hs]
      exact hrun.completes_next hbusy hx (ih _ (travLeft_scanned_lt hat.trav hlt sl)
        (hrun.next hbusy hx (State.not_idle hs' nofun)) hs' (by simpa [scanned] using hi0) rfl)

/-- A buffer whose first `K` visited LSBs are 0 carries the terminator alone (R188). -/
theorem carries_nothing (hfits : codeWidth r.cfg ≤ capacityBits trav r.W r.H chs.length)
    (hzero : ∀ j < codeWidth r.cfg, ∀ sl, r.Visits trav chs j sl → slotBit sl r = false) (sym : Nat → Byte) :
    Carries trav chs r 0 (fun _ => 0) sym where
  room := Nat.zero_le _
  fits := by simpa using hfits
  bits := fun j hj sl hv => by
    rw [hzero j (by simpa using hj) sl hv, Nat.zero_testBit]
  symbols := nofun
  terminator := rfl

theorem slotBit_of_pixRead_zero {s : State} {sl : Slot} (h : s.pixRead sl.p = 0) : slotBit sl s = false := by
  rw [slotBit, h]
  cases sl.ch <;> rfl

end Decode

/-- Settles O60: with `K` slots the buffer carries the terminator alone, with fewer the scan runs out of slots; in a
buffer of zero pixels every visited LSB is 0. -/
theorem zeroBufferDecodesToEmptyMessage : Obligations.ZeroBufferDecodesToEmptyMessage := by
  intro s trav chs hi hq hidle hchs hb cap k endsWith
  have hends : ∀ {err}, Completes (s.issue (.decode trav chs)) (EndedEmpty err) → endsWith err := id
  have hempty : k ≤ cap → (∀ j < k, ∀ sl, s.Visits trav chs j sl → slotBit sl s = false) → endsWith .ok := by
    intro hfits hzero
    obtain ⟨n, t, hn, ht⟩ := decode_completes hi hq hidle hchs hb (carries_nothing hfits hzero fun _ => 0)
    exact hends ⟨n, t, hn, ht.endedEmpty⟩
  have hnone : cap < k → endsWith .noPayloadFound := fun hlt =>
    hends (decode_completes_of_started hi hq hidle hchs hb fun t hrun hs _ hi0 _ _ => decode_exhausts hlt hrun hs hi0)
  refine ⟨hempty, hnone, fun hpix => ?_⟩
  split
  · exact hempty ‹_› fun j hj sl hv =>
      slotBit_of_pixRead_zero (hpix sl.p (VisitsAt.bounds (Nat.lt_of_lt_of_le hj ‹_›) hv).1)
  · exact hnone (Nat.lt_of_not_le ‹_›)

end Sys2Proof.Machine
end

section
/-! PROOFS. DECODE after ENCODE gives the message back (spec 41_lsb_engine.md R190; 42_scatter.md R177). -/

namespace Sys2Proof.Machine

section RoundTrip
variable {trav : Trav} {embed : Embed} {chs : List Channel} {s t r : State}

/-- A buffer that a successful ENCODE left carries the message, whoever reads it (R156, R159). -/
theorem Encoded.carries (he : Encoded trav embed chs s t) (hok : s.cfg.Ok) (hlen : s.L ≤ s.cfg.msgBytesMax)
    (hmap : MappedBelow s s.L) (hfits : codeWidth s.cfg * (s.L + 1) ≤ capacityBits trav s.W s.H chs.length)
    (hcfg : r.cfg = s.cfg) (hpix : r.pix = t.pix) (hw : r.W = s.W) (hh : r.H = s.H) :
    Carries trav chs r s.L (payloadCode s s.L) s.msgRead where
  room := by rwa [hcfg]
  fits := by rwa [hcfg, hw, hh]
  bits := by
    intro j hj sl hv
    rw [hcfg] at hj ⊢
    have hread := pixRead_of_pix_eq hpix
    rw [State.Visits, hw, hh] at hv
    have hvs : s.Visits trav chs j sl := hv.of_seed fun htr => by rw [hread, he.wrote.pixRead_zero htr hfits]
    obtain ⟨sl', hv', hbit⟩ := he.wrote.bits j hj
    obtain rfl : sl' = sl := hv'.unique hvs
    rw [slotBit, hread, hbit, embedBit_lsb, payloadBitAt]
  symbols := by
    intro i hi
    obtain ⟨c, hc⟩ := Option.isSome_iff_exists.mp (hmap i hi)
    rw [hcfg, payloadCode_eq hi hc]
    exact (symbolOf_eq_some_iff_codeOf hok _ _).mpr hc
  terminator := by simp [payloadCode]

/-- Under either traversal: ENCODE succeeds, and a DECODE of its buffer gives the message back (R190). -/
theorem roundTrip (hi : Inv s) (hq : s.Quiet) (hidle : s.Idle) (hchs : ChannelsOk chs)
    (hb : bufferOk s.cfg s.W s.H = true) (hlen : s.L ≤ s.cfg.msgBytesMax) (hmap : MappedBelow s s.L)
    (hfits : codeWidth s.cfg * (s.L + 1) ≤ capacityBits trav s.W s.H chs.length) :
    ∃ n t, CompletesIn n (s.issue (.encode trav embed chs)) t ∧ Encoded trav embed chs s t ∧
      ∀ r : State, Inv r → r.Quiet → r.Idle → r.cfg = t.cfg → r.pix = t.pix → r.W = t.W → r.H = t.H →
        ∃ n' u, CompletesIn n' (r.issue (.decode trav chs)) u ∧ u.regs.err = .ok ∧ u.L = s.L ∧
          ∀ i < s.L, u.msgRead i = s.msgRead i := by
  obtain ⟨n, t, hn, he⟩ := encode_completes (trav := trav) (embed := embed) hfits hi hq hidle hchs hb hlen hmap
  refine ⟨n, t, hn, he, fun r hir hqr hidler hcfg hpix hw hh => ?_⟩
  have hcfg := hcfg.trans he.cfg
  have hw := hw.trans he.width
  have hh := hh.trans he.height
  have hcar := he.carries hi.cfg hlen hmap hfits hcfg hpix hw hh
  obtain ⟨n', u, hn', hd⟩ := decode_completes hir hqr hidler hchs (by rwa [hcfg, hw, hh]) hcar
  exact ⟨n', u, hn', hd.err, hd.L_eq (Nat.le_trans hlen (msgBytesMax_le hi.cfg)), hd.msg⟩

end RoundTrip

/-- Settles O56: `roundTrip` for the sequential traversal. -/
theorem sequentialRoundTrip : Obligations.SequentialRoundTrip := by
  intro s embed chs hi hq hidle hchs hb hlen hmap hfits
  obtain ⟨n, t, hn, he, hback⟩ := roundTrip (trav := .seq) (embed := embed) hi hq hidle hchs hb hlen hmap hfits
  exact ⟨n, t, hn, he.err, hback⟩

/-- Settles O57: `roundTrip` for the scatter traversal, whose seed the ENCODE leaves alone. -/
theorem scatterRoundTrip : Obligations.ScatterRoundTrip := by
  intro s embed chs hi hq hidle hchs hb hlen hmap hfits
  obtain ⟨n, t, hn, he, hback⟩ := roundTrip (trav := .scat) (embed := embed) hi hq hidle hchs hb hlen hmap hfits
  exact ⟨n, t, hn, he.err, he.wrote.pixRead_zero rfl hfits, hback⟩

end Sys2Proof.Machine
end

section
/-! PROOFS. The scatter generator's period and its worked example (spec 42_scatter.md R203, R206, R210). -/

namespace Sys2Proof.Machine

/-- The exponent is the least that covers the slots (R203). -/
theorem genExponent_le_of_le_two_pow {M e : ℕ} (h : M ≤ 2 ^ e) : genExponent M ≤ e := by
  unfold genExponent
  split
  · exact Nat.zero_le e
  · exact ceilLog2_le h

/-- At exponent `k + 1` there are more than `2^k` slots, or `k` would have covered them (R203, R206). -/
theorem two_pow_genExponent_lt {M : ℕ} (hM : 1 ≤ M) : 2 ^ genExponent M < 2 * M := by
  cases hm : genExponent M with
  | zero => rw [pow_zero]; omega
  | succ k =>
    have hlt : 2 ^ k < M := by
      by_contra hge
      have := genExponent_le_of_le_two_pow (Nat.le_of_not_lt hge)
      omega
    rw [pow_succ]
    omega

/-- Each number below the modulus is drawn in the first period (R206). -/
theorem exists_genDraw_eq (seed : Word) {M v : ℕ} (hv : v < 2 ^ genExponent M) :
    ∃ n < 2 ^ genExponent M, genDraw seed M n = v := by
  have himage := Finset.mem_range.mpr hv
  rw [← image_genDraw seed M] at himage
  simpa only [Finset.mem_image, Finset.mem_range] using himage

/-- Settles O44: the draws of one period are distinct (`genDraw_injOn`), so they are all the residues. -/
theorem generatorHasFullPeriod : Obligations.GeneratorHasFullPeriod := by
  intro seed M hM
  refine ⟨fun v hv => ?_, acceptedDraws_period seed M, two_pow_genExponent_lt hM⟩
  obtain ⟨n, hn, hdraw⟩ := exists_genDraw_eq seed hv
  have huniq : ∀ n' < 2 ^ genExponent M, genDraw seed M n' = v → n' = n := fun n' hn' hdraw' =>
    genDraw_injOn seed M (Finset.mem_range.mpr hn') (Finset.mem_range.mpr hn) (hdraw'.trans hdraw.symm)
  exact ⟨n, hn, hdraw, huniq⟩

/-- Settles O45: the example is closed, so the generator is run. -/
theorem workedScatterExample : Obligations.WorkedScatterExample := by
  unfold Obligations.WorkedScatterExample
  decide

end Sys2Proof.Machine
end

section
/-! PROOFS. The completion of an illegal word (spec 60_exceptions.md R231). -/

namespace Sys2Proof.Machine

theorem illegalStep_check {s : State} (hs : s.eng.state = .check) :
    illegalStep s = .next (s.illegalCompletion s.eng.cmd) := by
  simp only [illegalStep, hs]

/-- The engine's turn is its step while a command runs and `rst` is released (R41, R271). -/
theorem engineTurn_of_busy {s : State} (hr : s.rst = false) (hb : ¬ s.Idle) : engineTurn s = engineStep s := by
  simp only [engineTurn, (State.busy_eq_true s).mpr hb, hr, Bool.not_false, Bool.and_self, if_true]

/-- Settles O9: a word that decodes to no command takes the illegal step, which in CHECK is `State.illegalCompletion`. -/
theorem illegalWordCompletes : Obligations.IllegalWordCompletes := by
  intro s r hr hs hdec
  rw [engineTurn_of_busy hr (State.not_idle hs nofun), engineStep_of_error hdec, illegalStep_check hs]
  rfl

end Sys2Proof.Machine
end

section
/-! PROOFS. The failures of an ENCODE, in the order of its checks, and the steps they take (spec 60_exceptions.md R233,
70_reset_and_hazards.md R285). -/

namespace Sys2Proof.Machine

theorem exec_encode_check_invalid {s : State} {trav : Trav} {embed : Embed} {chs : List Channel}
    (hs : s.eng.state = .check) (hb : ¬ bufferOk s.cfg s.W s.H = true) :
    exec (.encode trav embed chs) s = .next ((captureOperands chs s).invalidBuffer false) := by
  simp only [exec, execEncode, hs, checkTail_of_bad hb]

theorem not_idle_of_capchk_or_validate {s : State} {p : Prop} [Decidable p]
    (h : s.eng.state = if p then .capchk else .validate) : ¬ s.Idle := by
  rw [State.Idle, h]
  split <;> nofun

/-- The ENCODE issued in `s₀` has passed CHECK and found codes for the first `d` symbols (R171, R172). -/
structure Validated (trav : Trav) (embed : Embed) (chs : List Channel) (s₀ : State) (d : Nat) (s : State) : Prop where
  run : RunOf (.encode trav embed chs) s₀ s
  msg : s.msg = s₀.msg
  pix : s.pix = s₀.pix
  index : s.eng.i = d
  phase : s.eng.state = if d = s₀.L then .capchk else .validate

section Validated
variable {trav : Trav} {embed : Embed} {chs : List Channel} {s₀ s : State} {d : Nat}

theorem Validated.busy (h : Validated trav embed chs s₀ d s) : ¬ s.Idle :=
  not_idle_of_capchk_or_validate h.phase

theorem Validated.symbol (h : Validated trav embed chs s₀ d s) : s.msgRead s.eng.i = s₀.msgRead d := by
  rw [State.msgRead, h.msg, h.index, State.msgRead]

theorem Validated.code (h : Validated trav embed chs s₀ d s) :
    codeOf s.cfg (s.msgRead s.eng.i) = codeOf s₀.cfg (s₀.msgRead d) := by
  rw [h.run.cfg, h.symbol]

section Symbol
variable (h : Validated trav embed chs s₀ d s) (hd : d < s₀.L)
include h hd

theorem Validated.state_eq_validate : s.eng.state = .validate := h.phase.trans (if_neg hd.ne)

/-- VALIDATE tries symbol `d`, which lies in MSGMEM (R171). -/
theorem Validated.len_eq_and_index_lt : s.eng.len.toNat = s₀.L ∧ s.eng.i < s.cfg.msgBytesMax := by
  obtain ⟨_, _, _, hruns, hlt, -⟩ := h.run.inv.inValidate (h.state_eq_validate hd)
  exact ⟨h.run.len_eq hruns.captured, hlt.trans_le hruns.len⟩

theorem Validated.exec_mapped (hcode : (codeOf s₀.cfg (s₀.msgRead d)).isSome = true) :
    exec (.encode trav embed chs) s = .next (encSymbolOk s) := by
  rw [← h.code] at hcode
  exact (exec_encode_validate (h.state_eq_validate hd)).trans
    (encValidate_mapped (h.len_eq_and_index_lt hd).2 trav (Option.isSome_iff_ne_none.mp hcode))

theorem Validated.exec_unmapped (hcode : codeOf s₀.cfg (s₀.msgRead d) = none) :
    exec (.encode trav embed chs) s =
      .next (encFinish trav .unsupportedCharacter (natWord d) ((s₀.msgRead d).setWidth 32) s) := by
  rw [exec_encode_validate (h.state_eq_validate hd),
    encValidate_unmapped (h.len_eq_and_index_lt hd).2 trav (h.code.trans hcode), h.symbol, h.index]

/-- A symbol with a code takes one VALIDATE step. -/
theorem Validated.succ (hcode : (codeOf s₀.cfg (s₀.msgRead d)).isSome = true) :
    Validated trav embed chs s₀ (d + 1) (encSymbolOk s) := by
  have hphase : (encSymbolOk s).eng.state = if d + 1 = s₀.L then .capchk else .validate := by
    rw [encSymbolOk_eng, (h.len_eq_and_index_lt hd).1, h.index, h.state_eq_validate hd]
  exact ⟨h.run.next h.busy (h.exec_mapped hd hcode) (not_idle_of_capchk_or_validate hphase), by simp [h.msg],
    by simp [h.pix], by simp [h.index], hphase⟩

end Symbol

/-- After the last symbol, CAPCHK of a payload that does not fit (R173). -/
theorem Validated.exec_exceeds (h : Validated trav embed chs s₀ s₀.L s)
    (hcap : capacityBits trav s₀.W s₀.H chs.length < codeWidth s₀.cfg * (s₀.L + 1)) :
    ∃ need, exec (.encode trav embed chs) s = .next (encFinish trav .capacityExceeded 0
      (natWord (codeWidth s₀.cfg * (s₀.L + 1))) { s with eng := { s.eng with need := need } }) := by
  have hs : s.eng.state = .capchk := h.phase.trans (if_pos rfl)
  obtain ⟨trav', embed', chs', hruns, -⟩ := h.run.inv.inCapchk hs
  obtain ⟨rfl, rfl, rfl⟩ : trav' = trav ∧ embed' = embed ∧ chs' = chs := by
    simpa [h.run.cmd] using hruns.cmd.symm
  have hc := hruns.captured
  rw [← h.run.k_eq hc, ← h.run.len_eq hc, ← h.run.cap_eq hc] at hcap
  rw [exec_encode_capchk hs, encCapchk_exceeds trav' hcap, h.run.k_eq hc, h.run.len_eq hc]
  exact ⟨_, rfl⟩

end Validated

theorem State.issue_not_idle (i : Instr) (s : State) : ¬ (s.issue i).Idle := nofun

section Failures
variable {trav : Trav} {embed : Embed} {chs : List Channel} {s₀ : State} {Q : State → Prop} (hi : Inv s₀)
  (hq : s₀.Quiet) (hidle : s₀.Idle) (hchs : ChannelsOk chs)
include hi hq hidle hchs

theorem RunOf.issue_encode : RunOf (.encode trav embed chs) s₀ (s₀.issue (.encode trav embed chs)) :=
  .issue hi hq hidle hchs

/-- A command whose CHECK step is its last completes in one step. -/
theorem encode_completesIn_one {t : State}
    (hx : exec (.encode trav embed chs) (s₀.issue (.encode trav embed chs)) = .next t) (ht : t.Idle) :
    CompletesIn 1 (s₀.issue (.encode trav embed chs)) t :=
  completesIn_one ((RunOf.issue_encode hi hq hidle hchs).step_eq (State.issue_not_idle _ _) hx) ht
    (State.issue_not_idle _ _)

variable (hb : bufferOk s₀.cfg s₀.W s₀.H = true) (hlen : s₀.L ≤ s₀.cfg.msgBytesMax)
include hb hlen

/-- The CHECK step of a valid buffer and a message that fits MSGMEM (R171). -/
theorem exists_validated_zero : ∃ t,
    exec (.encode trav embed chs) (s₀.issue (.encode trav embed chs)) = .next t ∧
      Validated trav embed chs s₀ 0 t := by
  have hx := exec_encode_check (s := s₀.issue (.encode trav embed chs)) (trav := trav) (embed := embed) (chs := chs)
    rfl hb
  have hphase : (encCheck trav (setCap trav (captureOperands chs
      (s₀.issue (.encode trav embed chs))))).eng.state = if 0 = s₀.L then .capchk else .validate := by
    have h0 : s₀.regs.msgLen = 0 ↔ 0 = s₀.L := BitVec.toNat_inj.symm.trans eq_comm
    rw [encCheck_eng]
    exact (if_neg (Nat.not_lt.mpr hlen)).trans (if_congr h0 rfl rfl)
  have hrun := (RunOf.issue_encode hi hq hidle hchs).next (State.issue_not_idle _ _) hx
    (not_idle_of_capchk_or_validate hphase)
  exact ⟨_, hx, hrun, by simp, by simp, by simp, hphase⟩

/-- CHECK and `d` VALIDATE steps lead to a state in which `d` symbols have codes, so a completion `n` steps from there is
`1 + d + n` steps from the issue (R285). -/
theorem encode_completesIn_of_validated {d : Nat} (hd : d ≤ s₀.L) (hmap : MappedBelow s₀ d) {n : Nat}
    (hQ : ∀ s, Validated trav embed chs s₀ d s → ∃ t, CompletesIn n s t ∧ Q t) :
    ∃ t, CompletesIn (1 + d + n) (s₀.issue (.encode trav embed chs)) t ∧ Q t := by
  induction d generalizing n with
  | zero =>
    obtain ⟨s, hx, hs⟩ := exists_validated_zero (trav := trav) (embed := embed) hi hq hidle hchs hb hlen
    obtain ⟨t, ht, hqt⟩ := hQ s hs
    have hbusy := State.issue_not_idle (.encode trav embed chs) s₀
    rw [Nat.add_comm (1 + 0)]
    exact ⟨t, completesIn_succ ((RunOf.issue_encode hi hq hidle hchs).step_eq hbusy hx) hbusy ht, hqt⟩
  | succ d ih =>
    have hsteps : 1 + (d + 1) + n = 1 + d + (n + 1) := by omega
    rw [hsteps]
    refine ih (Nat.le_of_succ_le hd) (fun j hj => hmap j (hj.trans d.lt_succ_self)) fun s hs => ?_
    have hcode := hmap d d.lt_succ_self
    obtain ⟨t, ht, hqt⟩ := hQ _ (hs.succ hd hcode)
    exact ⟨t, completesIn_succ (hs.run.step_eq hs.busy (hs.exec_mapped hd hcode)) hs.busy ht, hqt⟩

end Failures

/-- Settles O54: the first two failures are found in CHECK, the others after CHECK and the VALIDATE steps of the symbols
that have codes. -/
theorem encodeReportsTheFirstFailure : Obligations.EncodeReportsTheFirstFailure := by
  intro s trav embed chs hi hq hidle hchs start cap need
  refine ⟨fun hb => ?_, fun hb => ⟨fun hlong => ?_, fun hlen => ⟨fun i hlt hmap hcode => ?_, fun hmap hcap => ?_⟩⟩⟩
  · have hx := exec_encode_check_invalid (s := start) (trav := trav) (embed := embed) (chs := chs) rfl
      (Bool.not_eq_true _ ▸ hb)
    exact ⟨_, encode_completesIn_one hi hq hidle hchs hx (by simp), by simp, by simp [start]⟩
  · have hx := exec_encode_check (s := start) (trav := trav) (embed := embed) (chs := chs) rfl hb
    rw [encCheck_too_long trav hlong, encFinish_eq] at hx
    exact ⟨_, encode_completesIn_one hi hq hidle hchs hx rfl, rfl, rfl, rfl⟩
  · refine encode_completesIn_of_validated hi hq hidle hchs hb hlen hlt.le hmap (n := 1) fun u hu => ?_
    have hx := hu.exec_unmapped hlt hcode
    rw [encFinish_eq] at hx
    exact ⟨_, completesIn_one (hu.run.step_eq hu.busy hx) rfl hu.busy, rfl, rfl, rfl, hu.pix⟩
  · refine encode_completesIn_of_validated hi hq hidle hchs hb hlen le_rfl hmap fun u hu => ?_
    obtain ⟨_, hx⟩ := hu.exec_exceeds hcap
    rw [encFinish_eq] at hx
    exact ⟨_, completesIn_one (hu.run.step_eq hu.busy hx) rfl hu.busy, rfl, rfl, hu.pix⟩

end Sys2Proof.Machine
end

section
/-! PROOFS. How many steps a successful ENCODE takes (spec 41_lsb_engine.md R155, 42_scatter.md R206,
70_reset_and_hazards.md R285). -/

namespace Sys2Proof.Machine

/-! The visits that find a number of slots. -/

/-- How many slots the first `n` visits of a traversal of `M` slots find (R155, R206). -/
def slotsFound (trav : Trav) (seed : Word) (M n : Nat) : Nat :=
  match trav with
  | .seq => n
  | .scat => acceptedDraws seed M n

/-- How many visits the running command has made (R155, R205). -/
def visitsMade (trav : Trav) (e : Engine) : Nat :=
  match trav with
  | .seq => e.t
  | .scat => e.g

/-- Under scatter a least number of draws, inside the period, accepts `need` slots (R206). -/
theorem exists_acceptedDraws_lt_iff (seed : Word) {M need : Nat} (h : need ≤ M) :
    ∃ d ≤ 2 ^ genExponent M, ∀ n, acceptedDraws seed M n < need ↔ n < d := by
  have hperiod : need ≤ acceptedDraws seed M (2 ^ genExponent M) := by rwa [acceptedDraws_period]
  have hex : ∃ n, need ≤ acceptedDraws seed M n := ⟨_, hperiod⟩
  refine ⟨Nat.find hex, Nat.find_min' hex hperiod, fun n => ?_⟩
  rw [Nat.lt_find_iff]
  exact ⟨fun hlt m hm => Nat.not_le_of_lt (Nat.lt_of_le_of_lt (acceptedDraws_mono seed M hm) hlt),
    fun hnone => Nat.lt_of_not_le (hnone n le_rfl)⟩

section Found
variable {s : State} {trav : Trav} {chs : List Channel} {seed : Word} (hg : TravAt trav s)
  (hseed : trav = .scat → s.eng.seed = seed)
include hg hseed

/-- `E.t` is the slots found so far (R155, R205). -/
theorem t_eq_slotsFound : s.eng.t = slotsFound trav seed s.eng.cap (visitsMade trav s.eng) := by
  cases trav with
  | seq => rfl
  | scat =>
    have hgen := hg rfl
    rw [hgen.t, hgen.M, hseed rfl]
    rfl

/-- A visit that finds a slot adds one. -/
theorem slotsFound_succ_of_slot (hc : Captured trav chs s) {sl : Slot} (hv : travVisit trav s.eng = .slot sl) :
    slotsFound trav seed s.eng.cap (visitsMade trav s.eng + 1) = s.eng.t + 1 := by
  rw [t_eq_slotsFound hg hseed]
  cases trav with
  | seq => rfl
  | scat =>
    have hgen := hg rfl
    have hx := (scat_slot_bounds hc hgen hv).1
    rw [hgen.x, hgen.M, hseed rfl] at hx
    exact (acceptedDraws_succ seed s.eng.cap s.eng.g).trans (by rw [if_pos hx]; rfl)

end Found

/-- A visit that skips is one visit made. -/
theorem visitsMade_of_skip {trav : Trav} {e : Engine} (hv : travVisit trav e = .skip) :
    visitsMade trav (travAdvance trav e) = visitsMade trav e + 1 := by
  obtain ⟨rfl, -⟩ := travVisit_skip hv
  rfl

/-- So is a visit that finds a slot, once the slot is counted in `E.t`. -/
theorem visitsMade_of_slot {trav : Trav} {e e' : Engine} (hg : e'.g = (travAdvance trav e).g) (ht : e'.t = e.t + 1) :
    visitsMade trav e' = visitsMade trav e + 1 := by
  cases trav with
  | seq => exact ht
  | scat => exact hg

/-! The phases, from the last. -/

section Encode
variable {trav : Trav} {embed : Embed} {chs : List Channel} {s₀ s : State} {visits : Nat}

/-- In CAPCHK the operands are captured (R150). -/
theorem RunOf.captured_of_capchk (hr : RunOf (.encode trav embed chs) s₀ s) (hs : s.eng.state = .capchk) :
    Captured trav chs s := by
  obtain ⟨trav', embed', chs', hruns, -⟩ := hr.inv.inCapchk hs
  obtain ⟨rfl, rfl, rfl⟩ : trav' = trav ∧ embed' = embed ∧ chs' = chs := by simpa [hr.cmd] using hruns.cmd.symm
  exact hruns.captured

/-- One busy step more before a counted completion. -/
theorem RunOf.completesIn_next {i : Instr} {t : State} {n : Nat} {Q : State → Prop} (hr : RunOf i s₀ s) (hs : ¬ s.Idle)
    (hx : exec i s = .next t) (ht : ∃ u, CompletesIn n t u ∧ Q u) : ∃ u, CompletesIn (n + 1) s u ∧ Q u := by
  obtain ⟨u, hu, hq⟩ := ht
  exact ⟨u, completesIn_succ (hr.step_eq hs hx) hs hu, hq⟩

theorem RunOf.need_eq (hr : RunOf (.encode trav embed chs) s₀ s) (hat : EmbedAt trav embed chs s) :
    s.eng.need = codeWidth s₀.cfg * (s₀.L + 1) := by
  rw [hat.fits.need, hr.len_eq hat.runs.captured, hr.k_eq hat.runs.captured]

variable (hvisits : ∀ n, slotsFound trav (s₀.pixRead 0) (capacityBits trav s₀.W s₀.H chs.length) n <
  codeWidth s₀.cfg * (s₀.L + 1) ↔ n < visits)
include hvisits

/-- In EMBED the last slot is still to find. -/
theorem visitsMade_lt (hr : RunOf (.encode trav embed chs) s₀ s) (hs : s.eng.state = .embed)
    (hseed : trav = .scat → s.eng.seed = s₀.pixRead 0) : visitsMade trav s.eng < visits := by
  have hat := hr.inv.embedAt hs hr.cmd
  have ht := hat.t
  rwa [t_eq_slotsFound hat.trav hseed, hr.cap_eq hat.runs.captured, hr.need_eq hat, hvisits] at ht

/-- EMBED: each step is one visit, and the visit that finds the last slot completes the command (R175). -/
theorem encode_completesIn_of_embed (hr : RunOf (.encode trav embed chs) s₀ s) (hs : s.eng.state = .embed)
    (hseed : trav = .scat → s.eng.seed = s₀.pixRead 0) {n : Nat} (hn : visitsMade trav s.eng + n = visits) :
    ∃ t, CompletesIn n s t ∧ t.regs.err = .ok := by
  induction n generalizing s with
  | zero =>
    have := visitsMade_lt hvisits hr hs hseed
    omega
  | succ n ih =>
    have hbusy : ¬ s.Idle := State.not_idle hs nofun
    have hat := hr.inv.embedAt hs hr.cmd
    have hc := hat.runs.captured
    have hlt := visitsMade_lt hvisits hr hs hseed
    have hgo : ∀ t, exec (.encode trav embed chs) s = .next t → t.eng.state = .embed → t.eng.seed = s.eng.seed →
        visitsMade trav t.eng = visitsMade trav s.eng + 1 → ∃ u, CompletesIn (n + 1) s u ∧ u.regs.err = .ok :=
      fun t hx ht hseedt hmade => hr.completesIn_next hbusy hx
        (ih (hr.next hbusy hx (State.not_idle ht nofun)) ht (hseedt ▸ hseed) (by omega))
    rcases travVisit_skip_or_slot hc hat.trav hat.t_lt_cap with hv | ⟨sl, hv⟩
    · have hx := (exec_encode_embed (embed := embed) (chs := chs) hs).trans (encEmbed_skip hv)
      exact hgo _ hx (by simp [hs]) (by rw [travAdvance_eq]) (visitsMade_of_skip hv)
    · obtain ⟨acc, hstep⟩ := hat.encEmbed_slot hr.inv.cfg hv
      have hx := (exec_encode_embed (chs := chs) hs).trans hstep
      by_cases hlast : s.eng.t + 1 = s.eng.need
      · rw [encCount_last trav (by simpa using hlast), encFinish_eq] at hx
        have hend : ¬ visitsMade trav s.eng + 1 < visits := by
          rw [← hvisits, ← hr.cap_eq hc, ← hr.need_eq hat, slotsFound_succ_of_slot hat.trav hseed hc hv]
          exact Nat.not_lt.mpr hlast.ge
        obtain rfl : n = 0 := by omega
        exact ⟨_, completesIn_one (hr.step_eq hbusy hx) rfl hbusy, rfl⟩
      · refine hgo _ hx ?_ ?_ (visitsMade_of_slot ?_ ?_)
        · simp [hs, hlast]
        · rw [encCount_eng, embedded_eng, travAdvance_eq]
        · simp
        · simp

/-- TRAVINIT (R174). -/
theorem encode_completesIn_of_travinit (hr : RunOf (.encode trav embed chs) s₀ s) (hs : s.eng.state = .travinit)
    (hpix : s.pix = s₀.pix) : ∃ t, CompletesIn (visits + 1) s t ∧ t.regs.err = .ok := by
  have hbusy : ¬ s.Idle := State.not_idle hs nofun
  have hx := exec_encode_travinit (trav := trav) (embed := embed) (chs := chs) hs
  have hseed : trav = .scat → (encTravinit trav s).eng.seed = s₀.pixRead 0 := by
    rintro rfl
    exact pixRead_of_pix_eq hpix 0
  have hmade : visitsMade trav (encTravinit trav s).eng = 0 := by cases trav <;> rfl
  exact hr.completesIn_next hbusy hx
    (encode_completesIn_of_embed hvisits (hr.next hbusy hx (by simp)) (by simp) hseed (by omega))

variable (hfits : codeWidth s₀.cfg * (s₀.L + 1) ≤ capacityBits trav s₀.W s₀.H chs.length)
include hfits

/-- CAPCHK, where the payload fits (R173). -/
theorem encode_completesIn_of_capchk (hr : RunOf (.encode trav embed chs) s₀ s) (hs : s.eng.state = .capchk)
    (hpix : s.pix = s₀.pix) : ∃ t, CompletesIn (visits + 1 + 1) s t ∧ t.regs.err = .ok := by
  have hbusy : ¬ s.Idle := State.not_idle hs nofun
  have hc := hr.captured_of_capchk hs
  rw [← hr.k_eq hc, ← hr.len_eq hc, ← hr.cap_eq hc] at hfits
  have hx := exec_encode_capchk (trav := trav) (embed := embed) (chs := chs) hs
  rw [encCapchk_fits trav hfits] at hx
  exact hr.completesIn_next hbusy hx (encode_completesIn_of_travinit hvisits (hr.next hbusy hx nofun) rfl hpix)

/-- An ENCODE that passes its checks takes one step for CHECK, one for each symbol, two to start and one for each visit
(R285). -/
theorem encode_completesIn (hi : Inv s₀) (hq : s₀.Quiet) (hidle : s₀.Idle) (hchs : ChannelsOk chs)
    (hb : bufferOk s₀.cfg s₀.W s₀.H = true) (hlen : s₀.L ≤ s₀.cfg.msgBytesMax) (hmap : MappedBelow s₀ s₀.L) :
    ∃ t, CompletesIn (1 + s₀.L + 1 + 1 + visits) (s₀.issue (.encode trav embed chs)) t ∧ t.regs.err = .ok := by
  rw [show 1 + s₀.L + 1 + 1 + visits = 1 + s₀.L + (visits + 1 + 1) by omega]
  exact encode_completesIn_of_validated hi hq hidle hchs hb hlen le_rfl hmap fun s hs =>
    encode_completesIn_of_capchk hvisits hfits hs.run (hs.phase.trans (if_pos rfl)) hs.pix

end Encode

end Sys2Proof.Machine
end

section
/-! PROOFS. How many steps a DECODE takes at most, and the two obligations about step counts (spec
41_lsb_engine.md R180 to R185, 70_reset_and_hazards.md R285). -/

namespace Sys2Proof.Machine

/-- A command each step of which lowers `left` completes within `left` steps. -/
theorem RunOf.completesWithin {i : Instr} {s₀ s : State} (left : Engine → Nat)
    (hleft : ∀ s t, RunOf i s₀ s → exec i s = .next t → left t.eng < left s.eng) (hr : RunOf i s₀ s) (hs : ¬ s.Idle) :
    ∃ n t, CompletesIn n s t ∧ n ≤ left s.eng := by
  induction hk : left s.eng using Nat.strong_induction_on generalizing s with
  | h k ih =>
  subst hk
  obtain ⟨t, ht⟩ := engineStep_total hr.inv ((State.busy_eq_true s).mpr hs)
  have hx : exec i s = .next t := engineStep_of_ok hr.cmd ▸ ht
  have hlt := hleft s t hr hx
  by_cases hidle : t.Idle
  · exact ⟨1, t, completesIn_one (hr.step_eq hs hx) hidle hs, by omega⟩
  · obtain ⟨n, u, hn, hle⟩ := ih _ hlt (hr.next hs hx hidle) hidle rfl
    exact ⟨n + 1, u, completesIn_succ (hr.step_eq hs hx) hs hn, by omega⟩

/-! DECODE. -/

/-- How many visits a traversal of `cap` slots makes at most: the slots, or the draws of one period (R206). -/
def travTotal (trav : Trav) (cap : Nat) : Nat :=
  match trav with
  | .seq => cap
  | .scat => 2 ^ genExponent cap

/-- How many steps a DECODE of `cap` slots has at most still to take: the visits left, those of the `groups` left to
look up, and the completion (R285). -/
def decodeLeft (trav : Trav) (cap groups : Nat) (e : Engine) : Nat :=
  match e.state with
  | .check => 2 + travTotal trav cap + groups + 1
  | .travinit => 1 + travTotal trav cap + groups + 1
  | .scan | .decodeCode => travLeft trav e + (groups - e.i) + 1
  | .idle | .validate | .capchk | .embed => 0

section Decode
variable {trav : Trav} {chs : List Channel} {s₀ s t : State} {cap groups : Nat}

theorem decodeLeft_of_idle {e : Engine} (h : e.state = .idle) : decodeLeft trav cap groups e = 0 := by
  simp only [decodeLeft, h]

theorem decodeLeft_of_check {e : Engine} (h : e.state = .check) :
    decodeLeft trav cap groups e = 2 + travTotal trav cap + groups + 1 := by
  simp only [decodeLeft, h]

theorem decodeLeft_of_travinit {e : Engine} (h : e.state = .travinit) :
    decodeLeft trav cap groups e = 1 + travTotal trav cap + groups + 1 := by
  simp only [decodeLeft, h]

theorem decodeLeft_of_scanning {e : Engine} (h : e.state = .scan ∨ e.state = .decodeCode) :
    decodeLeft trav cap groups e = travLeft trav e + (groups - e.i) + 1 := by
  rcases h with h | h <;> simp only [decodeLeft, h]

/-- TRAVINIT leaves the whole traversal to make (R182). -/
theorem travLeft_decTravinit (hc : Captured trav chs s) :
    travLeft trav (decTravinit trav s).eng = travTotal trav s.eng.cap := by
  cases trav with
  | seq => rfl
  | scat => rw [← hc.slots_eq]; rfl

/-- A SCAN that goes on uses up one visit (R183, R185). -/
theorem decodeLeft_lt_of_scan (hat : ScanAt trav chs s) (hs : s.eng.state = .scan) (hx : decScan trav s = .next t) :
    decodeLeft trav cap groups t.eng < decodeLeft trav cap groups s.eng := by
  rw [decodeLeft_of_scanning (.inl hs)]
  rcases decScan_next hx with ⟨-, rfl⟩ | ⟨hne, ⟨hv, rfl⟩ | ⟨sl, hv, -, rfl⟩⟩
  · rw [decodeLeft_of_idle (by simp)]
    omega
  · obtain ⟨rfl, -⟩ := travVisit_skip hv
    have hlt := travLeft_lt (e := travAdvance .scat s.eng) hat.trav (hat.t_lt_cap hne) rfl rfl rfl nofun
    have hphase : (travAdvance .scat s.eng).state = .scan := by simp [hs]
    rw [decodeLeft_of_scanning (.inl hphase), travAdvance_i]
    omega
  · have hlt := travLeft_scanned_lt hat.trav (hat.t_lt_cap hne) sl
    have hi : (scanned trav sl s).eng.i = s.eng.i := by simp [scanned]
    have hphase : (scanned trav sl s).eng.state = .scan ∨ (scanned trav sl s).eng.state = .decodeCode := by
      by_cases hfull : s.eng.nb + 1 = s.eng.k
      · exact .inr (by simp [scanned, hfull])
      · exact .inl (by simp [scanned, hfull, hs])
    rw [← scanned, decodeLeft_of_scanning hphase, hi]
    omega

/-- A DECODE_CODE that goes on has looked up one of the groups (R184). -/
theorem decodeLeft_lt_of_decodeCode (hs : s.eng.state = .decodeCode) (hi : s.eng.i < groups)
    (hx : decCode trav s = .next t) : decodeLeft trav cap groups t.eng < decodeLeft trav cap groups s.eng := by
  rw [decodeLeft_of_scanning (.inr hs)]
  rcases decCode_next hx with ⟨err, idx, val, rfl, -⟩ | ⟨sym, -, -, -, rfl⟩
  · rw [decodeLeft_of_idle (by simp)]
    omega
  · have hvisits : travLeft trav { s.eng with acc := 0, nb := 0, i := s.eng.i + 1, state := .scan } =
        travLeft trav s.eng := by cases trav <;> rfl
    rw [decodeLeft_of_scanning (.inl rfl), hvisits]
    dsimp only
    omega

/-- The group that DECODE_CODE looks up is whole, so it is one of the first `cap / K` (R183, R184). -/
theorem RunOf.index_lt_of_decodeCode (hr : RunOf (.decode trav chs) s₀ s) (hs : s.eng.state = .decodeCode) :
    s.eng.i < capacityBits trav s₀.W s₀.H chs.length / codeWidth s₀.cfg := by
  obtain ⟨trav', chs', hruns, -, hle, hnb, ht, -⟩ := hr.inv.inDecodeCode hs
  obtain ⟨rfl, rfl⟩ : trav' = trav ∧ chs' = chs := by simpa [hr.cmd] using hruns.cmd.symm
  rw [ht, hnb, ← Nat.succ_mul, hr.k_eq hruns.captured, hr.cap_eq hruns.captured] at hle
  exact (Nat.le_div_iff_mul_le (codeWidth_pos _)).mpr hle

/-- Each step of a DECODE lowers `decodeLeft`. -/
theorem RunOf.decodeLeft_lt (hr : RunOf (.decode trav chs) s₀ s) (hx : exec (.decode trav chs) s = .next t) :
    let cap := capacityBits trav s₀.W s₀.H chs.length
    decodeLeft trav cap (cap / codeWidth s₀.cfg) t.eng < decodeLeft trav cap (cap / codeWidth s₀.cfg) s.eng := by
  intro cap
  have hindex := hr.index_lt_of_decodeCode
  generalize cap / codeWidth s₀.cfg = groups at hindex ⊢
  rcases execDecode_next hx with ⟨hs, ⟨-, rfl⟩ | ⟨-, rfl⟩⟩ | ⟨hs, rfl⟩ | ⟨hs, hscan⟩ | ⟨hs, hcode⟩
  · rw [decodeLeft_of_travinit rfl, decodeLeft_of_check hs]
    omega
  · rw [decodeLeft_of_idle (by simp), decodeLeft_of_check hs]
    omega
  · have hc := (hr.inv.decode_travinit hs hr.cmd).captured
    have hcap : s.eng.cap = cap := hr.cap_eq hc
    rw [decodeLeft_of_scanning (.inl (by simp)), travLeft_decTravinit hc, hcap, decodeLeft_of_travinit hs]
    omega
  · exact decodeLeft_lt_of_scan (hr.inv.scanAt hs hr.cmd) hs hscan
  · exact decodeLeft_lt_of_decodeCode hs (hindex hs) hcode

/-- DECODE, issued in an idle block (R285). -/
theorem decode_completesWithin (hi : Inv s₀) (hq : s₀.Quiet) (hidle : s₀.Idle) (hchs : ChannelsOk chs) :
    let cap := capacityBits trav s₀.W s₀.H chs.length
    ∃ n t, CompletesIn n (s₀.issue (.decode trav chs)) t ∧
      n ≤ 2 + travTotal trav cap + cap / codeWidth s₀.cfg + 1 := by
  have hr : RunOf (.decode trav chs) s₀ (s₀.issue (.decode trav chs)) := .issue hi hq hidle hchs
  exact hr.completesWithin (decodeLeft trav _ _) (fun _ _ => RunOf.decodeLeft_lt) (State.issue_not_idle _ _)

end Decode

/-! The obligations. -/

/-- Settles O58: a sequential visit always finds a slot, so ENCODE makes one for each payload bit. -/
theorem sequentialStepCounts : Obligations.SequentialStepCounts := by
  intro s embed chs hi hq hidle hchs hb
  exact ⟨fun hlen hmap hfits =>
      encode_completesIn (trav := .seq) (fun _ => Iff.rfl) hfits hi hq hidle hchs hb hlen hmap,
    decode_completesWithin (trav := .seq) hi hq hidle hchs⟩

/-- Settles O59: the draws that accept the payload's slots lie in one period of the generator. -/
theorem scatterStepBounds : Obligations.ScatterStepBounds := by
  intro s embed chs hi hq hidle hchs hb cap
  refine ⟨fun hlen hmap hfits => ?_, decode_completesWithin (trav := .scat) hi hq hidle hchs⟩
  obtain ⟨draws, hle, hdraws⟩ := exists_acceptedDraws_lt_iff (s.pixRead 0) hfits
  obtain ⟨t, ht, herr⟩ := encode_completesIn (trav := .scat) (embed := embed) hdraws hfits hi hq hidle hchs hb hlen hmap
  exact ⟨_, t, ht, herr, Nat.add_le_add_left hle _⟩

end Sys2Proof.Machine
end

section
/-! PROOFS. The reset pin and the accesses made while a command runs (spec 10_state.md R46, 70_reset_and_hazards.md R270
to R272, R280). -/

namespace Sys2Proof.Machine

theorem nextTurn_of_sched {s : State} {turn : Turn} {rest : List Turn} (h : s.sched = turn :: rest) :
    nextTurn s = turn := by
  simp only [nextTurn, h]

/-- Settles O11: the step is `assertReset`, which keeps the parameters, the memories and the schedule. -/
theorem assertedResetKeepsMemories : Obligations.AssertedResetKeepsMemories := fun _ _ hsched =>
  ⟨_, step_assertRst (nextTurn_of_sched hsched), rfl, rfl, rfl, rfl, rfl, rfl, rfl, rfl, congrArg List.tail hsched⟩

/-- The engine has no turn of its own while IDLE or under `rst` (R41, R271). -/
theorem engineTurn_of_no_step {s : State} (h : s.busy = false ∨ s.rst = true) : engineTurn s = .next s := by
  have hno : (s.busy && !s.rst) = false := by rcases h with h | h <;> simp [h]
  simp only [engineTurn, hno, Bool.false_eq_true, if_false]

/-- Under `rst` every access is answered ERROR (R271). -/
theorem State.respond_of_rst {s : State} (h : s.rst = true) (a : Access) : s.respond a = .error := by
  cases a with
  | read addr n => simp only [State.respond, State.grant_of_rst h]
  | write addr n v => simp only [State.respond, State.grant_of_rst h]

/-- A block of the invariant is at its reset values under `rst`, so it is idle (R46, R271). -/
theorem Inv.idle_of_rst {s : State} (hi : Inv s) (hr : s.rst = true) : s.Idle :=
  congrArg Engine.state (hi.inReset hr).2

/-- Settles O12: under `rst` nothing is granted; the block released is idle, so registers and memories are granted. -/
theorem resetLineBlocksTheBlock : Obligations.ResetLineBlocksTheBlock := by
  refine ⟨fun s hr => ⟨engineTurn_of_no_step (.inr hr), fun a => ?_⟩, fun s rest hsched => ?_⟩
  · have herr := State.respond_of_rst hr a
    exact ⟨herr, by rw [herr]; rfl, State.perform_of_error herr⟩
  intro t
  have hpop : releaseReset (popTurn s) = t := by rw [popTurn, hsched]; rfl
  refine ⟨by rw [step_releaseRst (nextTurn_of_sched hsched), hpop], fun hi hr => ?_⟩
  have hidle : t.Idle := hi.idle_of_rst hr
  have hb : t.busy = false := (State.busy_eq_false t).mpr hidle
  refine ⟨hidle, hb, engineTurn_of_no_step (.inl hb), State.respond_readReg (s := t) rfl .id,
    fun i hlt => State.respond_read_of_grant (State.grant_msgByte (s := t) hi.cfg rfl hidle hlt), fun w => ?_⟩
  obtain ⟨hperform, hack⟩ := State.perform_writeReg (s := t) rfl .cmd w
  have haccept : t.writeReg .cmd w = t.accept w := by simp only [State.writeReg, hb]; rfl
  exact ⟨hack, congrArg (fun u : State => u.eng.state) (hperform.trans haccept)⟩

/-- While BUSY = 1 a write of CMD or of an operand register is dropped (R30, R280). -/
theorem State.writeReg_of_busy {s : State} (h : s.busy = true) (v : Word) {r : RegName}
    (hr : r ∈ [RegName.cmd, .width, .height, .msgLen]) : s.writeReg r v = s.dropWrite := by
  simp only [List.mem_cons, List.not_mem_nil, or_false] at hr
  rcases hr with rfl | rfl | rfl | rfl <;> simp only [State.writeReg, h, if_true]

/-- Settles O20: the four writes are `State.dropWrite`; registers are granted, BUSY or not. -/
theorem busyDropsOperandWrites : Obligations.BusyDropsOperandWrites := by
  intro s v hr hb
  refine ⟨fun a ha => ?_, (State.perform_writeReg hr .ctrl v).1, (State.perform_writeReg hr .status v).1,
    fun r _ => State.respond_readReg hr r⟩
  obtain ⟨r, hmem, rfl⟩ : ∃ r ∈ [RegName.cmd, .width, .height, .msgLen], r.addr = a := List.mem_map.mp ha
  obtain ⟨hperform, hack⟩ := State.perform_writeReg hr r v
  exact ⟨hack, hperform.trans (State.writeReg_of_busy hb v hmem)⟩

end Sys2Proof.Machine
end
